-- ==== Sys2Proof/Word.lean ====
section
/-! DEFINITION. The word types of the spec's notation (`00_scope.md` R15): unsigned integers of 8, 16 and
32 bits. Addresses and lengths are naturals while they are compared or added (R15, R85). -/

namespace Sys2Proof

/-- `u8` of R15: one byte of a frame, of the flash or of a register. -/
abbrev Byte := BitVec 8

/-- `u16` of R15. -/
abbrev Half := BitVec 16

/-- `u32` of R15. -/
abbrev Word := BitVec 32

end Sys2Proof
end

