-- ==== Sys2Proof/Config.lean ====
section
/-! DEFINITION. The immutable configuration `CFG` (`00_scope.md` R10, R11), its well-formedness (R12), the
reference configuration `CFG_REF`, and the free values (constants without a body). `CFG` is a parameter of
the spec (R20); the model carries it in `State.cfg`, which no step writes (log 3). -/

namespace Sys2Proof

/-- The twelve host commands, in the order of R3 (`CMD` of `10_state.md` R26 holds one of them or none). -/
inductive CmdName where
  | getVersion | getHelp | getChipId | getReadProtectionStatus | goToAddress | flashErase
  | memWrite | enableRwProtect | memRead | readSectorProtectionStatus | otpRead | disableRwProtect
  deriving DecidableEq, Repr, Inhabited

/-- The twelve command names in the order of the source's table (R3, R99). -/
def CmdName.all : List CmdName :=
  [.getVersion, .getHelp, .getChipId, .getReadProtectionStatus, .goToAddress, .flashErase,
   .memWrite, .enableRwProtect, .memRead, .readSectorProtectionStatus, .otpRead, .disableRwProtect]

/-- The twelve errors of the taxonomy (`60_exceptions.md` R290). The protocol one is `timeout`, the flash
one `flashTimeout`. -/
inductive Err where
  | timeout | malformedLength | checksumMismatch | unsupportedCommand
  | addressProtected | outOfRange | alignmentError | readProtected | invalidTarget
  | hardwareFault | verifyFailed | flashTimeout
  deriving DecidableEq, Repr, Inhabited

/-- `CRC_FEED_BITS`: how many bits one message byte occupies in the CRC register's input (R125). -/
inductive FeedWidth where
  | bits8 | bits32
  deriving DecidableEq, Repr, Inhabited

/-- `CRC_WIRE_ORDER` (R74). -/
inductive WireOrder where
  | lsbFirst | msbFirst
  deriving DecidableEq, Repr, Inhabited

/-- `FIELD_ORDER` (R75 (a), R98). -/
inductive FieldOrder where
  | little | big
  deriving DecidableEq, Repr, Inhabited

/-- One sector: `SECTOR_BASE[s]` and `SECTOR_SIZE[s]` (R11, R71). -/
structure Sector where
  base : Nat
  size : Nat
  deriving DecidableEq, Repr, Inhabited

/-- The fields of `CFG` (R11). Addresses and sizes are naturals, bounded by `Cfg.WellFormed`, because the
spec never lets them wrap (R15; log 23). `NSECTORS` is the number of entries of `sectors`. -/
structure Cfg where
  crcPoly : Word
  crcInit : Word
  crcRefIn : Bool
  crcRefOut : Bool
  crcXorOut : Word
  crcFeed : FeedWidth
  crcWireOrder : WireOrder
  fieldOrder : FieldOrder
  ccGetVersion : Byte
  ccGetHelp : Byte
  ccGetChipId : Byte
  ccGetReadProtectionStatus : Byte
  ccGoToAddress : Byte
  ccFlashErase : Byte
  ccMemWrite : Byte
  ccEnableRwProtect : Byte
  ccMemRead : Byte
  ccReadSectorProtectionStatus : Byte
  ccOtpRead : Byte
  ccDisableRwProtect : Byte
  rcAck : Byte
  rcNack : Byte
  stOk : Byte
  stMalformedLength : Byte
  stChecksumMismatch : Byte
  stUnsupportedCommand : Byte
  stAddressProtected : Byte
  stOutOfRange : Byte
  stAlignmentError : Byte
  stReadProtected : Byte
  stInvalidTarget : Byte
  stHardwareFault : Byte
  stVerifyFailed : Byte
  stFlashTimeout : Byte
  blVersion : Byte
  sectors : List Sector
  flashBase : Nat
  flashEnd : Nat
  /-- `RESERVED`: the sector numbers holding the bootloader (R73). -/
  reserved : List Nat
  appBase : Nat
  appEnd : Nat
  ramBase : Nat
  ramEnd : Nat
  otpBase : Nat
  otpEnd : Nat
  wordBytes : Nat
  erasedByte : Byte
  massErase : Option Byte
  /-- `RX_TIMEOUT`, opaque in the spec: no rule reads it (R61; log 23). -/
  rxTimeout : Nat
  deriving DecidableEq, Repr, Inhabited

namespace Cfg

/-- `NSECTORS` (R11). -/
def nsectors (c : Cfg) : Nat := c.sectors.length

/-- The `CC_` field of a command (R99). -/
def code (c : Cfg) : CmdName → Byte
  | .getVersion => c.ccGetVersion
  | .getHelp => c.ccGetHelp
  | .getChipId => c.ccGetChipId
  | .getReadProtectionStatus => c.ccGetReadProtectionStatus
  | .goToAddress => c.ccGoToAddress
  | .flashErase => c.ccFlashErase
  | .memWrite => c.ccMemWrite
  | .enableRwProtect => c.ccEnableRwProtect
  | .memRead => c.ccMemRead
  | .readSectorProtectionStatus => c.ccReadSectorProtectionStatus
  | .otpRead => c.ccOtpRead
  | .disableRwProtect => c.ccDisableRwProtect

/-- The twelve `CC_` values in the order of R99 (the answer of GET_HELP, R201). -/
def codes (c : Cfg) : List Byte := CmdName.all.map c.code

/-- The `ST_` field of an error (R291). `timeout` has none, because no frame is sent for it. -/
def status (c : Cfg) : Err → Option Byte
  | .timeout => none
  | .malformedLength => some c.stMalformedLength
  | .checksumMismatch => some c.stChecksumMismatch
  | .unsupportedCommand => some c.stUnsupportedCommand
  | .addressProtected => some c.stAddressProtected
  | .outOfRange => some c.stOutOfRange
  | .alignmentError => some c.stAlignmentError
  | .readProtected => some c.stReadProtected
  | .invalidTarget => some c.stInvalidTarget
  | .hardwareFault => some c.stHardwareFault
  | .verifyFailed => some c.stVerifyFailed
  | .flashTimeout => some c.stFlashTimeout

/-- The eleven `ST_` error codes of R291. -/
def errorCodes (c : Cfg) : List Byte :=
  [c.stMalformedLength, c.stChecksumMismatch, c.stUnsupportedCommand, c.stAddressProtected,
   c.stOutOfRange, c.stAlignmentError, c.stReadProtected, c.stInvalidTarget,
   c.stHardwareFault, c.stVerifyFailed, c.stFlashTimeout]

/-- Sectors that start at `base`, follow each other without a gap, are not empty and hold whole words,
up to `limit` (R12). -/
def sectorsFrom (w limit : Nat) : Nat → List Sector → Bool
  | base, [] => base == limit
  | base, s :: rest =>
    s.base == base && decide (0 < s.size) && s.size % w == 0 && sectorsFrom w limit (base + s.size) rest

/-- Two half-open intervals `a .. b` and `c .. d` have no address in common; an empty one shares none. -/
def disjoint (a b c d : Nat) : Bool :=
  decide (b ≤ a) || decide (d ≤ c) || decide (b ≤ c) || decide (d ≤ a)

/-- No byte of the application region lies in a reserved sector (R12). -/
def appClear (c : Cfg) : Bool :=
  c.reserved.all fun k =>
    match c.sectors[k]? with
    | some s => disjoint c.appBase c.appEnd s.base (s.base + s.size)
    | none => true

/-- The widths of R11: `NSECTORS` in 1..255, `WORD_BYTES` in 1, 2, 4, 8, every address and size a u32, but for
`FLASH_END`, which may be `2^32`, the end of the u32 address space (R69). -/
def typed (c : Cfg) : Bool :=
  decide (1 ≤ c.nsectors) && decide (c.nsectors ≤ 255)
  && [1, 2, 4, 8].contains c.wordBytes
  && c.sectors.all (fun s => decide (s.base < 2 ^ 32) && decide (s.size < 2 ^ 32))
  && decide (c.flashBase < 2 ^ 32) && decide (c.flashEnd ≤ 2 ^ 32)
  && decide (c.appBase < 2 ^ 32) && decide (c.appEnd < 2 ^ 32)
  && decide (c.ramBase < 2 ^ 32) && decide (c.ramEnd < 2 ^ 32)
  && decide (c.otpBase < 2 ^ 32) && decide (c.otpEnd < 2 ^ 32)

/-- The conditions of R12, on fields of the widths of R11. -/
def wellFormed (c : Cfg) : Bool :=
  c.typed
  && c.crcPoly.getLsbD 0
  && decide c.codes.Nodup
  && c.rcAck != c.rcNack
  && decide (c.stOk :: c.errorCodes).Nodup
  && c.flashBase % c.wordBytes == 0
  && sectorsFrom c.wordBytes c.flashEnd c.flashBase c.sectors
  && !c.reserved.isEmpty
  && c.reserved.all (fun k => decide (k < c.nsectors))
  && (List.range c.nsectors).any (fun k => !c.reserved.contains k)
  && decide (c.flashBase ≤ c.appBase) && decide (c.appBase + 8 ≤ c.appEnd) && decide (c.appEnd ≤ c.flashEnd)
  && c.appClear
  && decide (0 < c.ramBase) && decide (c.ramBase < c.ramEnd) && decide (c.ramEnd < 0xFFFFFFFF)
  && disjoint c.flashBase c.flashEnd c.otpBase c.otpEnd
  && disjoint c.flashBase c.flashEnd c.ramBase c.ramEnd
  && disjoint c.otpBase c.otpEnd c.ramBase c.ramEnd
  && match c.massErase with
     | some m => decide (c.nsectors ≤ m.toNat)
     | none => true

/-- A configuration is well formed (R12); every rule of the spec assumes it. -/
abbrev WellFormed (c : Cfg) : Prop := c.wellFormed = true

end Cfg

/-- The sector table of `CFG_REF` (R72). -/
def sectorsRef : List Sector :=
  [⟨0x08000000, 0x4000⟩, ⟨0x08004000, 0x4000⟩, ⟨0x08008000, 0x4000⟩, ⟨0x0800C000, 0x4000⟩,
   ⟨0x08010000, 0x10000⟩, ⟨0x08020000, 0x20000⟩, ⟨0x08040000, 0x20000⟩, ⟨0x08060000, 0x20000⟩,
   ⟨0x08080000, 0x20000⟩, ⟨0x080A0000, 0x20000⟩, ⟨0x080C0000, 0x20000⟩, ⟨0x080E0000, 0x20000⟩]

/-- The reference configuration `CFG_REF` (R11, R72, R99, R100, R291). `rxTimeout` has no value in the
spec and no rule reads it (log 23). -/
def cfgRef : Cfg where
  crcPoly := 0x04C11DB7
  crcInit := 0xFFFFFFFF
  crcRefIn := false
  crcRefOut := false
  crcXorOut := 0x00000000
  crcFeed := .bits8
  crcWireOrder := .lsbFirst
  fieldOrder := .little
  ccGetVersion := 0x51
  ccGetHelp := 0x52
  ccGetChipId := 0x53
  ccGetReadProtectionStatus := 0x54
  ccGoToAddress := 0x55
  ccFlashErase := 0x56
  ccMemWrite := 0x57
  ccEnableRwProtect := 0x58
  ccMemRead := 0x59
  ccReadSectorProtectionStatus := 0x5A
  ccOtpRead := 0x5B
  ccDisableRwProtect := 0x5C
  rcAck := 0xA5
  rcNack := 0x7F
  stOk := 0x00
  stMalformedLength := 0x11
  stChecksumMismatch := 0x12
  stUnsupportedCommand := 0x13
  stAddressProtected := 0x21
  stOutOfRange := 0x22
  stAlignmentError := 0x23
  stReadProtected := 0x24
  stInvalidTarget := 0x25
  stHardwareFault := 0x31
  stVerifyFailed := 0x32
  stFlashTimeout := 0x33
  blVersion := 0x10
  sectors := sectorsRef
  flashBase := 0x08000000
  flashEnd := 0x08100000
  reserved := [0, 1]
  appBase := 0x08008000
  appEnd := 0x08100000
  ramBase := 0x20000000
  ramEnd := 0x20020000
  otpBase := 0x1FFF7800
  otpEnd := 0x1FFF7A10
  wordBytes := 4
  erasedByte := 0xFF
  massErase := some 0xFF
  rxTimeout := 0

/-- FREE VALUE (log 11): the byte at an address of a unit whose content the rules leave open, one per draw
(`93_implementation_defined.md` U1, U2; `20_memory.md` R70, R86). The first argument is `Env.draws`. -/
opaque Config.drawByte : Nat → Nat → Byte

end Sys2Proof
end

