-- ==== Sys2Proof/Machine/Crc.lean ====
section
/-! DEFINITION. The CRC-32 validator (`40_crc.md`): `CrcInit`, `CrcUpdate`, `CrcFinal`, `Crc`, as functions of
the configuration. The register `CRC_ACC` is written with `crcRemainder` by the operations that run them. -/

namespace Sys2Proof.Machine

/-- The bits one message byte is fed as, in the order they are shifted in: the fed unit most significant bit
first, zero-extended to `CRC_FEED_BITS`, reflected when `CRC_REFIN` (R123, R125). -/
def feedBits (c : Cfg) (b : Byte) : List Bool :=
  let bits := (List.range 8).map fun k => b.getLsbD (7 - k)
  let unit :=
    match c.crcFeed with
    | .bits8 => bits
    | .bits32 => List.replicate 24 false ++ bits
  if c.crcRefIn then unit.reverse else unit

/-- One shift of the register: `t` is the fed bit xor bit 31; the polynomial is added when `t` (R123). -/
def crcShift (poly acc : Word) (u : Bool) : Word :=
  if (u ^^ acc.getLsbD 31) then (acc <<< 1) ^^^ poly else acc <<< 1

/-- `CrcUpdate(b)` on an accumulator value (R123). -/
def crcUpdate (c : Cfg) (acc : Word) (b : Byte) : Word :=
  (feedBits c b).foldl (crcShift c.crcPoly) acc

/-- What `CRC_ACC` holds after `CrcInit` and a `CrcUpdate` of every byte (R122, R126). -/
def crcRemainder (c : Cfg) (bytes : List Byte) : Word :=
  bytes.foldl (crcUpdate c) c.crcInit

/-- `rev_32` of R16. -/
def rev32 (v : Word) : Word := v.reverse

/-- `CrcFinal()` of an accumulator value (R124). -/
def crcFinal (c : Cfg) (acc : Word) : Word :=
  (if c.crcRefOut then rev32 acc else acc) ^^^ c.crcXorOut

/-- `Crc(B)` (R126). -/
def crc (c : Cfg) (bytes : List Byte) : Word := crcFinal c (crcRemainder c bytes)

end Sys2Proof.Machine
end

