-- ==== Sys2Proof/Syntax.lean ====
section
/-! DEFINITION. The instructions: one constructor per row of `spec/opcode_table.json`, a frame of one of the
twelve commands or of the two response kinds (`00_scope.md` R3, R14; payload layouts of `30_encoding.md`
R97, R100). The `byte_count` of MEM_WRITE is the number of its data bytes (R97). -/

namespace Sys2Proof

/-- A frame as an instruction (R14), without the envelope's `length` and `crc`, which its fields determine. -/
inductive Instr where
  /-- GET_VERSION, R200 -/
  | getVersion
  /-- GET_HELP, R201 -/
  | getHelp
  /-- GET_CHIP_ID, R202 -/
  | getChipId
  /-- GET_READ_PROTECTION_STATUS, R203 -/
  | getReadProtectionStatus
  /-- GO_TO_ADDRESS with `address`, R271 -/
  | goToAddress (address : Word)
  /-- FLASH_ERASE with `sector_number` and `sector_count`, R231 -/
  | flashErase (sectorNumber sectorCount : Byte)
  /-- MEM_WRITE with `base_address` and `data`, R232 -/
  | memWrite (baseAddress : Word) (data : List Byte)
  /-- ENABLE_RW_PROTECT with `sector_mask` and `mode`, R235 -/
  | enableRwProtect (sectorMask : Half) (mode : Byte)
  /-- MEM_READ with `base_address` and `byte_count`, R233 -/
  | memRead (baseAddress : Word) (byteCount : Byte)
  /-- READ_SECTOR_PROTECTION_STATUS, R204 -/
  | readSectorProtectionStatus
  /-- OTP_READ with `base_address` and `byte_count`, R234 -/
  | otpRead (baseAddress : Word) (byteCount : Byte)
  /-- DISABLE_RW_PROTECT, R236 -/
  | disableRwProtect
  /-- the response frame ACK with `status` and `data`, R100 -/
  | ack (status : Byte) (data : List Byte)
  /-- the response frame NACK with `status`, R100 -/
  | nack (status : Byte)
  deriving DecidableEq, Repr, Inhabited

/-- The command a frame is of; a response frame is of none (R92, R96). -/
def Instr.name? : Instr → Option CmdName
  | .getVersion => some .getVersion
  | .getHelp => some .getHelp
  | .getChipId => some .getChipId
  | .getReadProtectionStatus => some .getReadProtectionStatus
  | .goToAddress _ => some .goToAddress
  | .flashErase _ _ => some .flashErase
  | .memWrite _ _ => some .memWrite
  | .enableRwProtect _ _ => some .enableRwProtect
  | .memRead _ _ => some .memRead
  | .readSectorProtectionStatus => some .readSectorProtectionStatus
  | .otpRead _ _ => some .otpRead
  | .disableRwProtect => some .disableRwProtect
  | .ack _ _ => none
  | .nack _ => none

/-- A command frame, sent by the host (R96). -/
def Instr.isCommand (i : Instr) : Bool := i.name?.isSome

end Sys2Proof
end

