-- ==== Sys2Proof/Machine/Operands.lean ====
section
/-! DEFINITION. Operand forms: byte orders of payload fields, crc bytes and flash words (`20_memory.md` R74,
R75; `30_encoding.md` R94, R98), the range helpers (`20_memory.md` R71, R85) and the sets a request resolves
to (`44_flash_commands.md` R221). -/

namespace Sys2Proof.Machine

/-- `le16` of R16. -/
def le16 (b0 b1 : Byte) : Half := b1 ++ b0

/-- `le32` of R16. -/
def le32 (b0 b1 b2 b3 : Byte) : Word := (b3 ++ b2 : BitVec 16) ++ (b1 ++ b0 : BitVec 16)

/-- `field16` of R16: a u16 payload field from its two bytes in the order received (R98). -/
def field16 (o : FieldOrder) (b0 b1 : Byte) : Half :=
  match o with
  | .little => le16 b0 b1
  | .big => le16 b1 b0

/-- `field32` of R16 (R98). -/
def field32 (o : FieldOrder) (b0 b1 b2 b3 : Byte) : Word :=
  match o with
  | .little => le32 b0 b1 b2 b3
  | .big => le32 b3 b2 b1 b0

/-- Byte `i` of a u32, `v[8*i+7 : 8*i]`. -/
def byteOf32 (v : Word) (i : Nat) : Byte := v.extractLsb' (8 * i) 8

/-- Byte `i` of a u16. -/
def byteOf16 (v : Half) (i : Nat) : Byte := v.extractLsb' (8 * i) 8

/-- The two payload bytes of a u16 field in `FIELD_ORDER` (R98, R101). -/
def fieldBytes16 (o : FieldOrder) (v : Half) : List Byte :=
  match o with
  | .little => [byteOf16 v 0, byteOf16 v 1]
  | .big => [byteOf16 v 1, byteOf16 v 0]

/-- The four payload bytes of a u32 field in `FIELD_ORDER` (R98). -/
def fieldBytes32 (o : FieldOrder) (v : Word) : List Byte :=
  match o with
  | .little => [byteOf32 v 0, byteOf32 v 1, byteOf32 v 2, byteOf32 v 3]
  | .big => [byteOf32 v 3, byteOf32 v 2, byteOf32 v 1, byteOf32 v 0]

/-- The four `crc` bytes on the wire (R94, R74). -/
def crcBytes (o : WireOrder) (v : Word) : List Byte :=
  match o with
  | .lsbFirst => [byteOf32 v 0, byteOf32 v 1, byteOf32 v 2, byteOf32 v 3]
  | .msbFirst => [byteOf32 v 3, byteOf32 v 2, byteOf32 v 1, byteOf32 v 0]

/-- `RX_CRC` from the four bytes in the order received (R94). -/
def crcOfBytes (o : WireOrder) (b0 b1 b2 b3 : Byte) : Word :=
  match o with
  | .lsbFirst => le32 b0 b1 b2 b3
  | .msbFirst => le32 b3 b2 b1 b0

/-- The word handed to `FlashProgramWord`: `d[0] + 256*d[1] + ...` (R75 (b), R226). -/
def leValue : List Byte → Nat
  | [] => 0
  | b :: bs => b.toNat + 256 * leValue bs

/-- The `n` bytes of a flash word, lowest address first (R75 (b)). -/
def wordBytesOf : Nat → Nat → List Byte
  | 0, _ => []
  | n + 1, w => BitVec.ofNat 8 w :: wordBytesOf n (w / 256)

/-- `InFlash(a, n)` (R85). -/
def inFlash (c : Cfg) (a n : Nat) : Bool :=
  decide (1 ≤ n) && decide (c.flashBase ≤ a) && decide (a + n ≤ c.flashEnd)

/-- `InOtp(a, n)` (R85). -/
def inOtp (c : Cfg) (a n : Nat) : Bool :=
  decide (1 ≤ n) && decide (c.otpBase ≤ a) && decide (a + n ≤ c.otpEnd)

/-- `InApp(a, n)` (R85). -/
def inApp (c : Cfg) (a n : Nat) : Bool :=
  decide (1 ≤ n) && decide (c.appBase ≤ a) && decide (a + n ≤ c.appEnd)

/-- The base address of sector `k` (R11). -/
def sectorBase (c : Cfg) (k : Nat) : Nat := (c.sectors.getD k default).base

/-- The size of sector `k` (R11); a number that is no sector has no byte. -/
def sectorSize (c : Cfg) (k : Nat) : Nat := (c.sectors.getD k default).size

/-- The address `a` lies in sector `k`. -/
def inSector (c : Cfg) (k a : Nat) : Bool :=
  decide (sectorBase c k ≤ a) && decide (a < sectorBase c k + sectorSize c k)

/-- `SectorOf(a)` (R71). -/
def sectorOf (c : Cfg) (a : Nat) : Option Nat :=
  (List.range c.nsectors).find? fun k => inSector c k a

/-- The address is reserved: in the flash space, in a sector of `RESERVED` (R73). -/
def reservedAddr (c : Cfg) (a : Nat) : Bool :=
  decide (c.flashBase ≤ a) && decide (a < c.flashEnd) &&
    match sectorOf c a with
    | some k => c.reserved.contains k
    | none => false

/-- `TouchesReserved(a, n)` (R85). -/
def touchesReserved (c : Cfg) (a n : Nat) : Bool :=
  (List.range n).any fun i => reservedAddr c (a + i)

/-- `FLASH_ERASE`'s `sector_number` is the mass-erase sentinel (R107, R221). -/
def isMassErase (c : Cfg) (sector : Byte) : Bool := c.massErase == some sector

/-- `REQ` of R221, ascending: the sectors a FLASH_ERASE asks for. -/
def eraseRequest (c : Cfg) (sector count : Byte) : List Nat :=
  if isMassErase c sector then (List.range c.nsectors).filter fun k => !c.reserved.contains k
  else List.range' sector.toNat count.toNat

/-- The units of a program request, ascending: the address of each word and its data bytes (R226). -/
def programUnits (w : Nat) (a : Nat) (data : List Byte) : List (Nat × List Byte) :=
  (List.range (data.length / w)).map fun i => (a + i * w, (data.drop (i * w)).take w)

/-- The sectors a `sector_mask` selects among those the flash has (R235). -/
def maskSectors (c : Cfg) (mask : Half) : List Nat :=
  (List.range c.nsectors).filter fun k => mask.getLsbD k

/-- The mask has no bit at or above `NSECTORS` (R235). -/
def maskInRange (c : Cfg) (mask : Half) : Bool := decide (mask.toNat < 2 ^ c.nsectors)

end Sys2Proof.Machine
end

