-- ==== Sys2Proof/WellFormed.lean ====
section
/-! DEFINITION. Which instructions the encoding admits (`30_encoding.md` R97, R100, R101): the widths of the
operands are in `Instr`'s types; what is left is the size of the byte strings and the status of a response.
Operand values that a command refuses by an error (`R102` (e)) are well formed. -/

namespace Sys2Proof

/-- An instruction has an encoding under the configuration: MEM_WRITE carries at most 249 data bytes (R97),
ACK goes with `ST_OK` and at most 253 data bytes, NACK with one of the eleven error codes (R100, R101). -/
def Instr.wellFormed (c : Cfg) : Instr → Bool
  | .getVersion => true
  | .getHelp => true
  | .getChipId => true
  | .getReadProtectionStatus => true
  | .goToAddress _ => true
  | .flashErase _ _ => true
  | .memWrite _ data => decide (data.length ≤ 249)
  | .enableRwProtect _ _ => true
  | .memRead _ _ => true
  | .readSectorProtectionStatus => true
  | .otpRead _ _ => true
  | .disableRwProtect => true
  | .ack status data => status == c.stOk && decide (data.length ≤ 253)
  | .nack status => c.errorCodes.contains status

/-- `Instr.wellFormed` as a proposition. -/
abbrev Instr.WellFormed (c : Cfg) (i : Instr) : Prop := i.wellFormed c = true

end Sys2Proof
end

