-- ==== Sys2Proof/Decode.lean ====
section
/-! DEFINITION. The decoder of frames (`30_encoding.md`, `41_frame_codec.md`, `42_dispatch.md` section 2),
total on any bytes, and the encoder. A command frame and a response frame share one envelope and are told
apart by direction (R96): `decodeFrame` reads what the host sends, `decodeResponseFrame` what the device
sends. -/

namespace Sys2Proof
open Sys2Proof.Machine

/-- Why a byte string is no instruction (R102 and R145). -/
inductive DecodeError where
  /-- fewer bytes than the length byte announces: `read_frame` ends in Timeout (R145) -/
  | truncated
  /-- `length = 0` (R102 (a)) -/
  | zeroLength
  /-- the received crc differs from the computed one (R102 (b)) -/
  | checksumMismatch
  /-- the code is none of the twelve `CC_` values (R102 (c)), or no `RC_` value in a response -/
  | unsupportedCode
  /-- the length does not fit the command (R102 (d)) -/
  | sizeMismatch
  deriving DecidableEq, Repr

/-- The error of the taxonomy a refused byte string raises (R102, R145, R172 to R174). -/
def DecodeError.err : DecodeError → Err
  | .truncated => .timeout
  | .zeroLength => .malformedLength
  | .checksumMismatch => .checksumMismatch
  | .unsupportedCode => .unsupportedCommand
  | .sizeMismatch => .malformedLength

/-- `decode(c)` of R173: the one command whose `CC_` field is the code, or none. -/
def decodeCode (c : Cfg) (code : Byte) : Option CmdName :=
  CmdName.all.find? fun n => c.code n == code

/-- Byte `i` of a payload; a byte no rule has written reads 0 (log 7). -/
def payloadByte (p : List Byte) (i : Nat) : Byte := p.getD i 0

/-- `size_ok(CMD, L, P)` of R174, by the `L` column of R97. -/
def sizeOk (n : CmdName) (len : Byte) (p : List Byte) : Bool :=
  match n with
  | .getVersion => len == 1
  | .getHelp => len == 1
  | .getChipId => len == 1
  | .getReadProtectionStatus => len == 1
  | .goToAddress => len == 5
  | .flashErase => len == 3
  | .memWrite => decide (6 ≤ len.toNat) && len.toNat == 6 + (payloadByte p 4).toNat
  | .enableRwProtect => len == 4
  | .memRead => len == 6
  | .readSectorProtectionStatus => len == 1
  | .otpRead => len == 6
  | .disableRwProtect => len == 1

/-- The u32 field at offset 0 of a payload (R97, R98). -/
def addressField (c : Cfg) (p : List Byte) : Word :=
  field32 c.fieldOrder (payloadByte p 0) (payloadByte p 1) (payloadByte p 2) (payloadByte p 3)

/-- Argument extraction (R175) by the layouts of R97. -/
def extract (c : Cfg) (n : CmdName) (p : List Byte) : Instr :=
  match n with
  | .getVersion => .getVersion
  | .getHelp => .getHelp
  | .getChipId => .getChipId
  | .getReadProtectionStatus => .getReadProtectionStatus
  | .goToAddress => .goToAddress (addressField c p)
  | .flashErase => .flashErase (payloadByte p 0) (payloadByte p 1)
  | .memWrite =>
    .memWrite (addressField c p) ((List.range (payloadByte p 4).toNat).map fun i => payloadByte p (5 + i))
  | .enableRwProtect =>
    .enableRwProtect (field16 c.fieldOrder (payloadByte p 0) (payloadByte p 1)) (payloadByte p 2)
  | .memRead => .memRead (addressField c p) (payloadByte p 4)
  | .readSectorProtectionStatus => .readSectorProtectionStatus
  | .otpRead => .otpRead (addressField c p) (payloadByte p 4)
  | .disableRwProtect => .disableRwProtect

/-- Decoding of a valid frame's registers into a command (R173 to R175): the length byte and the body
`command_code ‖ payload`. -/
def decodeBody (c : Cfg) (len : Byte) (body : List Byte) : Except DecodeError Instr :=
  match decodeCode c (payloadByte body 0) with
  | none => .error .unsupportedCode
  | some n =>
    if sizeOk n len (body.drop 1) then .ok (extract c n (body.drop 1)) else .error .sizeMismatch

/-- A response frame's registers as an instruction (R100): code, status byte, data. -/
def decodeResponseBody (c : Cfg) (code : Byte) (payload : List Byte) : Except DecodeError Instr :=
  match payload with
  | [] => .error .sizeMismatch
  | status :: data =>
    if code == c.rcAck then .ok (.ack status data)
    else if code == c.rcNack then
      match data with
      | [] => .ok (.nack status)
      | _ :: _ => .error .sizeMismatch
    else .error .unsupportedCode

/-- The envelope of R90 over a whole byte string: the length byte, the body, and what follows the frame. -/
def readEnvelope (c : Cfg) (bytes : List Byte) : Except DecodeError (Byte × List Byte × List Byte) :=
  match bytes with
  | [] => .error .truncated
  | len :: rest =>
    if len == 0 then .error .zeroLength
    else if rest.length < len.toNat + 4 then .error .truncated
    else
      let body := rest.take len.toNat
      let w := rest.drop len.toNat
      if crcOfBytes c.crcWireOrder (w.getD 0 0) (w.getD 1 0) (w.getD 2 0) (w.getD 3 0) == crc c (len :: body) then
        .ok (len, body, w.drop 4)
      else .error .checksumMismatch

/-- The command a byte string begins with, and the bytes after its frame (R140, R173 to R175). -/
def decodeFrame (c : Cfg) (bytes : List Byte) : Except DecodeError (Instr × List Byte) :=
  match readEnvelope c bytes with
  | .error e => .error e
  | .ok (len, body, rest) =>
    match decodeBody c len body with
    | .error e => .error e
    | .ok i => .ok (i, rest)

/-- The response a byte string begins with, as the host reads it (R96, R100). -/
def decodeResponseFrame (c : Cfg) (bytes : List Byte) : Except DecodeError (Instr × List Byte) :=
  match readEnvelope c bytes with
  | .error e => .error e
  | .ok (_, body, rest) =>
    match decodeResponseBody c (payloadByte body 0) (body.drop 1) with
    | .error e => .error e
    | .ok i => .ok (i, rest)

/-! The encoder, from R90, R97 and R100. -/

/-- The bytes the CRC covers (R127): `length ‖ command_code ‖ payload`. DESIGN CHOICE (log 34): the length byte of a
payload above 254 bytes, which no frame has (R90), is taken modulo 256. -/
def covered (code : Byte) (payload : List Byte) : List Byte :=
  BitVec.ofNat 8 (1 + payload.length) :: code :: payload

/-- A whole frame (R90, R94). -/
def frame (c : Cfg) (code : Byte) (payload : List Byte) : List Byte :=
  covered code payload ++ crcBytes c.crcWireOrder (crc c (covered code payload))

/-- The payload of an instruction (R97, R100). -/
def payloadOf (c : Cfg) : Instr → List Byte
  | .getVersion => []
  | .getHelp => []
  | .getChipId => []
  | .getReadProtectionStatus => []
  | .goToAddress a => fieldBytes32 c.fieldOrder a
  | .flashErase s n => [s, n]
  | .memWrite a data => fieldBytes32 c.fieldOrder a ++ BitVec.ofNat 8 data.length :: data
  | .enableRwProtect m mode => fieldBytes16 c.fieldOrder m ++ [mode]
  | .memRead a n => fieldBytes32 c.fieldOrder a ++ [n]
  | .readSectorProtectionStatus => []
  | .otpRead a n => fieldBytes32 c.fieldOrder a ++ [n]
  | .disableRwProtect => []
  | .ack status data => status :: data
  | .nack status => [status]

/-- The code field of an instruction (R92, R99, R100). -/
def codeOf (c : Cfg) : Instr → Byte
  | .getVersion => c.ccGetVersion
  | .getHelp => c.ccGetHelp
  | .getChipId => c.ccGetChipId
  | .getReadProtectionStatus => c.ccGetReadProtectionStatus
  | .goToAddress _ => c.ccGoToAddress
  | .flashErase _ _ => c.ccFlashErase
  | .memWrite _ _ => c.ccMemWrite
  | .enableRwProtect _ _ => c.ccEnableRwProtect
  | .memRead _ _ => c.ccMemRead
  | .readSectorProtectionStatus => c.ccReadSectorProtectionStatus
  | .otpRead _ _ => c.ccOtpRead
  | .disableRwProtect => c.ccDisableRwProtect
  | .ack _ _ => c.rcAck
  | .nack _ => c.rcNack

/-- The frame of an instruction (R90, R105). -/
def encode (c : Cfg) (i : Instr) : List Byte := frame c (codeOf c i) (payloadOf c i)

/-! The numbering of `opcode_table.json` (R106; log 1). -/

/-- Byte `i` of the frame whose first 16-bit words are numbered as the table numbers them: word 0 is
`(length << 8) | command_code`, so the high byte of a word is sent first. -/
def tableByte (w i : Nat) : Byte :=
  BitVec.ofNat 8 (w >>> (16 * (i / 2) + if i % 2 == 0 then 8 else 0))

/-- The `length` of the shortest frame with the code, for the rows whose mask leaves the length byte to the
row's `fields`: MEM_WRITE with `byte_count = 0`, ACK without data, NACK (R106, R97, R100). -/
def shortestLength (c : Cfg) (code : Byte) : Byte :=
  if code == c.ccMemWrite then 6
  else if code == c.rcAck then 2
  else if code == c.rcNack then 2
  else 0

/-- The length byte of a table word: its own where the word gives one, else the shortest the row's `fields`
admit. -/
def tableLength (c : Cfg) (nbits w : Nat) : Byte :=
  let given := if nbits ≤ 8 then 0 else tableByte w 0
  if given == 0 then shortestLength c (tableByte w 1) else given

/-- The body `command_code ‖ payload` of a table word; bits above `nbits` are 0. -/
def tableBody (c : Cfg) (nbits w : Nat) : List Byte :=
  (List.range (tableLength c nbits w).toNat).map fun i => tableByte (w % 2 ^ nbits) (i + 1)

/-- The frame of a table word, closed by the CRC of its own bytes (the crc is no operand: R94). -/
def tableFrame (c : Cfg) (nbits w : Nat) : List Byte :=
  let head := tableLength c nbits w :: tableBody c nbits w
  head ++ crcBytes c.crcWireOrder (crc c head)

/-- The instruction the decoder reads from a table word (log 1): as a frame the host sends, and where its
code is no command, as a frame the device sends (R96). -/
def decodeTableWord (nbits w : Nat) : Option Instr :=
  match decodeFrame cfgRef (tableFrame cfgRef nbits w) with
  | .ok (i, _) => some i
  | .error .unsupportedCode =>
    match decodeResponseFrame cfgRef (tableFrame cfgRef nbits w) with
    | .ok (i, _) => some i
    | .error _ => none
  | .error _ => none

end Sys2Proof
end

