-- ==== Sys2Proof/Machine/Memory.lean ====
section
/-! DEFINITION. The content of the flash and OTP spaces (`20_memory.md` R69, R70): the bytes that differ from
the erased value, at strictly rising addresses. `d` is what an unlisted address reads as, `ERASED_BYTE`
(log 9). -/

namespace Sys2Proof.Machine

/-- The listed bytes. -/
abbrev Memory := List Host.Cell

namespace Memory

/-- The byte at an address. -/
def read (d : Byte) : Memory → Nat → Byte
  | [], _ => d
  | (k, v) :: m, a => if k = a then v else read d m a

/-- `MemRead(a, n)`: the bytes at `a .. a+n-1`, lowest address first (R67, R75 (d)). -/
def readBytes (d : Byte) (m : Memory) (a n : Nat) : List Byte :=
  (List.range n).map fun i => read d m (a + i)

/-- The cells of a byte string laid out from an address upward. -/
def cellsAt : Nat → List Byte → Memory
  | _, [] => []
  | a, b :: bs => (a, b) :: cellsAt (a + 1) bs

/-- The bytes of a range are replaced by the given ones. -/
def write (d : Byte) (m : Memory) (a : Nat) (bytes : List Byte) : Memory :=
  (m.filter fun c => decide (c.1 < a))
    ++ ((cellsAt a bytes).filter fun c => c.2 != d)
    ++ (m.filter fun c => decide (a + bytes.length ≤ c.1))

/-- Every byte of a range becomes the erased value. -/
def erase (m : Memory) (a n : Nat) : Memory :=
  m.filter fun c => decide (c.1 < a) || decide (a + n ≤ c.1)

/-- The cells of a list that lie in a range are stored, one after the other. -/
def patch (d : Byte) (a n : Nat) (m : Memory) : List Host.Cell → Memory
  | [] => m
  | c :: cs =>
    if a ≤ c.1 ∧ c.1 < a + n then patch d a n (write d m c.1 [c.2]) cs else patch d a n m cs

/-- Every byte of the range reads as the erased value (R224). -/
def erasedOn (d : Byte) (m : Memory) (a n : Nat) : Bool :=
  m.all fun c => decide (c.1 < a) || decide (a + n ≤ c.1) || read d m c.1 == d

/-- The canonical form: addresses strictly rising, no entry equal to what an unlisted address reads as. -/
abbrev wf (d : Byte) (m : Memory) : Prop :=
  m.Pairwise (fun x y => x.1 < y.1) ∧ ∀ c ∈ m, c.2 ≠ d

end Memory

end Sys2Proof.Machine
end

