-- ==== Sys2Proof/Machine/State.lean ====
section
/-! DEFINITION. The state: the configuration, BLCORE's registers (`10_state.md` R20 to R39), and the state of
the environment that the ports show (R41, `20_memory.md` R70); the reasons a step can stop; the state after
reset (R42, `70_reset_and_hazards.md` R331). -/

namespace Sys2Proof.Machine

/-- `PSTATE` (R32). -/
inductive PState where
  | awaitingFrame | validating | executing | responding | handedOff
  deriving DecidableEq, Repr, Inhabited

/-- `SEQ_STATE` (R33). -/
inductive SeqState where
  | idle | unlock | units | lock | verify
  deriving DecidableEq, Repr, Inhabited

/-- `FERR` (R34). -/
inductive FrameErr where
  | none | timeout | malformedLength | checksumMismatch
  deriving DecidableEq, Repr, Inhabited

/-- `RX_CRCB[0..3]` (R23). -/
structure CrcBytes where
  b0 : Byte
  b1 : Byte
  b2 : Byte
  b3 : Byte
  deriving DecidableEq, Repr, Inhabited

/-- BLCORE's registers (R20). `RX_CMD`, `RX_PAYLOAD` and `ARG_DATA` are aliases into `rxBody` (R31). -/
structure Regs where
  /-- `PSTATE`, R32 -/
  pstate : PState
  /-- `RX_LEN`, R21 -/
  rxLen : Byte
  /-- `RX_BODY`, R22: the elements written in this cycle (log 7) -/
  rxBody : List Byte
  /-- `RX_CRCB`, R23 -/
  rxCrcb : CrcBytes
  /-- `RX_CRC`, R23 -/
  rxCrc : Word
  /-- `RX_IDX`, R24 -/
  rxIdx : Nat
  /-- `CRC_ACC`, R25 -/
  crcAcc : Word
  /-- `CMD`, R26 -/
  cmd : Option CmdName
  /-- `ARG_SECTOR`, R27 -/
  argSector : Byte
  /-- `ARG_NSEC`, R27 -/
  argNsec : Byte
  /-- `ARG_ADDR`, R27 -/
  argAddr : Word
  /-- `ARG_COUNT`, R27 -/
  argCount : Byte
  /-- `ARG_MASK`, R27 -/
  argMask : Half
  /-- `ARG_MODE`, R27 -/
  argMode : Byte
  /-- `TX_LEN`, R28 -/
  txLen : Byte
  /-- `TX_CODE`, R28 -/
  txCode : Byte
  /-- `TX_PAYLOAD`, R28: the elements written (log 7) -/
  txPayload : List Byte
  /-- `TX_CRC`, R28 -/
  txCrc : Word
  /-- `HO_SP`, R29 -/
  hoSp : Word
  /-- `HO_ENTRY`, R29 -/
  hoEntry : Word
  /-- `SEQ_LIST`, R30: the sectors whose bit is set, ascending (log 27) -/
  seqList : List Nat
  /-- `SEQ_STATE`, R33 -/
  seqState : SeqState
  /-- `SEQ_IDX`, R33 -/
  seqIdx : Nat
  /-- `FERR`, R34 -/
  ferr : FrameErr
  /-- `CRC_OK`, R35 -/
  crcOk : Bool
  /-- `STATUS`, R36 -/
  status : Byte
  /-- `FLASH_OPEN`, R37 -/
  flashOpen : Bool
  /-- `LAST_CMD`, R39 -/
  lastCmd : Byte
  /-- `LAST_STATUS`, R39 -/
  lastStatus : Byte
  deriving DecidableEq, Repr, Inhabited

/-- The answer of a flash unit call or of a protection-write call (R64, R65, R68). -/
inductive PortAnswer where
  | ok | hardwareFault | timeout
  deriving DecidableEq, Repr, Inhabited

/-- The two failing answers. -/
inductive DriverFault where
  | hardwareFault | timeout
  deriving DecidableEq, Repr, Inhabited

/-- One item of what the transport will deliver: a byte, or a silence longer than the deadline (R41 (a),
R61; log 8). -/
inductive RxItem where
  | byte (b : Byte)
  | gap
  deriving DecidableEq, Repr, Inhabited

/-- How the driver answers one unit call (log 10, 12): as the reference environment (R70); with a failure,
the unit's content being a draw (R86, U1); or with `Ok`, the unit's bytes named in `cells` holding these
instead of the bytes asked for (R86, U18). -/
inductive UnitPlan where
  | asReference
  | fails (e : DriverFault)
  | okLeaving (cells : List Host.Cell)
  deriving DecidableEq, Repr, Inhabited

/-- What the status ports answer and what the driver enforces (R66, R70): `WPROT` as the ascending list of
its sectors, `RPROT` as address ranges (half open) and sectors. -/
structure DriverStatus where
  wprot : List Nat
  rprotRanges : List (Nat × Nat)
  rprotSectors : List Nat
  chipId : Half
  rdpStatus : Byte
  sectorProt : Half
  deriving DecidableEq, Repr, Inhabited

/-- How the driver answers one protection-write call (log 10, 13): as the reference environment; with a
failure, the driver's status being a draw; or with `Ok` and the given status. -/
inductive ProtPlan where
  | asReference
  | fails (e : DriverFault)
  | okLeaving (status : DriverStatus)
  deriving DecidableEq, Repr, Inhabited

/-- A port call with its answer, one event of the trace (R17, R60 to R68). Side-effect-free reads are
recorded by range (log 15). -/
inductive Event where
  | rx (n : Nat) (answer : Option (List Byte))
  | tx (bytes : List Byte)
  | flashUnlock
  | flashLock
  | flashEraseSector (sector : Nat) (answer : PortAnswer)
  | flashProgramWord (address word : Nat) (answer : PortAnswer)
  | isReadProtected (address count : Nat) (answer : Bool)
  | chipId (answer : Half)
  | rdpStatus (answer : Byte)
  | sectorProtStatus (answer : Half)
  | memRead (address count : Nat) (answer : List Byte)
  | verifyErased (address count : Nat) (answer : Bool)
  | flashEnableProtection (mask : Half) (mode : Byte) (answer : PortAnswer)
  | flashDisableProtection (answer : PortAnswer)
  | cpuDisableInterrupts
  | cpuRelocateVectorTable (address : Word)
  | cpuSetStackPointer (value : Word)
  | cpuJump (entry : Word)
  /-- the reset of R330, no port call of the block -/
  | deviceReset
  deriving DecidableEq, Repr, Inhabited

/-- The environment's state (R41, R70), with the model's own fields `unitPlan`, `protPlan`, `draws`,
`resetPending` and `trace` (log 10, 11, 15, 16). -/
structure Env where
  /-- what the transport will deliver, in order (log 8) -/
  rx : List RxItem
  /-- `FLASH[a]` of R70 -/
  mem : Memory
  /-- `LOCKED` of R70 -/
  locked : Bool
  /-- the status ports and the protections -/
  driver : DriverStatus
  /-- the driver's answers to the next unit calls; when it is empty, as the reference environment -/
  unitPlan : List UnitPlan
  /-- the driver's answers to the next protection-write calls -/
  protPlan : List ProtPlan
  /-- how many draws have been taken -/
  draws : Nat
  /-- a reset of the device is asked for -/
  resetPending : Bool
  /-- the port calls so far, oldest first -/
  trace : List Event
  deriving DecidableEq, Repr, Inhabited

/-- Why a step stops with a fault. None is an instruction's only outcome. -/
inductive Fault where
  /-- Raised by the step in `HandedOff`: the block makes no further step (R183, U14 `stuck`; log 17). Safe. -/
  | handedOff
  /-- Raised by the step when the position registers contradict `PSTATE` or each other, so that they name no
  next port call (R33; log 18). No rule writes such a state. Safe. -/
  | noPosition
  /-- Raised by `MemRead` outside the flash and OTP spaces, which no command asks for under a well-formed
  `CFG` (R67, R69; log 19). Safe. -/
  | unmappedRead
  deriving DecidableEq, Repr, Inhabited

/-- Why a step has no meaning for an instruction. -/
inductive Refusal where
  /-- Raised by `exec` for an instruction that has no meaning yet; no arm raises it. Safe. -/
  | notModelled (mnemonic : String)
  deriving DecidableEq, Repr

/-- The machine: `CFG` (R10, R38), the registers (R20) and the environment (R41). -/
structure State where
  cfg : Cfg
  regs : Regs
  env : Env
  deriving DecidableEq, Repr

/-- The outcome of a step. -/
abbrev Out := Host.Outcome State Fault Refusal

/-- The registers after reset (R42, R331). A register with "no value" there holds zero or the empty list
(log 5). -/
def Regs.reset (c : Cfg) : Regs where
  pstate := .awaitingFrame
  rxLen := 0
  rxBody := []
  rxCrcb := ⟨0, 0, 0, 0⟩
  rxCrc := 0
  rxIdx := 0
  crcAcc := 0
  cmd := none
  argSector := 0
  argNsec := 0
  argAddr := 0
  argCount := 0
  argMask := 0
  argMode := 0
  txLen := 0
  txCode := 0
  txPayload := []
  txCrc := 0
  hoSp := 0
  hoEntry := 0
  seqList := []
  seqState := .idle
  seqIdx := 0
  ferr := .none
  crcOk := false
  status := c.stOk
  flashOpen := false
  lastCmd := 0x00
  lastStatus := c.stOk

/-- The driver's status at the start: no sector protected, no address read-protected, the answers of the
start state of `95_test_vectors.md` (log 14). -/
def DriverStatus.initial : DriverStatus where
  wprot := []
  rprotRanges := []
  rprotSectors := []
  chipId := 0x0413
  rdpStatus := 0xAA
  sectorProt := 0x0000

/-- The environment at the start (R333 (3): the flash is locked; log 9, 14): a silent host, every byte
erased, the reference driver. -/
def Env.initial : Env where
  rx := []
  mem := []
  locked := true
  driver := DriverStatus.initial
  unitPlan := []
  protPlan := []
  draws := 0
  resetPending := false
  trace := []

/-- The machine right after reset: `CFG_REF`, the registers of R42, the environment of R333. -/
def State.reset : State where
  cfg := cfgRef
  regs := Regs.reset cfgRef
  env := Env.initial

end Sys2Proof.Machine

namespace Sys2Proof

/-- FREE VALUE (log 6): the registers after the hand-off, where every register but `PSTATE` has lost its
value (`45_handoff.md` R275, U14). The argument is `Env.draws`. -/
opaque Config.discardedRegs : Nat → Machine.Regs

/-- FREE VALUE (log 13): the driver's status after a protection write that did not answer `Ok` (the spec
says nothing of it). The argument is `Env.draws`. -/
opaque Config.drawStatus : Nat → Machine.DriverStatus

/-- FREE VALUE (log 31): which of the two failing answers a unit call gave, when the sequence is taken up after
its `FlashLock` with units left: the answer stands in no register (R223, R229). The argument is `Env.draws`. -/
opaque Config.drawFault : Nat → Machine.DriverFault

end Sys2Proof
end

