-- ==== Sys2Proof/Machine/Flags.lean ====
section
/-! DEFINITION. The flags of `10_state.md` section 4 as computed values: `FERR` as an error (R34), `CRC_OK` (R35,
`40_crc.md` R128), the error a port answer is reported as (`44_flash_commands.md` R229, R235), `STATUS` (R36). -/

namespace Sys2Proof.Machine

/-- The error `FERR` stands for (R34, R172). -/
def FrameErr.err : FrameErr → Option Err
  | .none => Option.none
  | .timeout => some .timeout
  | .malformedLength => some .malformedLength
  | .checksumMismatch => some .checksumMismatch

/-- The error an answer of the flash driver is reported as: `FlashTimeout` for the driver's `Timeout`
(R229). -/
def PortAnswer.err : PortAnswer → Option Err
  | .ok => none
  | .hardwareFault => some .hardwareFault
  | .timeout => some .flashTimeout

/-- A failing answer as a port answer. -/
def DriverFault.answer : DriverFault → PortAnswer
  | .hardwareFault => .hardwareFault
  | .timeout => .timeout

/-- The error a failing answer is reported as (R229). -/
def DriverFault.err : DriverFault → Err
  | .hardwareFault => .hardwareFault
  | .timeout => .flashTimeout

/-- `CRC_OK` of R128: the computed CRC of the received bytes equals `RX_CRC`. -/
def crcMatches (c : Cfg) (len : Byte) (body : List Byte) (received : Word) : Bool :=
  crc c (len :: body) == received

/-- The error codes a NACK frame may carry are those `Cfg.status` gives (R291); this is the `RC_` code that
goes with a status: `RC_ACK` with `ST_OK` and only with it (R100). -/
def responseCode (c : Cfg) (status : Byte) : Byte :=
  if status == c.stOk then c.rcAck else c.rcNack

/-- The plausibility test of the initial stack pointer (R272 (3)): not zero, within the RAM bounds, both
inclusive. -/
def plausibleSp (c : Cfg) (sp : Word) : Bool :=
  sp != 0 && decide (c.ramBase ≤ sp.toNat) && decide (sp.toNat ≤ c.ramEnd)

end Sys2Proof.Machine
end

