-- ==== Sys2Proof/Machine/Ports.lean ====
section
/-! DEFINITION. The ports (`20_memory.md` R60 to R68), each a call with its answer, answered by the reference
environment (R70) unless the environment's plan says otherwise (R86, U18; log 10). Every call is appended to
the trace (R17). -/

namespace Sys2Proof.Machine

/-- The call is appended to the trace. -/
def State.log (s : State) (e : Event) : State :=
  { s with env := { s.env with trace := s.env.trace ++ [e] } }

/-- The flash content changes. -/
def State.setMem (s : State) (m : Memory) : State :=
  { s with env := { s.env with mem := m } }

/-- What the driver enforces and answers changes. -/
def State.setDriver (s : State) (d : DriverStatus) : State :=
  { s with env := { s.env with driver := d } }

/-- A draw is taken. -/
def State.countDraw (s : State) : State :=
  { s with env := { s.env with draws := s.env.draws + 1 } }

/-- The byte at an address of the flash or OTP space (R70). -/
def State.readByte (s : State) (a : Nat) : Byte :=
  Memory.read s.cfg.erasedByte s.env.mem a

/-- The bytes the transport hands over for `Rx(n)`, or none when a silence comes first; the bytes of a
short answer are lost (R61). -/
def takeBytes : Nat → List RxItem → Option (List Byte) × List RxItem
  | 0, q => (some [], q)
  | _ + 1, [] => (none, [])
  | _ + 1, .gap :: q => (none, q)
  | n + 1, .byte b :: q =>
    match takeBytes n q with
    | (some bs, q') => (some (b :: bs), q')
    | (none, q') => (none, q')

/-- `Rx(n)` (R61). An empty queue is a silent host: the answer is `Timeout` (log 8). -/
def State.portRx (s : State) (n : Nat) : Option (List Byte) × State :=
  let r := takeBytes n s.env.rx
  (r.1, State.log { s with env := { s.env with rx := r.2 } } (.rx n r.1))

/-- `Tx(B)` (R62). -/
def State.portTx (s : State) (bytes : List Byte) : State := s.log (.tx bytes)

/-- `FlashUnlock()` (R63, R70). -/
def State.portFlashUnlock (s : State) : State :=
  State.log { s with env := { s.env with locked := false } } .flashUnlock

/-- `FlashLock()` (R63, R70). -/
def State.portFlashLock (s : State) : State :=
  State.log { s with env := { s.env with locked := true } } .flashLock

/-- How the driver answers the next unit call. -/
def State.nextUnitPlan (s : State) : UnitPlan × State :=
  match s.env.unitPlan with
  | [] => (.asReference, s)
  | p :: ps => (p, { s with env := { s.env with unitPlan := ps } })

/-- How the driver answers the next protection-write call. -/
def State.nextProtPlan (s : State) : ProtPlan × State :=
  match s.env.protPlan with
  | [] => (.asReference, s)
  | p :: ps => (p, { s with env := { s.env with protPlan := ps } })

/-- The bytes drawn for the `n` addresses from `a` (U1, U2; log 11). -/
def drawnBytes (k a n : Nat) : List Byte :=
  (List.range n).map fun i => Config.drawByte k (a + i)

/-- The content of the unit `a .. a+n-1` is a draw (R70, R86). -/
def State.drawUnit (s : State) (a n : Nat) : State :=
  (s.setMem (Memory.write s.cfg.erasedByte s.env.mem a (drawnBytes s.env.draws a n))).countDraw

/-- The reference environment's `FlashEraseSector(k)` (R70). -/
def State.refErase (s : State) (k : Nat) : PortAnswer × State :=
  if s.env.locked || s.env.driver.wprot.contains k then (.hardwareFault, s)
  else (.ok, s.setMem (Memory.erase s.env.mem (sectorBase s.cfg k) (sectorSize s.cfg k)))

/-- `FlashEraseSector(k)` (R64, R70, R86). -/
def State.portFlashEraseSector (s : State) (k : Nat) : PortAnswer × State :=
  let p := s.nextUnitPlan
  let r : PortAnswer × State :=
    match p.1 with
    | .asReference => p.2.refErase k
    | .fails e => (e.answer, p.2.drawUnit (sectorBase s.cfg k) (sectorSize s.cfg k))
    | .okLeaving cells =>
      (.ok, p.2.setMem (Memory.patch s.cfg.erasedByte (sectorBase s.cfg k) (sectorSize s.cfg k)
        (Memory.erase s.env.mem (sectorBase s.cfg k) (sectorSize s.cfg k)) cells))
  (r.1, r.2.log (.flashEraseSector k r.1))

/-- The sector of an address is write-protected in the environment (R70). -/
def State.writeProtected (s : State) (a : Nat) : Bool :=
  match sectorOf s.cfg a with
  | some k => s.env.driver.wprot.contains k
  | none => false

/-- The reference environment's `FlashProgramWord(a, w)` (R70): a word over bytes that are not erased
leaves a draw (U2). -/
def State.refProgram (s : State) (a w : Nat) : PortAnswer × State :=
  if s.env.locked || s.writeProtected a then (.hardwareFault, s)
  else if Memory.erasedOn s.cfg.erasedByte s.env.mem a s.cfg.wordBytes then
    (.ok, s.setMem (Memory.write s.cfg.erasedByte s.env.mem a (wordBytesOf s.cfg.wordBytes w)))
  else (.ok, s.drawUnit a s.cfg.wordBytes)

/-- `FlashProgramWord(a, w)` (R65, R70, R75 (b), R86). -/
def State.portFlashProgramWord (s : State) (a w : Nat) : PortAnswer × State :=
  let p := s.nextUnitPlan
  let r : PortAnswer × State :=
    match p.1 with
    | .asReference => p.2.refProgram a w
    | .fails e => (e.answer, p.2.drawUnit a s.cfg.wordBytes)
    | .okLeaving cells =>
      (.ok, p.2.setMem (Memory.patch s.cfg.erasedByte a s.cfg.wordBytes
        (Memory.write s.cfg.erasedByte s.env.mem a (wordBytesOf s.cfg.wordBytes w)) cells))
  (r.1, r.2.log (.flashProgramWord a w r.1))

/-- `RPROT(a)` of R70: the address is marked read-protected. -/
def State.readProtected (s : State) (a : Nat) : Bool :=
  s.env.driver.rprotRanges.any (fun r => decide (r.1 ≤ a) && decide (a < r.2)) ||
    match sectorOf s.cfg a with
    | some k => s.env.driver.rprotSectors.contains k
    | none => false

/-- `AnyReadProtected(a, n)` (R85). -/
def State.anyReadProtected (s : State) (a n : Nat) : Bool :=
  (List.range n).any fun i => s.readProtected (a + i)

/-- The calls `IsReadProtected` over a range, recorded as one event (R66, R79 (b); log 15). -/
def State.portIsReadProtected (s : State) (a n : Nat) : Bool × State :=
  (s.anyReadProtected a n, s.log (.isReadProtected a n (s.anyReadProtected a n)))

/-- `ChipId()` (R66). -/
def State.portChipId (s : State) : Half × State :=
  (s.env.driver.chipId, s.log (.chipId s.env.driver.chipId))

/-- `RdpStatus()` (R66). -/
def State.portRdpStatus (s : State) : Byte × State :=
  (s.env.driver.rdpStatus, s.log (.rdpStatus s.env.driver.rdpStatus))

/-- `SectorProtStatus()` (R66). -/
def State.portSectorProtStatus (s : State) : Half × State :=
  (s.env.driver.sectorProt, s.log (.sectorProtStatus s.env.driver.sectorProt))

/-- The range lies in the flash space or in the OTP space, the only ranges `MemRead` answers for (R67, R69). -/
def mapped (c : Cfg) (a n : Nat) : Bool := inFlash c a n || inOtp c a n

/-- `MemRead(a, n)` (R67); none outside the flash and OTP spaces (log 19). -/
def State.portMemRead (s : State) (a n : Nat) : Option (List Byte × State) :=
  if mapped s.cfg a n then
    let bytes := Memory.readBytes s.cfg.erasedByte s.env.mem a n
    some (bytes, s.log (.memRead a n bytes))
  else none

/-- The verification reads over one erased sector, as the predicate they compute (R224, D19; log 15). -/
def State.portVerifyErased (s : State) (a n : Nat) : Bool × State :=
  let ok := Memory.erasedOn s.cfg.erasedByte s.env.mem a n
  (ok, s.log (.verifyErased a n ok))

/-- The driver's status after the reference environment's `FlashEnableProtection(mask, mode)`: the selected
sectors become write-protected, with `mode` 2 also read-protected (R235; log 13). -/
def DriverStatus.enable (c : Cfg) (d : DriverStatus) (mask : Half) (mode : Byte) : DriverStatus :=
  { d with
    wprot := (List.range c.nsectors).filter fun k => d.wprot.contains k || mask.getLsbD k
    rprotSectors :=
      if mode == 2 then (List.range c.nsectors).filter fun k => d.rprotSectors.contains k || mask.getLsbD k
      else d.rprotSectors
    sectorProt := d.sectorProt ||| mask }

/-- The driver's status after the reference environment's `FlashDisableProtection()`: the sector protection
of every sector is removed (R236; log 13). -/
def DriverStatus.disable (d : DriverStatus) : DriverStatus :=
  { d with wprot := [], rprotSectors := [], sectorProt := 0 }

/-- A protection-write call: the reference environment answers `Ok` and leaves `new`; a failure leaves a
draw (log 13). -/
def State.protectionCall (s : State) (new : DriverStatus) : PortAnswer × State :=
  let p := s.nextProtPlan
  match p.1 with
  | .asReference => (.ok, p.2.setDriver new)
  | .fails e => (e.answer, (p.2.setDriver (Config.drawStatus s.env.draws)).countDraw)
  | .okLeaving d => (.ok, p.2.setDriver d)

/-- `FlashEnableProtection(mask, mode)` (R68, R235). -/
def State.portFlashEnableProtection (s : State) (mask : Half) (mode : Byte) : PortAnswer × State :=
  let r := s.protectionCall (s.env.driver.enable s.cfg mask mode)
  (r.1, r.2.log (.flashEnableProtection mask mode r.1))

/-- `FlashDisableProtection()` (R68, R236). -/
def State.portFlashDisableProtection (s : State) : PortAnswer × State :=
  let r := s.protectionCall s.env.driver.disable
  (r.1, r.2.log (.flashDisableProtection r.1))

end Sys2Proof.Machine
end

