-- ==== Sys2Proof/Machine/Codec.lean ====
section
/-! DEFINITION. The frame parser (`41_frame_codec.md`): `read_frame` (R140 to R147), `write_frame` (R148) and
`CrcCheck` (`40_crc.md` R128) on the registers. -/

namespace Sys2Proof.Machine

/-- `FERR <- e`. -/
def State.setFerr (s : State) (e : FrameErr) : State := { s with regs := { s.regs with ferr := e } }

/-- `PSTATE <- p`. -/
def State.setPstate (s : State) (p : PState) : State := { s with regs := { s.regs with pstate := p } }

/-- The length byte is in (R141). -/
def State.storeLength (s : State) (len : Byte) : State :=
  { s with regs := { s.regs with rxLen := len, rxIdx := 1 } }

/-- The body is in (R143). -/
def State.storeBody (s : State) (body : List Byte) : State :=
  { s with regs := { s.regs with rxBody := body, rxIdx := 1 + s.regs.rxLen.toNat } }

/-- The crc bytes are in (R144). -/
def State.storeCrc (s : State) (b0 b1 b2 b3 : Byte) : State :=
  { s with regs := { s.regs with
      rxCrcb := ⟨b0, b1, b2, b3⟩
      rxCrc := crcOfBytes s.cfg.crcWireOrder b0 b1 b2 b3
      rxIdx := 5 + s.regs.rxLen.toNat } }

/-- `CrcCheck()` (R128): `CRC_OK` and `CRC_ACC` from the received frame registers. DESIGN CHOICE (log 33): an
`RX_BODY` list that is not `RX_LEN` long, which no run has here, is covered as it stands. -/
def State.crcCheck (s : State) : State :=
  { s with regs := { s.regs with
      crcAcc := crcRemainder s.cfg (s.regs.rxLen :: s.regs.rxBody)
      crcOk := crcMatches s.cfg s.regs.rxLen s.regs.rxBody s.regs.rxCrc } }

/-- `FERR` and `RX_IDX` at the start of `read_frame` (R140). -/
def State.startFrame (s : State) : State :=
  { s with regs := { s.regs with ferr := .none, rxIdx := 0 } }

/-- The comparison (R146), after the crc bytes. -/
def State.judgeCrc (s : State) : State :=
  let s1 := s.crcCheck
  if s1.regs.crcOk then s1 else s1.setFerr .checksumMismatch

/-- The crc read (R144) and what follows it. -/
def State.readCrc (s : State) : State :=
  let r := s.portRx 4
  match r.1 with
  | none => r.2.setFerr .timeout
  | some b => (r.2.storeCrc (b.getD 0 0) (b.getD 1 0) (b.getD 2 0) (b.getD 3 0)).judgeCrc

/-- The body read (R143) and what follows it. -/
def State.readBody (s : State) : State :=
  let r := s.portRx s.regs.rxLen.toNat
  match r.1 with
  | none => r.2.setFerr .timeout
  | some b => (r.2.storeBody b).readCrc

/-- What follows the length byte: the refusal of a zero length (R142), or the body read. -/
def State.afterLength (s : State) : State :=
  if s.regs.rxLen = 0 then s.setFerr .malformedLength else s.readBody

/-- `read_frame` (R140): the result is in `FERR`, the frame in the `RX_` registers. -/
def State.readFrame (s : State) : State :=
  let r := s.startFrame.portRx 1
  match r.1 with
  | none => r.2.setFerr .timeout
  | some b => (r.2.storeLength (b.getD 0 0)).afterLength

/-- `read_frame` from the position in `RX_IDX` on (R24, R33): from its start; after the length byte, the body
or the crc; or, with `FERR` set, at its end. None when `RX_IDX` is at none of these. DESIGN CHOICE (log 33): the position after
the crc is taken up with `RX_LEN = 0` too, where no run is (R142). -/
def State.continueFrame (s : State) : Option State :=
  if s.regs.rxIdx = 0 then some s.readFrame
  else if s.regs.ferr ≠ .none then some s
  else if s.regs.rxIdx = 1 then some s.afterLength
  else if s.regs.rxIdx = 1 + s.regs.rxLen.toNat then some s.readCrc
  else if s.regs.rxIdx = 5 + s.regs.rxLen.toNat then some s.judgeCrc
  else none

/-- The `TX_` registers of the frame `write_frame(code, payload)` builds (R148). DESIGN CHOICE (log 34): a payload
above R148's 254 bytes, which no run has, gives a length byte modulo 256. -/
def State.buildFrame (s : State) (code : Byte) (payload : List Byte) : State :=
  { s with regs := { s.regs with
      txLen := BitVec.ofNat 8 (1 + payload.length)
      txCode := code
      txPayload := payload
      crcAcc := crcRemainder s.cfg (covered code payload)
      txCrc := crc s.cfg (covered code payload) } }

/-- `write_frame(code, payload)` (R148): the registers, then one `Tx` of the whole frame. -/
def State.writeFrame (s : State) (code : Byte) (payload : List Byte) : State :=
  (s.buildFrame code payload).portTx (frame s.cfg code payload)

end Sys2Proof.Machine
end

