-- ==== Sys2Proof/Machine/Ops.lean ====
section
/-! DEFINITION. The shared operations of the protocol state machine (`42_dispatch.md`): the start of a cycle
(`10_state.md` R43), TAKING AN ERROR (`60_exceptions.md` R304: `State.raise`) and the return from one
(R307: `State.bookkeep` and `State.newCycle`, which the response's own execution runs), the successful end of
a command (R178), the hand-off (`45_handoff.md` R274), reset (R330, R332), and the shape every command has
(R171, R176, R177: `runCommand`). -/

namespace Sys2Proof.Machine

/-- The registers at the start of a cycle: those of reset, but for `LAST_CMD` and `LAST_STATUS` (R43). -/
def Regs.startCycle (c : Cfg) (r : Regs) : Regs :=
  { Regs.reset c with lastCmd := r.lastCmd, lastStatus := r.lastStatus }

/-- `PSTATE <- AwaitingFrame` with the per-cycle state cleared (R43, R171): trap return, R307. -/
def State.newCycle (s : State) : State := { s with regs := s.regs.startCycle s.cfg }

/-- `FLASH_OPEN <- 1` with `FlashUnlock()` (R37, R223). -/
def State.openFlash (s : State) : State :=
  let s1 := s.portFlashUnlock
  { s1 with regs := { s1.regs with flashOpen := true } }

/-- `FlashLock()`, then `FLASH_OPEN <- 0` (R37, R223). -/
def State.closeFlash (s : State) : State :=
  let s1 := s.portFlashLock
  { s1 with regs := { s1.regs with flashOpen := false } }

/-- `STATUS`, and the response frame's code and payload in the `TX_` registers; `PSTATE <- Responding`
(R100, R178; log 21). -/
def State.respond (s : State) (status : Byte) (data : List Byte) : State :=
  { s with regs := { s.regs with
      pstate := .responding
      status := status
      txLen := BitVec.ofNat 8 (2 + data.length)
      txCode := responseCode s.cfg status
      txPayload := status :: data } }

/-- The lock that is owed when `FLASH_OPEN = 1` (R304 (1)). -/
def State.payLock (s : State) : State := if s.regs.flashOpen then s.closeFlash else s

/-- TAKING AN ERROR (R304): the owed lock, `STATUS <- ST_E`, `PSTATE <- Responding` with the failure frame
(steps 1 to 3; the frame is sent and the cycle ends when the NACK runs, steps 4 to 6). `Timeout` has no
status and no frame: the next cycle starts (R172, R292). -/
def State.raise (s : State) (e : Err) : State :=
  match s.cfg.status e with
  | none => (s.setFerr .timeout).newCycle
  | some status => s.payLock.respond status []

/-- The successful end of a command (R178): `STATUS <- ST_OK`, the data after the status byte. -/
def State.succeed (s : State) (data : List Byte) : State := s.respond s.cfg.stOk data

/-- `LAST_STATUS` and `LAST_CMD` after the `Tx` (R181). -/
def State.bookkeep (s : State) : State :=
  { s with regs := { s.regs with
      lastStatus := s.regs.status
      lastCmd := if s.regs.ferr = .none then payloadByte s.regs.rxBody 0 else s.regs.lastCmd } }

/-- The four CPU calls of the hand-off, in order (R274). -/
def State.cpuCalls (s : State) : State :=
  (((s.log .cpuDisableInterrupts).log (.cpuRelocateVectorTable s.regs.argAddr)).log
    (.cpuSetStackPointer s.regs.hoSp)).log (.cpuJump s.regs.hoEntry)

/-- `hand_off()` (R274): the four CPU calls, then `PSTATE = HandedOff` and every other register without a
value (R275; log 6). -/
def State.handOff (s : State) : State :=
  let s1 := s.cpuCalls
  State.countDraw { s1 with regs := { Config.discardedRegs s1.env.draws with pstate := .handedOff } }

/-- The reset of the device (R330, R331): the registers of R42; what the environment holds stays (R332). -/
def State.deviceReset (s : State) : State :=
  let s1 := s.log .deviceReset
  { s1 with
    regs := Regs.reset s.cfg
    env := { s1.env with resetPending := false } }

/-- What a check or an execution ends in (R176, R177): the command's data, an error of the taxonomy, or a
read the machine has no answer for (log 19). -/
inductive Ran where
  | done (data : List Byte) (s : State)
  | raised (e : Err) (s : State)
  | stopped (f : Fault)

/-- The end of a command's execution (T11 of R184): a response is built either way. -/
def Ran.finish : Ran → Out
  | .done data s => .next (s.succeed data)
  | .raised e s => .next (s.raise e)
  | .stopped f => .fault f

/-- `CMD` and the argument registers of a command (R173, R175). -/
def State.accept (s : State) (n : CmdName) (args : Regs → Regs) : State :=
  { s with regs := { args s.regs with pstate := .validating, cmd := some n } }

/-- `PSTATE <- Executing` (T10 of R184). -/
def State.enterExecuting (s : State) : State := s.setPstate .executing

/-- A command from `Validating` to `Responding` (R171, T9 to T11 of R184): its arguments, its precondition
check, then its execution, which begins only when the check passed (R180). -/
def runCommand (n : CmdName) (args : Regs → Regs) (check run : State → Ran) (s : State) : Out :=
  match check (s.accept n args) with
  | .done _ s1 => (run s1.enterExecuting).finish
  | .raised e s1 => .next (s1.raise e)
  | .stopped f => .fault f

/-- The commands with no precondition (R176). -/
def noCheck (s : State) : Ran := .done [] s

/-- The end of a call whose answer is `Ok` or a failure, with no data (R235, R236). -/
def ofAnswer (r : PortAnswer × State) : Ran :=
  match r.1.err with
  | none => .done [] r.2
  | some e => .raised e r.2

end Sys2Proof.Machine
end

