-- ==== Sys2Proof/Machine/FlashEngine.lean ====
section
/-! DEFINITION. The flash erase/program sequence arbiter (`44_flash_commands.md` R220 to R230): the erase and
program sequences, which are the only place where `FlashUnlock`, `FlashEraseSector`, `FlashProgramWord` and
`FlashLock` are called, and their verification. -/

namespace Sys2Proof.Machine

/-- `SEQ_STATE <- q`. -/
def State.setSeq (s : State) (q : SeqState) : State := { s with regs := { s.regs with seqState := q } }

/-- `SEQ_IDX <- SEQ_IDX + 1` (R223, R226). -/
def State.nextUnit (s : State) : State := { s with regs := { s.regs with seqIdx := s.regs.seqIdx + 1 } }

/-- `SEQ_STATE <- Units; SEQ_IDX <- 0` (R223, R226). -/
def State.startUnits (s : State) : State :=
  { s with regs := { s.regs with seqState := .units, seqIdx := 0 } }

/-- `SEQ_STATE <- Unlock; FlashUnlock(); FLASH_OPEN <- 1; SEQ_STATE <- Units; SEQ_IDX <- 0` (R223, R226). -/
def State.beginUnits (s : State) : State := (s.setSeq .unlock).openFlash.startUnits

/-- `SEQ_STATE <- Lock; FlashLock(); FLASH_OPEN <- 0` (R223, R226, R229). -/
def State.endUnits (s : State) : State := (s.setSeq .lock).closeFlash

/-- The unit calls of an erase, in the order of the list, up to the first that does not answer `Ok`
(R223, R229). -/
def eraseUnits : List Nat → State → Option Err × State
  | [], s => (none, s)
  | k :: ks, s =>
    let r := s.portFlashEraseSector k
    match r.1.err with
    | none => eraseUnits ks r.2.nextUnit
    | some e => (some e, r.2)

/-- The unit calls of a program request (R226, R229). -/
def programWords : List (Nat × List Byte) → State → Option Err × State
  | [], s => (none, s)
  | u :: us, s =>
    let r := s.portFlashProgramWord u.1 (leValue u.2)
    match r.1.err with
    | none => programWords us r.2.nextUnit
    | some e => (some e, r.2)

/-- The erase verification (R224): every byte of every sector of the list reads as the erased value. -/
def verifySectors : List Nat → State → Bool × State
  | [], s => (true, s)
  | k :: ks, s =>
    let r := s.portVerifyErased (sectorBase s.cfg k) (sectorSize s.cfg k)
    let v := verifySectors ks r.2
    (r.1 && v.1, v.2)

/-- What follows the unit calls: the owed lock, then the verification or the error of the call that failed
(R223, R226, R229). -/
def State.afterUnits (r : Option Err × State) (verify : State → Ran) : Ran :=
  let s1 := r.2.endUnits
  match r.1 with
  | some e => .raised e s1
  | none => verify (s1.setSeq .verify)

/-- `erase_verify()` (R224). -/
def State.eraseVerify (s : State) : Ran :=
  let v := verifySectors s.regs.seqList s
  if v.1 then .done [] v.2 else .raised .verifyFailed v.2

/-- An erase from the unit `SEQ_IDX` of `SEQ_LIST` on (R33, R223). -/
def State.eraseFrom (s : State) : Ran :=
  State.afterUnits (eraseUnits (s.regs.seqList.drop s.regs.seqIdx) s) State.eraseVerify

/-- `erase_sequence()` (R223) over `SEQ_LIST`. -/
def State.eraseSequence (s : State) : Ran := s.beginUnits.eraseFrom

/-- `program_verify()` (R227) for the data bytes at an address. -/
def State.programVerify (a : Nat) (data : List Byte) (s : State) : Ran :=
  match s.portMemRead a data.length with
  | none => .stopped .unmappedRead
  | some (bytes, s1) => if bytes = data then .done [] s1 else .raised .verifyFailed s1

/-- A program request from its unit `SEQ_IDX` on (R33, R226). -/
def State.programFrom (a : Nat) (data : List Byte) (s : State) : Ran :=
  State.afterUnits (programWords ((programUnits s.cfg.wordBytes a data).drop s.regs.seqIdx) s)
    (State.programVerify a data)

/-- `program_sequence()` (R226, R227) for the data bytes at an address. -/
def State.programSequence (s : State) (a : Nat) (data : List Byte) : Ran := s.beginUnits.programFrom a data

/-- What follows the `FlashLock` of a sequence of `n` units that is taken up there: its verification when no
unit is left, else the error of the call that failed, a free value (R223, R226, R229; log 31). -/
def State.afterLock (n : Nat) (verify : State → Ran) (s : State) : Ran :=
  if s.regs.seqIdx < n then .raised (Config.drawFault s.env.draws).err s.countDraw
  else verify (s.setSeq .verify)

/-- A sequence of `n` units from the position in `SEQ_STATE`, `SEQ_IDX` and `FLASH_OPEN` on (R33, R37): `units`
goes on with the unit `SEQ_IDX`. -/
def State.continueSequence (n : Nat) (units verify : State → Ran) (s : State) : Ran :=
  match s.regs.seqState, s.regs.flashOpen with
  | .idle, _ => units s.beginUnits
  | .unlock, false => units s.beginUnits
  | .unlock, true => units s.startUnits
  | .units, true => units s
  | .units, false => .stopped .noPosition
  | .lock, true => s.endUnits.afterLock n verify
  | .lock, false => s.afterLock n verify
  | .verify, false => verify s
  | .verify, true => .stopped .noPosition

/-- `erase_sequence()` from its position on. -/
def State.continueErase (s : State) : Ran :=
  s.continueSequence s.regs.seqList.length State.eraseFrom State.eraseVerify

/-- `program_sequence()` from its position on. -/
def State.continueProgram (a : Nat) (data : List Byte) (s : State) : Ran :=
  s.continueSequence (data.length / s.cfg.wordBytes) (State.programFrom a data) (State.programVerify a data)

end Sys2Proof.Machine
end

