-- ==== Sys2Proof/Machine/FlashCommands.lean ====
section
/-! DEFINITION. The flash commands (`44_flash_commands.md` R231 to R237): FLASH_ERASE with mass erase,
MEM_WRITE, MEM_READ, OTP_READ, ENABLE_RW_PROTECT, DISABLE_RW_PROTECT. -/

namespace Sys2Proof.Machine

/-- The erase checks (R222), then `SEQ_LIST <- REQ`. -/
def checkFlashErase (sector count : Byte) (s : State) : Ran :=
  let mass := isMassErase s.cfg sector
  let req := eraseRequest s.cfg sector count
  if !mass && req.any (fun k => s.cfg.reserved.contains k) then .raised .addressProtected s
  else if !mass && (count == 0 || decide (s.cfg.nsectors < sector.toNat + count.toNat)) then
    .raised .outOfRange s
  else .done [] { s with regs := { s.regs with seqList := req } }

/-- `execute` of FLASH_ERASE (R231). -/
def runFlashErase (s : State) : Ran := s.eraseSequence

/-- FLASH_ERASE (R231, R237). -/
def execFlashErase (sector count : Byte) (s : State) : Out :=
  runCommand .flashErase (fun r => { r with argSector := sector, argNsec := count })
    (checkFlashErase sector count) runFlashErase s

/-- The program checks (R225): alignment, then protection, then range. -/
def checkMemWrite (a n : Nat) (s : State) : Ran :=
  if a % s.cfg.wordBytes != 0 || n % s.cfg.wordBytes != 0 then .raised .alignmentError s
  else if touchesReserved s.cfg a n then .raised .addressProtected s
  else if !inFlash s.cfg a n then .raised .outOfRange s
  else .done [] s

/-- `execute` of MEM_WRITE (R232). -/
def runMemWrite (address : Word) (data : List Byte) (s : State) : Ran :=
  s.programSequence address.toNat data

/-- MEM_WRITE (R232). -/
def execMemWrite (address : Word) (data : List Byte) (s : State) : Out :=
  runCommand .memWrite (fun r => { r with argAddr := address, argCount := BitVec.ofNat 8 data.length })
    (checkMemWrite address.toNat data.length) (runMemWrite address data) s

/-- The range and read-protection checks of a read (R228, R234), given whether the range is in its space. -/
def checkRead (inSpace : Bool) (a n : Nat) (s : State) : Ran :=
  if n == 0 || decide (253 < n) || !inSpace then .raised .outOfRange s
  else
    let r := s.portIsReadProtected a n
    if r.1 then .raised .readProtected r.2 else .done [] r.2

/-- `execute` of a read (R228, R233, R234). -/
def runRead (address : Word) (count : Byte) (s : State) : Ran :=
  match s.portMemRead address.toNat count.toNat with
  | none => .stopped .unmappedRead
  | some (bytes, s1) => .done bytes s1

/-- The checks of MEM_READ: the flash space (R228, R233). -/
def checkMemRead (address : Word) (count : Byte) (s : State) : Ran :=
  checkRead (inFlash s.cfg address.toNat count.toNat) address.toNat count.toNat s

/-- MEM_READ (R233). -/
def execMemRead (address : Word) (count : Byte) (s : State) : Out :=
  runCommand .memRead (fun r => { r with argAddr := address, argCount := count })
    (checkMemRead address count) (runRead address count) s

/-- The checks of OTP_READ: the OTP space (R234). -/
def checkOtpRead (address : Word) (count : Byte) (s : State) : Ran :=
  checkRead (inOtp s.cfg address.toNat count.toNat) address.toNat count.toNat s

/-- OTP_READ (R234). -/
def execOtpRead (address : Word) (count : Byte) (s : State) : Out :=
  runCommand .otpRead (fun r => { r with argAddr := address, argCount := count })
    (checkOtpRead address count) (runRead address count) s

/-- The checks of ENABLE_RW_PROTECT (R235): a mask that selects a sector and none the flash has not, a mode
of 1 or 2. -/
def checkEnableRwProtect (mask : Half) (mode : Byte) (s : State) : Ran :=
  if mask == 0 || !maskInRange s.cfg mask || !(mode == 1 || mode == 2) then .raised .outOfRange s
  else .done [] s

/-- `execute` of ENABLE_RW_PROTECT (R235). -/
def runEnableRwProtect (mask : Half) (mode : Byte) (s : State) : Ran :=
  ofAnswer (s.portFlashEnableProtection mask mode)

/-- ENABLE_RW_PROTECT (R235). -/
def execEnableRwProtect (mask : Half) (mode : Byte) (s : State) : Out :=
  runCommand .enableRwProtect (fun r => { r with argMask := mask, argMode := mode })
    (checkEnableRwProtect mask mode) (runEnableRwProtect mask mode) s

/-- `execute` of DISABLE_RW_PROTECT (R236). -/
def runDisableRwProtect (s : State) : Ran := ofAnswer s.portFlashDisableProtection

/-- DISABLE_RW_PROTECT (R236). -/
def execDisableRwProtect (s : State) : Out :=
  runCommand .disableRwProtect id noCheck runDisableRwProtect s

end Sys2Proof.Machine
end

