-- ==== Sys2Proof/Machine/Handoff.lean ====
section
/-! DEFINITION. GO_TO_ADDRESS (`45_handoff.md` R270 to R273, R276): the validation of the jump target is the
command's precondition; the hand-off itself follows its ACK (`State.handOff`, run by the ACK of
`Machine/Responses.lean`). -/

namespace Sys2Proof.Machine

/-- `MemRead32` of four bytes read (R16, R75 (c)). -/
def wordOfBytes (b : List Byte) : Word := le32 (b.getD 0 0) (b.getD 1 0) (b.getD 2 0) (b.getD 3 0)

/-- The target validation (R272): the application region, the two words, the stack pointer. -/
def checkGoToAddress (address : Word) (s : State) : Ran :=
  let t := address.toNat
  if !inApp s.cfg t 8 then .raised .invalidTarget s
  else
    match s.portMemRead t 4 with
    | none => .stopped .unmappedRead
    | some (b0, s1) =>
      match s1.portMemRead (t + 4) 4 with
      | none => .stopped .unmappedRead
      | some (b1, s2) =>
        let s3 : State := { s2 with regs := { s2.regs with hoSp := wordOfBytes b0, hoEntry := wordOfBytes b1 } }
        if plausibleSp s3.cfg s3.regs.hoSp then .done [] s3 else .raised .invalidTarget s3

/-- `execute` of GO_TO_ADDRESS: nothing (R271). -/
def runGoToAddress (s : State) : Ran := .done [] s

/-- GO_TO_ADDRESS (R271). -/
def execGoToAddress (address : Word) (s : State) : Out :=
  runCommand .goToAddress (fun r => { r with argAddr := address })
    (checkGoToAddress address) runGoToAddress s

end Sys2Proof.Machine
end

