-- ==== Sys2Proof/Machine/Introspection.lean ====
section
/-! DEFINITION. The introspection commands (`43_introspection_commands.md`): GET_VERSION, GET_HELP,
GET_CHIP_ID, GET_READ_PROTECTION_STATUS, READ_SECTOR_PROTECTION_STATUS. None has a precondition and none
mutates the flash (R205). -/

namespace Sys2Proof.Machine

/-- `execute` of GET_VERSION (R200). -/
def runGetVersion (s : State) : Ran := .done [s.cfg.blVersion] s

/-- GET_VERSION (R200). -/
def execGetVersion (s : State) : Out := runCommand .getVersion id noCheck runGetVersion s

/-- `execute` of GET_HELP (R201). -/
def runGetHelp (s : State) : Ran := .done s.cfg.codes s

/-- GET_HELP (R201). -/
def execGetHelp (s : State) : Out := runCommand .getHelp id noCheck runGetHelp s

/-- `execute` of GET_CHIP_ID (R202). -/
def runGetChipId (s : State) : Ran :=
  let r := s.portChipId
  .done (fieldBytes16 s.cfg.fieldOrder r.1) r.2

/-- GET_CHIP_ID (R202). -/
def execGetChipId (s : State) : Out := runCommand .getChipId id noCheck runGetChipId s

/-- `execute` of GET_READ_PROTECTION_STATUS (R203). -/
def runGetReadProtectionStatus (s : State) : Ran :=
  let r := s.portRdpStatus
  .done [r.1] r.2

/-- GET_READ_PROTECTION_STATUS (R203). -/
def execGetReadProtectionStatus (s : State) : Out :=
  runCommand .getReadProtectionStatus id noCheck runGetReadProtectionStatus s

/-- `execute` of READ_SECTOR_PROTECTION_STATUS (R204). -/
def runReadSectorProtectionStatus (s : State) : Ran :=
  let r := s.portSectorProtStatus
  .done (fieldBytes16 s.cfg.fieldOrder r.1) r.2

/-- READ_SECTOR_PROTECTION_STATUS (R204). -/
def execReadSectorProtectionStatus (s : State) : Out :=
  runCommand .readSectorProtectionStatus id noCheck runReadSectorProtectionStatus s

end Sys2Proof.Machine
end

