-- ==== Sys2Proof/Machine/Responses.lean ====
section
/-! DEFINITION. The two response kinds (`30_encoding.md` R100; `42_dispatch.md` R178, R181, R182), executed in
`Responding`: the frame is written and sent, the session registers are updated, and the cycle ends (T12) or,
for the ACK of a GO_TO_ADDRESS, the processor is handed over (T13; log 20). -/

namespace Sys2Proof.Machine

/-- `STATUS`, `write_frame`, then the session registers (R171, R178, R181). DESIGN CHOICE (log 34): a `STATUS` that
is not the response's status byte, which no run has, is overwritten by it. -/
def State.sendResponse (s : State) (code status : Byte) (data : List Byte) : State :=
  let s1 : State := { s with regs := { s.regs with status := status } }
  (s1.writeFrame code (status :: data)).bookkeep

/-- ACK (R100, R182): after a GO_TO_ADDRESS with `ST_OK` the hand-off, else the next cycle. DESIGN CHOICE (log 34): a
status other than `ST_OK`, which no ACK of a run has, is sent as it stands. -/
def execAck (status : Byte) (data : List Byte) (s : State) : Out :=
  let s1 := s.sendResponse s.cfg.rcAck status data
  if s1.regs.cmd = some .goToAddress ∧ status = s1.cfg.stOk then .next s1.handOff else .next s1.newCycle

/-- NACK (R100, R304 (4) to (6), R307): the failure frame, then the next cycle. DESIGN CHOICE (log 34): a status that
is `ST_OK` or no error code, which no NACK of a run has, is sent as it stands. -/
def execNack (status : Byte) (s : State) : Out :=
  .next (s.sendResponse s.cfg.rcNack status []).newCycle

end Sys2Proof.Machine
end

