-- ==== Sys2Proof/Machine/Dispatch.lean ====
section
/-! DEFINITION. The meaning of every instruction, one arm each. -/

namespace Sys2Proof.Machine

/-- The meaning of an instruction: a command frame from `Validating` (R171), a response frame in
`Responding` (R178). -/
def exec (i : Instr) (s : State) : Host.Outcome State Fault Refusal :=
  match i with
  | .getVersion => Sys2Proof.Machine.execGetVersion s
  | .getHelp => Sys2Proof.Machine.execGetHelp s
  | .getChipId => Sys2Proof.Machine.execGetChipId s
  | .getReadProtectionStatus => Sys2Proof.Machine.execGetReadProtectionStatus s
  | .goToAddress address => Sys2Proof.Machine.execGoToAddress address s
  | .flashErase sector count => Sys2Proof.Machine.execFlashErase sector count s
  | .memWrite address data => Sys2Proof.Machine.execMemWrite address data s
  | .enableRwProtect mask mode => Sys2Proof.Machine.execEnableRwProtect mask mode s
  | .memRead address count => Sys2Proof.Machine.execMemRead address count s
  | .readSectorProtectionStatus => Sys2Proof.Machine.execReadSectorProtectionStatus s
  | .otpRead address count => Sys2Proof.Machine.execOtpRead address count s
  | .disableRwProtect => Sys2Proof.Machine.execDisableRwProtect s
  | .ack status data => Sys2Proof.Machine.execAck status data s
  | .nack status => Sys2Proof.Machine.execNack status s

end Sys2Proof.Machine
end

