-- ==== Sys2Proof/Machine/Cycle.lean ====
section
/-! DEFINITION. What the step does in each protocol state (`42_dispatch.md` R171, R184): the frame is read in
`AwaitingFrame`, decoded and run in `Validating`, its execution is taken up in `Executing`, its response is
fetched and run in `Responding`; in `AwaitingFrame` and `Executing` from where the position registers say
(`10_state.md` R33). -/

namespace Sys2Proof.Machine

/-- The end of `read_frame` (T1 to T6 of R184, R172): `Validating`, or the error it ended in. -/
def State.endFrame (s : State) : State :=
  match s.regs.ferr.err with
  | none => s.setPstate .validating
  | some e => s.raise e

/-- `AwaitingFrame` (T1 to T6 of R184): `read_frame` from its position on. -/
def State.receive (s : State) : Out :=
  match s.continueFrame with
  | some s1 => .next s1.endFrame
  | none => .fault .noPosition

/-- The command in the receive registers (R173 to R175). -/
def State.fetchCommand (s : State) : Except DecodeError Instr :=
  decodeBody s.cfg s.regs.rxLen s.regs.rxBody

/-- `CMD` of a frame that is not executed: none, or the command whose size it misses (R173, R174). -/
def State.setCmd (s : State) : State :=
  { s with regs := { s.regs with cmd := decodeCode s.cfg (payloadByte s.regs.rxBody 0) } }

/-- `Validating` (T7 to T11 of R184): the command runs, or its frame is refused by an error. DESIGN CHOICE
(log 33): `FERR` and `CRC_OK` are not read; in a run they are `None` and 1 here (R146, T6). -/
def State.validate (s : State) : Out :=
  match s.fetchCommand with
  | .ok i => exec i s
  | .error e => .next (s.setCmd.raise e.err)

/-- The execution part of a command (R177), whose check has passed; it begins at its start whatever `SEQ_IDX` and
`FLASH_OPEN` say (log 32). A response kind is no command (R96, R173; log 20), so `fetchCommand` never gives one. -/
def execution (i : Instr) (s : State) : Ran :=
  match i with
  | .getVersion => runGetVersion s
  | .getHelp => runGetHelp s
  | .getChipId => runGetChipId s
  | .getReadProtectionStatus => runGetReadProtectionStatus s
  | .goToAddress _ => runGoToAddress s
  | .flashErase _ _ => runFlashErase s
  | .memWrite address data => runMemWrite address data s
  | .enableRwProtect mask mode => runEnableRwProtect mask mode s
  | .memRead address count => runRead address count s
  | .readSectorProtectionStatus => runReadSectorProtectionStatus s
  | .otpRead address count => runRead address count s
  | .disableRwProtect => runDisableRwProtect s
  | .ack _ _ => .raised .unsupportedCommand s
  | .nack _ => .raised .unsupportedCommand s

/-- The execution of a command whose flash sequence has begun (R33, R223, R226); only an erase and a program
have one. -/
def continuation (i : Instr) (s : State) : Ran :=
  match i with
  | .flashErase _ _ => s.continueErase
  | .memWrite address data => s.continueProgram address.toNat data
  | .getVersion | .getHelp | .getChipId | .getReadProtectionStatus | .goToAddress _
  | .enableRwProtect _ _ | .memRead _ _ | .readSectorProtectionStatus | .otpRead _ _
  | .disableRwProtect | .ack _ _ | .nack _ => .stopped .noPosition

/-- `Executing` (T11 of R184): the command in the receive registers is executed, from its start when no
sequence has begun, else from where the sequence is (R33; log 18). DESIGN CHOICE (log 32): receive registers
that decode to no command, or to one whose size they miss, raise UnsupportedCommand or MalformedLength here too,
where T11 and R291 give no error for them; no run reaches such a state. DESIGN CHOICE (log 33): `FERR` and
`CRC_OK` are not read. -/
def State.resume (s : State) : Out :=
  match s.fetchCommand with
  | .ok i => (if s.regs.seqState = .idle then execution i s else continuation i s).finish
  | .error e => .next (s.raise e.err)

/-- The response frame in the `TX_` registers (R28, R100). -/
def State.fetchResponse (s : State) : Except DecodeError Instr :=
  decodeResponseBody s.cfg s.regs.txCode s.regs.txPayload

/-- The response that `STATUS` asks for (R178): success with the data after the status byte of `TX_PAYLOAD`, or
the failure frame. -/
def builtResponse (c : Cfg) (status : Byte) (payload : List Byte) : Instr :=
  if status = c.stOk then .ack status (payload.drop 1) else .nack status

/-- The response of the step in `Responding`: the frame in the `TX_` registers, or where they hold none the one
that R178 builds from `STATUS` (log 25). DESIGN CHOICE (log 34): the frame in the `TX_` registers goes before a
`STATUS` that disagrees with it, and `TX_LEN` is not read; in a run they agree. -/
def State.response (s : State) : Instr :=
  match s.fetchResponse with
  | .ok i => i
  | .error _ => builtResponse s.cfg s.regs.status s.regs.txPayload

/-- `Responding` (T12, T13 of R184): the response is run. -/
def State.answer (s : State) : Out := exec s.response s

/-- The receive registers as `read_frame` leaves them when the frame `len ‖ body` has arrived whole with its
CRC (R140, R147). -/
def State.loadCommand (s : State) (len : Byte) (body : List Byte) : State :=
  let v := crc s.cfg (len :: body)
  let w := crcBytes s.cfg.crcWireOrder v
  { s with regs := { s.regs with
      pstate := .validating
      ferr := .none
      rxLen := len
      rxBody := body
      rxCrcb := ⟨w.getD 0 0, w.getD 1 0, w.getD 2 0, w.getD 3 0⟩
      rxCrc := v
      rxIdx := 5 + len.toNat
      crcAcc := crcRemainder s.cfg (len :: body)
      crcOk := true } }

/-- The `TX_` registers hold the response `code ‖ payload`, about to be sent (R178). -/
def State.loadResponse (s : State) (len : Byte) (body : List Byte) : State :=
  { s with regs := { s.regs with
      pstate := .responding
      status := payloadByte body 1
      txLen := len
      txCode := payloadByte body 0
      txPayload := body.drop 1 } }

/-- A frame stands where the step fetches: a command, or any frame whose code is no response code, in the
receive registers; a response in the `TX_` registers (log 2). No reset is pending. -/
def State.loadFrame (s : State) (len : Byte) (body : List Byte) : State :=
  let s1 : State := { s with env := { s.env with resetPending := false } }
  match decodeCode s.cfg (payloadByte body 0) with
  | some _ => s1.loadCommand len body
  | none =>
    if payloadByte body 0 == s.cfg.rcAck || payloadByte body 0 == s.cfg.rcNack then s1.loadResponse len body
    else s1.loadCommand len body

end Sys2Proof.Machine
end

