-- ==== Sys2Proof/Machine/Step.lean ====
section
/-! DEFINITION. One step of the machine (`00_scope.md` R13; `42_dispatch.md` R171, R184; log 4), and where it
fetches its next instruction. -/

namespace Sys2Proof.Machine

/-- One step: the reset that is asked for (R330), or what the block does in its protocol state (R170).
`HandedOff` has no step (R183, U14). -/
def step (s : State) : Host.Outcome State Fault Refusal :=
  if s.env.resetPending then .next s.deviceReset
  else
    match s.regs.pstate with
    | .awaitingFrame => s.receive
    | .validating => s.validate
    | .executing => s.resume
    | .responding => s.answer
    | .handedOff => .fault .handedOff

/-- The frame of a table word stands where the step fetches its next instruction (log 1, 2). -/
def State.withFetchWord (s : State) (nbits w : Nat) : State :=
  s.loadFrame (tableLength s.cfg nbits w) (tableBody s.cfg nbits w)

end Sys2Proof.Machine
end

