-- ==== Sys2Proof/Safety.lean ====
section
/-! DEFINITION. The words the statements use: classes of port calls, the lock bracket (`20_memory.md` R81), the
calls the flash driver may get (R64, R65), the `L` column of R97, a response standing in the registers
(R100, R178), and the invariant of a run. -/

namespace Sys2Proof.Machine

/-- A call of `Rx` (R61). -/
def Event.isRx : Event → Bool
  | .rx _ _ => true
  | _ => false

/-- A call of `Tx` (R62). -/
def Event.isTx : Event → Bool
  | .tx _ => true
  | _ => false

/-- A call of `FlashUnlock`, `FlashLock`, `FlashEraseSector` or `FlashProgramWord` (R220, R239). -/
def Event.isFlash : Event → Bool
  | .flashUnlock => true
  | .flashLock => true
  | .flashEraseSector _ _ => true
  | .flashProgramWord _ _ _ => true
  | _ => false

/-- One of the four CPU calls (R68, R274). -/
def Event.isCpu : Event → Bool
  | .cpuDisableInterrupts => true
  | .cpuRelocateVectorTable _ => true
  | .cpuSetStackPointer _ => true
  | .cpuJump _ => true
  | _ => false

/-- A port call of a command's check or execution (R176, R177): a flash call, a status port, a protection query or
a read, a verification, a protection write. -/
def Event.isExecution : Event → Bool
  | .flashUnlock => true
  | .flashLock => true
  | .flashEraseSector _ _ => true
  | .flashProgramWord _ _ _ => true
  | .isReadProtected _ _ _ => true
  | .memRead _ _ _ => true
  | .chipId _ => true
  | .rdpStatus _ => true
  | .sectorProtStatus _ => true
  | .verifyErased _ _ _ => true
  | .flashEnableProtection _ _ _ => true
  | .flashDisableProtection _ => true
  | _ => false

/-- What the block never asks of the flash driver (R64, R65): a reserved sector or a number that is no
sector; a word that is misaligned, outside the flash or in a reserved sector. -/
def Event.permitted (c : Cfg) : Event → Bool
  | .flashEraseSector k _ => decide (k < c.nsectors) && !c.reserved.contains k
  | .flashProgramWord a _ _ =>
    a % c.wordBytes == 0 && inFlash c a c.wordBytes && !touchesReserved c a c.wordBytes
  | _ => true

/-- Where a trace stands in the lock bracket of one command (R81): no flash call yet; between `FlashUnlock` and
`FlashLock`; after that `FlashLock`; or in the reads of a command that makes no flash call. -/
inductive Bracket where
  | before | unlocked | after | reading
  deriving DecidableEq, Repr

/-- The bracket a call leads to; none for a call that has no place there (R81, R229): between `FlashUnlock` and
`FlashLock` only erase and program calls, and those nowhere else; the erase verification and the read-back of a
program only after that `FlashLock`; one `FlashUnlock` at most. -/
def Bracket.next : Bracket → Event → Option Bracket
  | .before, .flashUnlock => some .unlocked
  | .unlocked, .flashEraseSector _ _ => some .unlocked
  | .unlocked, .flashProgramWord _ _ _ => some .unlocked
  | .unlocked, .flashLock => some .after
  | .unlocked, _ => none
  | _, .flashUnlock => none
  | _, .flashEraseSector _ _ => none
  | _, .flashProgramWord _ _ _ => none
  | _, .flashLock => none
  | .after, .verifyErased _ _ _ => some .after
  | _, .verifyErased _ _ _ => none
  | .before, .memRead _ _ _ => some .reading
  | p, _ => some p

/-- The bracket after the calls of a list. -/
def Bracket.run : Bracket → List Event → Option Bracket
  | p, [] => some p
  | p, e :: es =>
    match p.next e with
    | some q => q.run es
    | none => none

/-- Where the step's calls begin (R33, R37): open flash, a sequence past its `FlashLock`, or no flash call yet. -/
def State.bracket (s : State) : Bracket :=
  if s.regs.flashOpen then .unlocked
  else if s.regs.pstate = .executing ∧ (s.regs.seqState = .lock ∨ s.regs.seqState = .verify) then .after
  else .before

/-- What the driver leaves at address `a` of the unit of call `j` that asks for `asked` there and answers `Ok`:
the last cell the plan names for `a` (U18, log 12), else `asked`. -/
def State.unitLeaves (s : State) (j a : Nat) (asked : Byte) : Byte :=
  match s.env.unitPlan[j]? with
  | some (.okLeaving cells) =>
    match cells.reverse.find? fun c => c.1 == a with
    | some c => c.2
    | none => asked
  | _ => asked

/-- The driver answers the next `n` unit calls by no failure of the plan (R86; log 10). -/
def State.NoFailure (s : State) (n : Nat) : Prop :=
  ∀ e : DriverFault, ∀ p ∈ s.env.unitPlan.take n, p ≠ .fails e

/-- The `L` column of R97 for the commands whose size is fixed; MEM_WRITE has none. -/
def fixedLength : CmdName → Option Nat
  | .getVersion => some 1
  | .getHelp => some 1
  | .getChipId => some 1
  | .getReadProtectionStatus => some 1
  | .goToAddress => some 5
  | .flashErase => some 3
  | .memWrite => none
  | .enableRwProtect => some 4
  | .memRead => some 6
  | .readSectorProtectionStatus => some 1
  | .otpRead => some 6
  | .disableRwProtect => some 1

/-- The registers with a response standing in them (R100, R178; log 21): `PSTATE`, `STATUS`, `TX_LEN`, `TX_CODE`,
`TX_PAYLOAD` as given, every other register as it was. -/
def Regs.withResponse (r : Regs) (code status : Byte) (data : List Byte) : Regs :=
  { r with
    pstate := .responding
    status := status
    txLen := BitVec.ofNat 8 (2 + data.length)
    txCode := code
    txPayload := status :: data }

/-- The sectors a FLASH_ERASE asks for, as a condition on a sector number (R221). -/
def Requested (c : Cfg) (sector count : Byte) (k : Nat) : Prop :=
  if c.massErase = some sector then k < c.nsectors ∧ k ∉ c.reserved
  else sector.toNat ≤ k ∧ k < sector.toNat + count.toNat

/-- A FLASH_ERASE passes the checks of R222. -/
def EraseAllowed (c : Cfg) (sector count : Byte) : Prop :=
  c.massErase = some sector ∨
    ((∀ k ∈ c.reserved, ¬ (sector.toNat ≤ k ∧ k < sector.toNat + count.toNat)) ∧
      count ≠ 0 ∧ sector.toNat + count.toNat ≤ c.nsectors)

/-- A MEM_WRITE of `n` bytes at `a` passes the checks of R225. -/
def ProgramAllowed (c : Cfg) (a n : Nat) : Prop :=
  a % c.wordBytes = 0 ∧ n % c.wordBytes = 0 ∧ (∀ i < n, reservedAddr c (a + i) = false) ∧
    1 ≤ n ∧ c.flashBase ≤ a ∧ a + n ≤ c.flashEnd

/-- What a state between steps holds as long as the processor has not been handed over. -/
structure State.Live (s : State) : Prop where
  /-- no step ends inside a command's execution (log 4) -/
  notExecuting : s.regs.pstate ≠ .executing
  /-- `FLASH_OPEN = 0` outside `Executing` (R37, R229) -/
  closed : s.regs.flashOpen = false
  /-- the start of a cycle (R43) -/
  waiting : s.regs.pstate = .awaitingFrame → s.regs = s.regs.startCycle s.cfg
  /-- a frame received whole whose CRC matched (R146, R147, T6 of R184) -/
  received : s.regs.pstate = .validating →
    s.regs.ferr = .none ∧ s.regs.crcOk = true ∧ s.regs.rxLen ≠ 0 ∧
      s.regs.rxBody.length = s.regs.rxLen.toNat ∧ s.regs.rxIdx = 5 + s.regs.rxLen.toNat ∧
      s.regs.rxCrc = crc s.cfg (s.regs.rxLen :: s.regs.rxBody)
  /-- a response stands in the `TX_` registers: `RC_ACK` goes with `ST_OK` and only with it, a failure
  carries the status byte alone, a success at most 253 bytes of data (R100, R101, R178) -/
  answering : s.regs.pstate = .responding →
    ∃ data, s.regs.txPayload = s.regs.status :: data ∧ data.length ≤ 253 ∧
      s.regs.txLen = BitVec.ofNat 8 (2 + data.length) ∧
      (s.regs.status = s.cfg.stOk → s.regs.txCode = s.cfg.rcAck) ∧
      (s.regs.status ≠ s.cfg.stOk →
        s.regs.txCode = s.cfg.rcNack ∧ data = [] ∧ s.regs.status ∈ s.cfg.errorCodes)

/-- The invariant of a run: the configuration is well formed (R12), the memory keeps its canonical form and
lists bytes of the flash and OTP spaces only (R69), the flash is locked between steps (R81, R333 (3)), and
the registers are those of a state between steps until the hand-off, which discards them (R275). -/
structure State.Inv (s : State) : Prop where
  cfg : s.cfg.WellFormed
  mem : Memory.wf s.cfg.erasedByte s.env.mem
  spaces : ∀ c ∈ s.env.mem, mapped s.cfg c.1 1 = true
  locked : s.env.locked = true
  live : s.regs.pstate ≠ .handedOff → s.Live

end Sys2Proof.Machine
end

