-- ==== Sys2Proof/Certificates/Slice0/Obligations.lean ====
section
/-! DEFINITION. The statements for the provers. Each is about every state, with the conditions it needs as
hypotheses; an equation for `regs` or `env` names every field that may differ. -/

open Sys2Proof Sys2Proof.Machine

/-! The CRC-32 validator. -/

/-- `40_crc.md` R125: with `CRC_FEED_BITS = 32` an `n`-byte message is processed as the `4n` bytes
`00 00 00 b` (`CRC_REFIN = false`). -/
def Obligations.CrcWordFeedIsFourBytes : Prop :=
  ∀ (c : Cfg) (bytes : List Byte), c.crcFeed = .bits32 → c.crcRefIn = false →
    crc c bytes = crc { c with crcFeed := .bits8 } (bytes.flatMap fun b => [0, 0, 0, b])

/-- `40_crc.md` R129: two byte sequences of the same length that differ in exactly one bit have different
CRCs, under every well-formed configuration. -/
def Obligations.CrcSeesEverySingleBit : Prop :=
  ∀ (c : Cfg), c.WellFormed → ∀ (before after : List Byte) (b : Byte) (k : Nat), k < 8 →
    crc c (before ++ b :: after) ≠ crc c (before ++ (b ^^^ (1#8 <<< k)) :: after)

/-! Encoding. -/

/-- Every well-formed instruction is read back from its frame, whatever follows the frame: a command by the
device's decoder, a response by the host's (R90, R97, R98, R99, R100). -/
def Obligations.DecodeOfEncode : Prop :=
  ∀ (c : Cfg), c.WellFormed → ∀ (i : Instr), i.WellFormed c → ∀ (rest : List Byte),
    (i.isCommand = true → decodeFrame c (encode c i ++ rest) = .ok (i, rest)) ∧
    (i.isCommand = false → decodeResponseFrame c (encode c i ++ rest) = .ok (i, rest))

/-- A byte string that decodes is the encoding of what it decodes to, so that no two frames mean one
command and no bit of a frame is dropped (R90, R97, R102). -/
def Obligations.EncodeOfDecode : Prop :=
  ∀ (c : Cfg) (bytes : List Byte) (i : Instr) (rest : List Byte),
    decodeFrame c bytes = .ok (i, rest) →
    i.isCommand = true ∧ i.WellFormed c ∧ bytes = encode c i ++ rest

/-- Words written out from the layouts of R97 and the examples of `95_test_vectors.md` decode to the
instructions they stand for. -/
def Obligations.WrittenOutFramesDecode : Prop :=
  decodeFrame cfgRef [0x01, 0x51, 0x11, 0x13, 0xF8, 0xAE] = .ok (.getVersion, []) ∧
  decodeFrame cfgRef [0x03, 0x56, 0x02, 0x01, 0x0F, 0xEE, 0x32, 0x6C] = .ok (.flashErase 2 1, []) ∧
  decodeFrame cfgRef [0x05, 0x55, 0x00, 0x80, 0x00, 0x08, 0x8E, 0xC3, 0x4D, 0x6B]
    = .ok (.goToAddress 0x08008000, []) ∧
  decodeFrame cfgRef [0x0A, 0x57, 0x00, 0x80, 0x00, 0x08, 0x04, 0x01, 0x02, 0x03, 0x04, 0xF5, 0x37, 0xF7, 0xCF]
    = .ok (.memWrite 0x08008000 [1, 2, 3, 4], []) ∧
  decodeFrame cfgRef [0x01, 0x5D, 0x75, 0x88, 0xF4, 0x9B] = .error .unsupportedCode

/-- `20_memory.md` R74 and `30_encoding.md` R94: the crc bytes on the wire, least significant first or most
significant first, and their assembly. -/
def Obligations.CrcBytesOnTheWire : Prop :=
  ∀ (v : Word),
    crcBytes .lsbFirst v = [v.extractLsb' 0 8, v.extractLsb' 8 8, v.extractLsb' 16 8, v.extractLsb' 24 8] ∧
    crcBytes .msbFirst v = [v.extractLsb' 24 8, v.extractLsb' 16 8, v.extractLsb' 8 8, v.extractLsb' 0 8] ∧
    ∀ (o : WireOrder) (b0 b1 b2 b3 : Byte), crcBytes o v = [b0, b1, b2, b3] → crcOfBytes o b0 b1 b2 b3 = v

/-- `20_memory.md` R75 (b): the word of `n` data bytes is below `256 ^ n`, and storing it gives the data
bytes back, the first at the lowest address. -/
def Obligations.FlashWordHoldsItsBytes : Prop :=
  ∀ (d : List Byte), leValue d < 256 ^ d.length ∧ wordBytesOf d.length (leValue d) = d

/-! The frame parser. -/

/-- `41_frame_codec.md` R145, `42_dispatch.md` R172 and T1, T3, T4 of R184: a silence before the frame is whole
(none of it, part of its body, part of its crc) drops the bytes received, sends nothing and starts a new
cycle. The zeros of the registers without a value are the model's choice (log 5). -/
def Obligations.SilenceStartsANewCycle : Prop :=
  ∀ (s : State) (sent : List Byte) (tail rest : List RxItem),
    s.env.resetPending = false → s.regs.pstate = .awaitingFrame → s.regs.rxIdx = 0 →
    s.env.rx = sent.map RxItem.byte ++ tail →
    ((tail = [] ∧ rest = []) ∨ tail = .gap :: rest) →
    (sent = [] ∨ (sent.getD 0 0 ≠ 0 ∧ sent.length < 5 + (sent.getD 0 0).toNat)) →
    ∃ t es, step s = .next t ∧ t.cfg = s.cfg ∧
      t.regs = { Regs.reset s.cfg with lastCmd := s.regs.lastCmd, lastStatus := s.regs.lastStatus } ∧
      t.env = { s.env with rx := rest, trace := s.env.trace ++ es } ∧
      (∀ e ∈ es, e.isRx = true) ∧ ∀ a, t.readByte a = s.readByte a

/-- `41_frame_codec.md` R142 and T2 of R184: a zero length byte is answered with the bare NACK of
MalformedLength, and no further byte is asked for. -/
def Obligations.ZeroLengthIsMalformed : Prop :=
  ∀ (s : State) (rest : List RxItem), s.cfg.WellFormed →
    s.env.resetPending = false → s.regs.pstate = .awaitingFrame → s.regs.rxIdx = 0 →
    s.regs.flashOpen = false →
    s.env.rx = .byte 0 :: rest →
    ∃ t, step s = .next t ∧ t.cfg = s.cfg ∧
      t.regs = { s.regs with ferr := .malformedLength, rxIdx := 1, rxLen := 0 }.withResponse
        s.cfg.rcNack s.cfg.stMalformedLength [] ∧
      t.env = { s.env with rx := rest, trace := s.env.trace ++ [.rx 1 (some [0])] } ∧
      ∀ a, t.readByte a = s.readByte a

/-- `41_frame_codec.md` R141, R143, R144, R146 and T6 of R184: a frame whose crc is the computed one leaves its
bytes in the `RX_` registers and the block in `Validating`. -/
def Obligations.WholeFrameIsReceived : Prop :=
  ∀ (s : State) (len w0 w1 w2 w3 : Byte) (body : List Byte) (rest : List RxItem),
    s.env.resetPending = false → s.regs.pstate = .awaitingFrame → s.regs.rxIdx = 0 →
    len ≠ 0 → body.length = len.toNat →
    s.env.rx = ((len :: body) ++ [w0, w1, w2, w3]).map RxItem.byte ++ rest →
    crcOfBytes s.cfg.crcWireOrder w0 w1 w2 w3 = crc s.cfg (len :: body) →
    ∃ t, step s = .next t ∧ t.cfg = s.cfg ∧
      t.regs = { s.regs with
        pstate := .validating, ferr := .none, crcOk := true
        rxLen := len, rxBody := body, rxCrcb := ⟨w0, w1, w2, w3⟩
        rxCrc := crcOfBytes s.cfg.crcWireOrder w0 w1 w2 w3
        rxIdx := 5 + len.toNat, crcAcc := crcRemainder s.cfg (len :: body) } ∧
      t.env = { s.env with
        rx := rest
        trace := s.env.trace ++
          [.rx 1 (some [len]), .rx len.toNat (some body), .rx 4 (some [w0, w1, w2, w3])] } ∧
      ∀ a, t.readByte a = s.readByte a

/-- `41_frame_codec.md` R146, `60_exceptions.md` R294 and T5 of R184: a frame whose crc differs from the
computed one is answered with the bare NACK of ChecksumMismatch, whatever its code. -/
def Obligations.WrongCrcIsRefused : Prop :=
  ∀ (s : State) (len w0 w1 w2 w3 : Byte) (body : List Byte) (rest : List RxItem), s.cfg.WellFormed →
    s.env.resetPending = false → s.regs.pstate = .awaitingFrame → s.regs.rxIdx = 0 →
    s.regs.flashOpen = false →
    len ≠ 0 → body.length = len.toNat →
    s.env.rx = ((len :: body) ++ [w0, w1, w2, w3]).map RxItem.byte ++ rest →
    crcOfBytes s.cfg.crcWireOrder w0 w1 w2 w3 ≠ crc s.cfg (len :: body) →
    ∃ t, step s = .next t ∧ t.cfg = s.cfg ∧
      t.regs = { s.regs with
        ferr := .checksumMismatch, crcOk := false
        rxLen := len, rxBody := body, rxCrcb := ⟨w0, w1, w2, w3⟩
        rxCrc := crcOfBytes s.cfg.crcWireOrder w0 w1 w2 w3
        rxIdx := 5 + len.toNat, crcAcc := crcRemainder s.cfg (len :: body) }.withResponse
          s.cfg.rcNack s.cfg.stChecksumMismatch [] ∧
      t.env = { s.env with
        rx := rest
        trace := s.env.trace ++
          [.rx 1 (some [len]), .rx len.toNat (some body), .rx 4 (some [w0, w1, w2, w3])] } ∧
      ∀ a, t.readByte a = s.readByte a

/-- `41_frame_codec.md` R149: a parser fed the bytes `write_frame(code, P)` transmits ends with the same code
and payload, for every code and every payload of at most 254 bytes. -/
def Obligations.WrittenFrameReadsBack : Prop :=
  ∀ (s : State) (code : Byte) (p : List Byte), p.length ≤ 254 →
    ∃ bytes, (s.writeFrame code p).env.trace = s.env.trace ++ [.tx bytes] ∧
      ∀ (r : State) (rest : List RxItem), r.cfg = s.cfg → r.env.resetPending = false →
        r.regs.pstate = .awaitingFrame → r.regs.rxIdx = 0 → r.env.rx = bytes.map RxItem.byte ++ rest →
        ∃ t, step r = .next t ∧ t.regs.pstate = .validating ∧ t.regs.ferr = .none ∧
          t.regs.rxBody = code :: p ∧ t.regs.rxLen.toNat = 1 + p.length ∧ t.env.rx = rest

/-- `41_frame_codec.md` R150 and the source's "CRC sensitivity" (`95_test_vectors.md` S2, as conflict C5 of
`90_conflicts.md` leaves it): one flipped bit in the code, the payload or the crc of a transmitted frame
ends in ChecksumMismatch, and nothing of the command happens. -/
def Obligations.FlippedBitIsChecksumMismatch : Prop :=
  ∀ (s : State) (code : Byte) (p : List Byte) (j k : Nat) (rest : List RxItem), s.cfg.WellFormed →
    s.env.resetPending = false → s.regs.pstate = .awaitingFrame → s.regs.rxIdx = 0 →
    s.regs.flashOpen = false →
    p.length ≤ 254 → 1 ≤ j → j < (frame s.cfg code p).length → k < 8 →
    s.env.rx = ((frame s.cfg code p).set j ((frame s.cfg code p).getD j 0 ^^^ (1#8 <<< k))).map RxItem.byte
      ++ rest →
    ∃ t, step s = .next t ∧ t.regs.pstate = .responding ∧ t.regs.ferr = .checksumMismatch ∧
      t.regs.txCode = s.cfg.rcNack ∧ t.regs.txPayload = [s.cfg.stChecksumMismatch] ∧
      t.env.rx = rest ∧ t.env.driver = s.env.driver ∧ ∀ a, t.readByte a = s.readByte a

/-! The protocol state machine. -/

/-- The bytes where the step fetches decode to a well-formed command: the step is that command's meaning
(R171, R173 to R177). The step adds nothing around it. -/
def Obligations.StepRunsTheDecodedCommand : Prop :=
  ∀ (s : State) (i : Instr), s.env.resetPending = false → s.regs.pstate = .validating →
    decodeBody s.cfg s.regs.rxLen s.regs.rxBody = .ok i → i.WellFormed s.cfg → step s = exec i s

/-- The `TX_` registers decode to a response: the step in `Responding` is that response's meaning (R178). Where they
decode to none, which no run has, it is the meaning of the response that R178 builds from `STATUS`, with the data
after the status byte of `TX_PAYLOAD`: the MODEL's choice (log 25). -/
def Obligations.StepRunsTheResponse : Prop :=
  ∀ (s : State), s.env.resetPending = false → s.regs.pstate = .responding →
    (∀ (i : Instr), decodeResponseBody s.cfg s.regs.txCode s.regs.txPayload = .ok i → i.WellFormed s.cfg →
      step s = exec i s) ∧
    (∀ (e : DecodeError), decodeResponseBody s.cfg s.regs.txCode s.regs.txPayload = .error e →
      (s.regs.status = s.cfg.stOk → step s = exec (.ack s.cfg.stOk (s.regs.txPayload.drop 1)) s) ∧
      (s.regs.status ≠ s.cfg.stOk → step s = exec (.nack s.regs.status) s))

/-- The MODEL's choice for a state that no run holds between steps (log 4, 18; `State.Live.notExecuting`): in
`Executing` with `SEQ_STATE = Idle` the step is the execution part of the command in the receive registers.
`10_state.md` R33 and `42_dispatch.md` R177 say what that part is, not that a step begins there. -/
def Obligations.StepTakesUpAnExecution : Prop :=
  ∀ (s : State) (i : Instr), s.env.resetPending = false → s.regs.pstate = .executing →
    s.regs.seqState = .idle → decodeBody s.cfg s.regs.rxLen s.regs.rxBody = .ok i →
    step s = (execution i s).finish

/-- `10_state.md` R33, R24, R37: the position registers say what is next. Taking one port call of a frame or of a
flash sequence, with the registers it writes, and stepping from there is stepping from before it: after the
length byte, the body, the crc bytes; in `Executing` after `SEQ_STATE` is `Unlock`, after the `FlashUnlock`,
after a unit that answered `Ok`, at the `Lock`, after the `FlashLock`, at the verification. With units left after
the `FlashLock` the sequence ends in one of the two errors of a unit, the model's free value (log 31). That a
step goes on from there to the end of its part of the cycle is the MODEL's granularity (log 4, 18). -/
def Obligations.StepContinuesFromItsPosition : Prop :=
  ∀ (s : State), s.env.resetPending = false →
    (s.regs.pstate = .awaitingFrame →
      (∀ len rest, s.regs.rxIdx = 0 → s.env.rx = .byte len :: rest →
        step s = step { s with
          regs := { s.regs with ferr := .none, rxLen := len, rxIdx := 1 }
          env := { s.env with rx := rest, trace := s.env.trace ++ [.rx 1 (some [len])] } }) ∧
      (∀ body rest, s.regs.rxIdx = 1 → s.regs.ferr = .none → s.regs.rxLen ≠ 0 →
        body.length = s.regs.rxLen.toNat → s.env.rx = body.map RxItem.byte ++ rest →
        step s = step { s with
          regs := { s.regs with rxBody := body, rxIdx := 1 + s.regs.rxLen.toNat }
          env := { s.env with
            rx := rest, trace := s.env.trace ++ [.rx s.regs.rxLen.toNat (some body)] } }) ∧
      (∀ b0 b1 b2 b3 rest, s.regs.rxIdx = 1 + s.regs.rxLen.toNat → s.regs.ferr = .none →
        s.regs.rxLen ≠ 0 → s.env.rx = [b0, b1, b2, b3].map RxItem.byte ++ rest →
        step s = step { s with
          regs := { s.regs with
            rxCrcb := ⟨b0, b1, b2, b3⟩, rxCrc := crcOfBytes s.cfg.crcWireOrder b0 b1 b2 b3
            rxIdx := 5 + s.regs.rxLen.toNat }
          env := { s.env with rx := rest, trace := s.env.trace ++ [.rx 4 (some [b0, b1, b2, b3])] } })) ∧
    (∀ sector count, s.regs.pstate = .validating → s.regs.seqState = .idle →
      decodeBody s.cfg s.regs.rxLen s.regs.rxBody = .ok (.flashErase sector count) →
      EraseAllowed s.cfg sector count →
      step s = step { s with regs := { s.regs with
        pstate := .executing, cmd := some .flashErase, argSector := sector, argNsec := count
        seqList := eraseRequest s.cfg sector count } }) ∧
    (∀ (i : Instr) (n : Nat), s.regs.pstate = .executing →
      decodeBody s.cfg s.regs.rxLen s.regs.rxBody = .ok i →
      ((∃ sector count, i = .flashErase sector count ∧ n = s.regs.seqList.length) ∨
        ∃ address data, i = .memWrite address data ∧ n = data.length / s.cfg.wordBytes) →
      (s.regs.seqState = .idle → s.regs.flashOpen = false →
        step s = step { s with regs := { s.regs with seqState := .unlock } }) ∧
      (s.regs.seqState = .unlock → s.regs.flashOpen = false →
        step s = step { s with
          regs := { s.regs with flashOpen := true }
          env := { s.env with locked := false, trace := s.env.trace ++ [.flashUnlock] } }) ∧
      (s.regs.seqState = .unlock → s.regs.flashOpen = true →
        step s = step { s with regs := { s.regs with seqState := .units, seqIdx := 0 } }) ∧
      (s.regs.seqState = .units → s.regs.flashOpen = true →
        (∀ sector count k u, i = .flashErase sector count → s.regs.seqList[s.regs.seqIdx]? = some k →
          s.portFlashEraseSector k = (.ok, u) →
          step s = step { u with regs := { u.regs with seqIdx := s.regs.seqIdx + 1 } }) ∧
        (∀ address data u, i = .memWrite address data → s.regs.seqIdx < n →
          s.portFlashProgramWord (address.toNat + s.regs.seqIdx * s.cfg.wordBytes)
            (leValue ((data.drop (s.regs.seqIdx * s.cfg.wordBytes)).take s.cfg.wordBytes)) = (.ok, u) →
          step s = step { u with regs := { u.regs with seqIdx := s.regs.seqIdx + 1 } }) ∧
        (s.regs.seqIdx = n → step s = step { s with regs := { s.regs with seqState := .lock } })) ∧
      (s.regs.seqState = .lock → s.regs.flashOpen = true →
        step s = step { s with
          regs := { s.regs with flashOpen := false }
          env := { s.env with locked := true, trace := s.env.trace ++ [.flashLock] } }) ∧
      (s.regs.seqState = .lock → s.regs.flashOpen = false →
        (n ≤ s.regs.seqIdx → step s = step { s with regs := { s.regs with seqState := .verify } }) ∧
        (s.regs.seqIdx < n → ∃ t, step s = .next t ∧ t.regs.pstate = .responding ∧
          t.regs.status ∈ [s.cfg.stHardwareFault, s.cfg.stFlashTimeout] ∧
          t.env.trace = s.env.trace ∧ ∀ a, t.readByte a = s.readByte a)))

/-- A well-formed command sent by the host is received by one step and run by the next (R140, R171,
R173). -/
def Obligations.SentCommandIsReceivedAndRun : Prop :=
  ∀ (s : State) (i : Instr) (rest : List RxItem), s.cfg.WellFormed → i.WellFormed s.cfg →
    i.isCommand = true → s.env.resetPending = false → s.regs.pstate = .awaitingFrame → s.regs.rxIdx = 0 →
    s.env.rx = (encode s.cfg i).map RxItem.byte ++ rest →
    ∃ u, step s = .next u ∧ u.regs.pstate = .validating ∧ u.env.rx = rest ∧
      u.env.mem = s.env.mem ∧ step u = exec i u

/-- `42_dispatch.md` R173, `60_exceptions.md` R295 and T7 of R184: a code that is none of the twelve `CC_`
values, in a frame whose CRC matched. -/
def Obligations.UnknownCodeIsUnsupported : Prop :=
  ∀ (s : State), s.cfg.WellFormed → s.env.resetPending = false → s.regs.pstate = .validating →
    s.regs.flashOpen = false → (∀ n : CmdName, s.cfg.code n ≠ s.regs.rxBody.getD 0 0) →
    ∃ t, step s = .next t ∧ t.cfg = s.cfg ∧
      t.regs = { s.regs with cmd := none }.withResponse s.cfg.rcNack s.cfg.stUnsupportedCommand [] ∧
      t.env = s.env ∧ ∀ a, t.readByte a = s.readByte a

/-- `42_dispatch.md` R174 and T8 of R184: a known code whose length does not fit the command; MEM_WRITE must
have `L >= 6` and `L = 6 + P[4]`. -/
def Obligations.MisfitLengthIsMalformed : Prop :=
  ∀ (s : State) (n : CmdName), s.cfg.WellFormed → s.env.resetPending = false →
    s.regs.pstate = .validating → s.regs.flashOpen = false →
    s.cfg.code n = s.regs.rxBody.getD 0 0 →
    (∀ l, fixedLength n = some l → s.regs.rxLen.toNat ≠ l) →
    (n = .memWrite → ¬ (6 ≤ s.regs.rxLen.toNat ∧
      s.regs.rxLen.toNat = 6 + (s.regs.rxBody.getD 5 0).toNat)) →
    ∃ t, step s = .next t ∧ t.cfg = s.cfg ∧
      t.regs = { s.regs with cmd := some n }.withResponse s.cfg.rcNack s.cfg.stMalformedLength [] ∧
      t.env = s.env ∧ ∀ a, t.readByte a = s.readByte a

/-- `42_dispatch.md` R183: `HandedOff` is terminal; the block makes no step and no port call in it, which
the model says by a fault of that name (U14, log 17). -/
def Obligations.HandedOffIsTerminal : Prop :=
  ∀ (s : State), s.env.resetPending = false → s.regs.pstate = .handedOff → step s = .fault .handedOff

/-- `70_reset_and_hazards.md` R330, R331 and `10_state.md` R42: reset can come in any state and gives the registers
the values of R42 (those the table states). That the environment stays as it is, flash content, lock and
protection among it, is the MODEL's choice (log 16): R332 leaves them to the environment. `deviceReset` is the
model's own mark in the trace (log 15, 16). -/
def Obligations.ResetRestoresTheTable : Prop :=
  ∀ (s : State), s.env.resetPending = true →
    ∃ t, step s = .next t ∧ t.cfg = s.cfg ∧
      t.regs.pstate = .awaitingFrame ∧ t.regs.rxIdx = 0 ∧ t.regs.ferr = .none ∧ t.regs.crcOk = false ∧
      t.regs.cmd = none ∧ t.regs.status = s.cfg.stOk ∧ t.regs.flashOpen = false ∧
      t.regs.seqState = .idle ∧ t.regs.seqIdx = 0 ∧ t.regs.seqList = [] ∧
      t.regs.lastCmd = 0x00 ∧ t.regs.lastStatus = s.cfg.stOk ∧
      t.env = { s.env with resetPending := false, trace := s.env.trace ++ [.deviceReset] } ∧
      ∀ a, t.readByte a = s.readByte a

/-- `10_state.md` R42: the values the reset table states, at the machine's reset state. -/
def Obligations.ResetStateIsTheTable : Prop :=
  State.reset.cfg = cfgRef ∧ State.reset.regs.pstate = .awaitingFrame ∧ State.reset.regs.rxIdx = 0 ∧
    State.reset.regs.cmd = none ∧ State.reset.regs.seqList = [] ∧ State.reset.regs.seqState = .idle ∧
    State.reset.regs.seqIdx = 0 ∧ State.reset.regs.ferr = .none ∧ State.reset.regs.crcOk = false ∧
    State.reset.regs.status = cfgRef.stOk ∧ State.reset.regs.flashOpen = false ∧
    State.reset.regs.lastCmd = 0x00 ∧ State.reset.regs.lastStatus = cfgRef.stOk ∧ cfgRef.WellFormed

/-- `60_exceptions.md` R304 (1) to (3) and the case of Timeout: taking an error pays the owed lock, sets
STATUS and leaves the failure frame to be sent. Timeout starts the next cycle with nothing sent: `FERR` has its
Timeout cleared by the start of that cycle (`10_state.md` R43, `42_dispatch.md` R172; log 22, DEDUCED), and the zeros
of the registers without a value are the model's choice (log 5). -/
def Obligations.RaiseTakesTheError : Prop :=
  ∀ (s : State) (e : Err), s.cfg.WellFormed →
    ((e = .timeout ∧ (s.raise e).env = s.env ∧
        (s.raise e).regs
          = { Regs.reset s.cfg with lastCmd := s.regs.lastCmd, lastStatus := s.regs.lastStatus }) ∨
      ∃ status, s.cfg.status e = some status ∧
        (s.raise e).regs
          = { s.regs with flashOpen := false }.withResponse s.cfg.rcNack status [] ∧
        (s.raise e).env
          = if s.regs.flashOpen then
              { s.env with locked := true, trace := s.env.trace ++ [.flashLock] }
            else s.env) ∧
    (s.raise e).cfg = s.cfg ∧ ∀ a, (s.raise e).readByte a = s.readByte a

/-- NACK completes (R100, R178, R181, R307 and R304 (4) to (6)): the failure frame goes out in one `Tx`, the
session registers are updated, the next cycle starts with the per-cycle state cleared; the zeros of the
registers without a value are the model's choice (log 5). -/
def Obligations.NackIsSentAndTheCycleEnds : Prop :=
  ∀ (s : State) (status : Byte), status ∈ s.cfg.errorCodes →
    ∃ t, exec (.nack status) s = .next t ∧ t.cfg = s.cfg ∧
      t.regs = { Regs.reset s.cfg with
        lastStatus := status
        lastCmd := if s.regs.ferr = .none then s.regs.rxBody.getD 0 0 else s.regs.lastCmd } ∧
      t.env = { s.env with
        trace := s.env.trace ++ [.tx ([2, s.cfg.rcNack, status] ++
          crcBytes s.cfg.crcWireOrder (crc s.cfg [2, s.cfg.rcNack, status]))] } ∧
      ∀ a, t.readByte a = s.readByte a

/-- ACK completes, after any command but GO_TO_ADDRESS (R100, R178, R181, R182, T12 of R184). The zeros of the
registers without a value are the model's choice (log 5). -/
def Obligations.AckIsSentAndTheCycleEnds : Prop :=
  ∀ (s : State) (data : List Byte), data.length ≤ 253 → s.regs.cmd ≠ some .goToAddress →
    ∃ t, exec (.ack s.cfg.stOk data) s = .next t ∧ t.cfg = s.cfg ∧
      t.regs = { Regs.reset s.cfg with
        lastStatus := s.cfg.stOk
        lastCmd := if s.regs.ferr = .none then s.regs.rxBody.getD 0 0 else s.regs.lastCmd } ∧
      t.env = { s.env with trace := s.env.trace ++ [.tx (encode s.cfg (.ack s.cfg.stOk data))] } ∧
      ∀ a, t.readByte a = s.readByte a

/-- The ACK of a GO_TO_ADDRESS hands over (R182, R273, R274, T13 of R184): the frame first, then the four CPU
calls in order, with the words read in validation, then `HandedOff`. Nothing is said of the other
registers, which have lost their values (R275). -/
def Obligations.AckOfGoToAddressHandsOver : Prop :=
  ∀ (s : State) (data : List Byte), data.length ≤ 253 → s.regs.cmd = some .goToAddress →
    ∃ t, exec (.ack s.cfg.stOk data) s = .next t ∧ t.cfg = s.cfg ∧ t.regs.pstate = .handedOff ∧
      t.env = { s.env with
        draws := t.env.draws
        trace := s.env.trace ++
          [.tx (encode s.cfg (.ack s.cfg.stOk data)), .cpuDisableInterrupts,
            .cpuRelocateVectorTable s.regs.argAddr, .cpuSetStackPointer s.regs.hoSp,
            .cpuJump s.regs.hoEntry] } ∧
      ∀ a, t.readByte a = s.readByte a

/-! The introspection commands. -/

/-- `43_introspection_commands.md` R200, R201: GET_VERSION answers the version byte, GET_HELP the twelve codes
in order; no port call. Both frames have `length = 1`. -/
def Obligations.VersionAndHelpAnswer : Prop :=
  ∀ (s : State),
    (∃ t, exec .getVersion s = .next t ∧ t.cfg = s.cfg ∧ t.env = s.env ∧
      t.regs = { s.regs with cmd := some .getVersion }.withResponse s.cfg.rcAck s.cfg.stOk
        [s.cfg.blVersion] ∧ ∀ a, t.readByte a = s.readByte a) ∧
    (s.cfg.WellFormed → decodeBody s.cfg 1 [s.cfg.ccGetVersion] = .ok .getVersion) ∧
    (∃ t, exec .getHelp s = .next t ∧ t.cfg = s.cfg ∧ t.env = s.env ∧
      t.regs = { s.regs with cmd := some .getHelp }.withResponse s.cfg.rcAck s.cfg.stOk
        [s.cfg.ccGetVersion, s.cfg.ccGetHelp, s.cfg.ccGetChipId, s.cfg.ccGetReadProtectionStatus,
          s.cfg.ccGoToAddress, s.cfg.ccFlashErase, s.cfg.ccMemWrite, s.cfg.ccEnableRwProtect,
          s.cfg.ccMemRead, s.cfg.ccReadSectorProtectionStatus, s.cfg.ccOtpRead,
          s.cfg.ccDisableRwProtect] ∧ ∀ a, t.readByte a = s.readByte a) ∧
    (s.cfg.WellFormed → decodeBody s.cfg 1 [s.cfg.ccGetHelp] = .ok .getHelp)

/-- `43_introspection_commands.md` R202, R203, R204: the status commands make one port call and answer what the
port answers, a u16 in `FIELD_ORDER`. The frames have `length = 1`. -/
def Obligations.StatusCommandsAnswerThePort : Prop :=
  ∀ (s : State) (bytes16 : Half → List Byte),
    (bytes16 = fun v => if s.cfg.fieldOrder = .little then [v.extractLsb' 0 8, v.extractLsb' 8 8]
      else [v.extractLsb' 8 8, v.extractLsb' 0 8]) →
    (∃ t, exec .getChipId s = .next t ∧ t.cfg = s.cfg ∧
      t.env = { s.env with trace := s.env.trace ++ [.chipId s.env.driver.chipId] } ∧
      t.regs = { s.regs with cmd := some .getChipId }.withResponse s.cfg.rcAck s.cfg.stOk
        (bytes16 s.env.driver.chipId) ∧ ∀ a, t.readByte a = s.readByte a) ∧
    (∃ t, exec .getReadProtectionStatus s = .next t ∧ t.cfg = s.cfg ∧
      t.env = { s.env with trace := s.env.trace ++ [.rdpStatus s.env.driver.rdpStatus] } ∧
      t.regs = { s.regs with cmd := some .getReadProtectionStatus }.withResponse s.cfg.rcAck s.cfg.stOk
        [s.env.driver.rdpStatus] ∧ ∀ a, t.readByte a = s.readByte a) ∧
    (∃ t, exec .readSectorProtectionStatus s = .next t ∧ t.cfg = s.cfg ∧
      t.env = { s.env with trace := s.env.trace ++ [.sectorProtStatus s.env.driver.sectorProt] } ∧
      t.regs = { s.regs with cmd := some .readSectorProtectionStatus }.withResponse s.cfg.rcAck s.cfg.stOk
        (bytes16 s.env.driver.sectorProt) ∧ ∀ a, t.readByte a = s.readByte a) ∧
    (s.cfg.WellFormed →
      decodeBody s.cfg 1 [s.cfg.ccGetChipId] = .ok .getChipId ∧
      decodeBody s.cfg 1 [s.cfg.ccGetReadProtectionStatus] = .ok .getReadProtectionStatus ∧
      decodeBody s.cfg 1 [s.cfg.ccReadSectorProtectionStatus] = .ok .readSectorProtectionStatus)

/-! FLASH_ERASE. -/

/-- `44_flash_commands.md` R222, with R221: the erase checks in their order, without a port call; a request that
passes them has `SEQ_LIST` set to what it asks for and ends in no status of the validation class. -/
def Obligations.EraseChecksDecide : Prop :=
  ∀ (s : State) (sector count : Byte), s.cfg.WellFormed → s.regs.flashOpen = false →
    (∀ status, s.cfg.massErase ≠ some sector →
      ((∃ k ∈ s.cfg.reserved, sector.toNat ≤ k ∧ k < sector.toNat + count.toNat) ∧
          status = s.cfg.stAddressProtected) ∨
        ((¬ ∃ k ∈ s.cfg.reserved, sector.toNat ≤ k ∧ k < sector.toNat + count.toNat) ∧
          (count = 0 ∨ s.cfg.nsectors < sector.toNat + count.toNat) ∧ status = s.cfg.stOutOfRange) →
      ∃ t, exec (.flashErase sector count) s = .next t ∧ t.cfg = s.cfg ∧ t.env = s.env ∧
        t.regs = { s.regs with
          cmd := some .flashErase, argSector := sector, argNsec := count }.withResponse
            s.cfg.rcNack status [] ∧
        ∀ a, t.readByte a = s.readByte a) ∧
    (EraseAllowed s.cfg sector count →
      ∃ t, exec (.flashErase sector count) s = .next t ∧
        (∀ k, k ∈ t.regs.seqList ↔ Requested s.cfg sector count k) ∧
        t.regs.status ∈ [s.cfg.stOk, s.cfg.stHardwareFault, s.cfg.stFlashTimeout, s.cfg.stVerifyFailed])

/-- `44_flash_commands.md` R223, R224, R231 and `20_memory.md` R70: in the reference environment, with no
requested sector write-protected, an erase that passes its checks unlocks, erases each requested sector once
in ascending order, locks, verifies, and answers `ST_OK`; the requested sectors read as erased and every
other byte as before. -/
def Obligations.EraseSucceeds : Prop :=
  ∀ (s : State) (sector count : Byte), EraseAllowed s.cfg sector count → s.env.unitPlan = [] →
    (∀ k, Requested s.cfg sector count k → k ∉ s.env.driver.wprot) →
    ∃ t ks, exec (.flashErase sector count) s = .next t ∧ t.cfg = s.cfg ∧
      ks.Pairwise (· < ·) ∧ (∀ k, k ∈ ks ↔ Requested s.cfg sector count k) ∧
      t.regs = { s.regs with
        cmd := some .flashErase, argSector := sector, argNsec := count
        seqList := ks, seqState := .verify, seqIdx := ks.length, flashOpen := false }.withResponse
          s.cfg.rcAck s.cfg.stOk [] ∧
      t.env = { s.env with
        mem := t.env.mem, locked := true
        trace := s.env.trace ++ [.flashUnlock] ++ ks.map (fun k => .flashEraseSector k .ok) ++ [.flashLock]
          ++ ks.map (fun k => .verifyErased (sectorBase s.cfg k) (sectorSize s.cfg k) true) } ∧
      ∀ a, t.readByte a = if ks.any (fun k => inSector s.cfg k a) then s.cfg.erasedByte else s.readByte a

/-- `44_flash_commands.md` R229 with R301 and R303 of `60_exceptions.md`: when the unit call with index `j`
answers a failure, no further unit is asked for, the owed lock is issued, nothing is verified, the error is
the status; the units before are done, the sectors after are as they were. Nothing is said of the failing
unit's content (U1). -/
def Obligations.EraseStopsAtTheFault : Prop :=
  ∀ (s : State) (sector count : Byte) (j k : Nat) (e : DriverFault) (plans : List UnitPlan),
    s.cfg.WellFormed → EraseAllowed s.cfg sector count →
    s.env.unitPlan = List.replicate j .asReference ++ .fails e :: plans →
    (∀ k, Requested s.cfg sector count k → k ∉ s.env.driver.wprot) →
    (eraseRequest s.cfg sector count)[j]? = some k →
    ∃ t, exec (.flashErase sector count) s = .next t ∧ t.cfg = s.cfg ∧
      t.regs = { s.regs with
        cmd := some .flashErase, argSector := sector, argNsec := count
        seqList := eraseRequest s.cfg sector count, seqState := .lock, seqIdx := j
        flashOpen := false }.withResponse s.cfg.rcNack
          (match e with | .hardwareFault => s.cfg.stHardwareFault | .timeout => s.cfg.stFlashTimeout) [] ∧
      t.env = { s.env with
        mem := t.env.mem, locked := true, unitPlan := plans, draws := t.env.draws
        trace := s.env.trace ++ [.flashUnlock]
          ++ ((eraseRequest s.cfg sector count).take j).map (fun i => .flashEraseSector i .ok)
          ++ [.flashEraseSector k e.answer, .flashLock] } ∧
      ∀ a, inSector s.cfg k a = false →
        t.readByte a = if ((eraseRequest s.cfg sector count).take j).any (fun i => inSector s.cfg i a)
          then s.cfg.erasedByte else s.readByte a

/-- `44_flash_commands.md` R224 and `60_exceptions.md` R302 with U18: an erase that passes its checks, of one sector
or several or a mass erase, whose calls all answer `Ok`, and where a call left a byte of its sector that is not
erased, ends in VerifyFailed; the verification of a sector answers whether all its bytes are erased, nothing is
erased a second time, and every byte is as the calls left it. -/
def Obligations.EraseVerifyFails : Prop :=
  ∀ (s : State) (sector count : Byte), s.cfg.WellFormed → EraseAllowed s.cfg sector count →
    s.NoFailure (eraseRequest s.cfg sector count).length →
    (∀ k, Requested s.cfg sector count k → k ∉ s.env.driver.wprot) →
    ∀ (j k x : Nat), (eraseRequest s.cfg sector count)[j]? = some k → inSector s.cfg k x = true →
    s.unitLeaves j x s.cfg.erasedByte ≠ s.cfg.erasedByte →
    ∃ t, ∃ answer : Nat → Bool, exec (.flashErase sector count) s = .next t ∧ t.cfg = s.cfg ∧
      t.regs = { s.regs with
        cmd := some .flashErase, argSector := sector, argNsec := count
        seqList := eraseRequest s.cfg sector count, seqState := .verify
        seqIdx := (eraseRequest s.cfg sector count).length, flashOpen := false }.withResponse
          s.cfg.rcNack s.cfg.stVerifyFailed [] ∧
      t.env = { s.env with
        mem := t.env.mem, locked := true
        unitPlan := s.env.unitPlan.drop (eraseRequest s.cfg sector count).length
        trace := s.env.trace ++ [.flashUnlock]
          ++ (eraseRequest s.cfg sector count).map (fun i => .flashEraseSector i .ok) ++ [.flashLock]
          ++ (eraseRequest s.cfg sector count).map
              (fun i => .verifyErased (sectorBase s.cfg i) (sectorSize s.cfg i) (answer i)) } ∧
      (∀ i, answer i = true ↔ ∀ a, inSector s.cfg i a = true → t.readByte a = s.cfg.erasedByte) ∧
      (∀ l i a, (eraseRequest s.cfg sector count)[l]? = some i → inSector s.cfg i a = true →
        t.readByte a = s.unitLeaves l a s.cfg.erasedByte) ∧
      ∀ a, (∀ i ∈ eraseRequest s.cfg sector count, inSector s.cfg i a = false) →
        t.readByte a = s.readByte a

/-- `44_flash_commands.md` R237: a mass erase never fails a check, whatever the driver does, and leaves every
reserved byte as it was. -/
def Obligations.MassEraseSparesTheBootloader : Prop :=
  ∀ (s : State) (sector count : Byte), s.cfg.WellFormed → s.cfg.massErase = some sector →
    ∃ t, exec (.flashErase sector count) s = .next t ∧
      t.regs.status ∈ [s.cfg.stOk, s.cfg.stHardwareFault, s.cfg.stFlashTimeout, s.cfg.stVerifyFailed] ∧
      ∀ a, reservedAddr s.cfg a = true → t.readByte a = s.readByte a

/-- `44_flash_commands.md` R238: in the reference environment an erase that passes its checks ends with every
requested sector erased and with `ST_OK`; a second identical command makes the same port calls, answers `ST_OK`
and leaves the same flash content. -/
def Obligations.EraseIsIdempotent : Prop :=
  ∀ (s : State) (sector count : Byte), EraseAllowed s.cfg sector count → s.env.unitPlan = [] →
    (∀ k, Requested s.cfg sector count k → k ∉ s.env.driver.wprot) →
    ∃ t es, exec (.flashErase sector count) s = .next t ∧ t.regs.status = s.cfg.stOk ∧
      t.env.trace = s.env.trace ++ es ∧
      (∀ k a, Requested s.cfg sector count k → inSector s.cfg k a = true →
        t.readByte a = s.cfg.erasedByte) ∧
      ∀ (u : State), u.cfg = s.cfg → u.env.mem = t.env.mem → u.env.driver = t.env.driver →
        u.env.unitPlan = t.env.unitPlan →
        ∃ v, exec (.flashErase sector count) u = .next v ∧ v.regs.status = s.cfg.stOk ∧
          v.env.trace = u.env.trace ++ es ∧ v.env.mem = t.env.mem

/-- The frame of FLASH_ERASE, whatever the driver answers: only the registers named may change, and no byte
outside the requested sectors does. -/
def Obligations.EraseFrame : Prop :=
  ∀ (s t : State) (sector count : Byte), exec (.flashErase sector count) s = .next t →
    t.cfg = s.cfg ∧
    t.regs = { s.regs with
      pstate := .responding, cmd := some .flashErase, argSector := sector, argNsec := count
      seqList := t.regs.seqList, seqState := t.regs.seqState, seqIdx := t.regs.seqIdx
      flashOpen := t.regs.flashOpen, status := t.regs.status
      txLen := t.regs.txLen, txCode := t.regs.txCode, txPayload := t.regs.txPayload } ∧
    t.env = { s.env with
      mem := t.env.mem, locked := t.env.locked, unitPlan := t.env.unitPlan, draws := t.env.draws
      trace := t.env.trace } ∧
    ∀ a, (∀ k ∈ eraseRequest s.cfg sector count, inSector s.cfg k a = false) →
      t.readByte a = s.readByte a

/-! MEM_WRITE. -/

/-- `44_flash_commands.md` R225: the program checks in their order, without a port call; a request that passes
them ends in no status of the validation class. -/
def Obligations.ProgramChecksDecide : Prop :=
  ∀ (s : State) (address : Word) (data : List Byte), s.cfg.WellFormed → s.regs.flashOpen = false →
    (∀ status,
      (if address.toNat % s.cfg.wordBytes ≠ 0 ∨ data.length % s.cfg.wordBytes ≠ 0 then
          status = s.cfg.stAlignmentError
        else if ∃ i < data.length, reservedAddr s.cfg (address.toNat + i) = true then
          status = s.cfg.stAddressProtected
        else ¬ (1 ≤ data.length ∧ s.cfg.flashBase ≤ address.toNat ∧
            address.toNat + data.length ≤ s.cfg.flashEnd) ∧ status = s.cfg.stOutOfRange) →
      ∃ t, exec (.memWrite address data) s = .next t ∧ t.cfg = s.cfg ∧ t.env = s.env ∧
        t.regs = { s.regs with
          cmd := some .memWrite, argAddr := address
          argCount := BitVec.ofNat 8 data.length }.withResponse s.cfg.rcNack status [] ∧
        ∀ a, t.readByte a = s.readByte a) ∧
    (ProgramAllowed s.cfg address.toNat data.length →
      ∃ t, exec (.memWrite address data) s = .next t ∧
        t.regs.status ∈ [s.cfg.stOk, s.cfg.stHardwareFault, s.cfg.stFlashTimeout, s.cfg.stVerifyFailed])

/-- `44_flash_commands.md` R226, R227, R232 and `20_memory.md` R70, R75: in the reference environment, over
erased bytes in sectors that are not write-protected, a write that passes its checks unlocks, programs each
word in ascending order, locks, reads back, and answers `ST_OK`; the data bytes stand at their addresses and
every other byte is as before. -/
def Obligations.ProgramSucceeds : Prop :=
  ∀ (s : State) (address : Word) (data : List Byte), s.cfg.WellFormed →
    ProgramAllowed s.cfg address.toNat data.length → s.env.unitPlan = [] →
    (∀ i < data.length, s.readByte (address.toNat + i) = s.cfg.erasedByte) →
    (∀ i < data.length, s.writeProtected (address.toNat + i) = false) →
    ∃ t, exec (.memWrite address data) s = .next t ∧ t.cfg = s.cfg ∧
      t.regs = { s.regs with
        cmd := some .memWrite, argAddr := address, argCount := BitVec.ofNat 8 data.length
        seqState := .verify, seqIdx := data.length / s.cfg.wordBytes, flashOpen := false }.withResponse
          s.cfg.rcAck s.cfg.stOk [] ∧
      t.env = { s.env with
        mem := t.env.mem, locked := true
        trace := s.env.trace ++ [.flashUnlock]
          ++ (List.range (data.length / s.cfg.wordBytes)).map (fun i =>
              .flashProgramWord (address.toNat + i * s.cfg.wordBytes)
                (leValue ((data.drop (i * s.cfg.wordBytes)).take s.cfg.wordBytes)) .ok)
          ++ [.flashLock, .memRead address.toNat data.length data] } ∧
      ∀ a, t.readByte a =
        if address.toNat ≤ a ∧ a < address.toNat + data.length then data.getD (a - address.toNat) 0
        else s.readByte a

/-- `44_flash_commands.md` R229: a program whose word with index `j` fails stops there; the words before are
done, the words after untouched. Nothing is said of the failing word's content (U1). -/
def Obligations.ProgramStopsAtTheFault : Prop :=
  ∀ (s : State) (address : Word) (data : List Byte) (j : Nat) (e : DriverFault) (plans : List UnitPlan),
    s.cfg.WellFormed → ProgramAllowed s.cfg address.toNat data.length →
    s.env.unitPlan = List.replicate j .asReference ++ .fails e :: plans →
    (∀ i < data.length, s.readByte (address.toNat + i) = s.cfg.erasedByte) →
    (∀ i < data.length, s.writeProtected (address.toNat + i) = false) →
    j < data.length / s.cfg.wordBytes →
    ∃ t, exec (.memWrite address data) s = .next t ∧ t.cfg = s.cfg ∧
      t.regs = { s.regs with
        cmd := some .memWrite, argAddr := address, argCount := BitVec.ofNat 8 data.length
        seqState := .lock, seqIdx := j, flashOpen := false }.withResponse s.cfg.rcNack
          (match e with | .hardwareFault => s.cfg.stHardwareFault | .timeout => s.cfg.stFlashTimeout) [] ∧
      t.env = { s.env with
        mem := t.env.mem, locked := true, unitPlan := plans, draws := t.env.draws
        trace := s.env.trace ++ [.flashUnlock]
          ++ (List.range j).map (fun i =>
              .flashProgramWord (address.toNat + i * s.cfg.wordBytes)
                (leValue ((data.drop (i * s.cfg.wordBytes)).take s.cfg.wordBytes)) .ok)
          ++ [.flashProgramWord (address.toNat + j * s.cfg.wordBytes)
                (leValue ((data.drop (j * s.cfg.wordBytes)).take s.cfg.wordBytes)) e.answer, .flashLock] } ∧
      ∀ a, ¬ (address.toNat + j * s.cfg.wordBytes ≤ a ∧ a < address.toNat + (j + 1) * s.cfg.wordBytes) →
        t.readByte a =
          if address.toNat ≤ a ∧ a < address.toNat + j * s.cfg.wordBytes then
            data.getD (a - address.toNat) 0
          else s.readByte a

/-- `44_flash_commands.md` R227, R230 and `20_memory.md` R70 with U2, U18: a write that passes its checks, over any
content, and whose calls all answer `Ok`, asks for each word once and reads all its bytes back after the lock;
the read-back alone decides between success and VerifyFailed. A word over erased bytes, or whose call the plan
answers with other content, holds what the call leaves; the content of a word over bytes that are not erased is
a free value. Nothing outside the request changes. -/
def Obligations.ProgramOverUnerasedIsJudgedByReadBack : Prop :=
  ∀ (s : State) (address : Word) (data : List Byte), s.cfg.WellFormed →
    ProgramAllowed s.cfg address.toNat data.length →
    s.NoFailure (data.length / s.cfg.wordBytes) →
    (∀ i < data.length, s.writeProtected (address.toNat + i) = false) →
    ∃ t back, exec (.memWrite address data) s = .next t ∧ t.cfg = s.cfg ∧
      t.regs = { s.regs with
        cmd := some .memWrite, argAddr := address, argCount := BitVec.ofNat 8 data.length
        seqState := .verify, seqIdx := data.length / s.cfg.wordBytes, flashOpen := false }.withResponse
          t.regs.txCode t.regs.status [] ∧
      t.env = { s.env with
        mem := t.env.mem, locked := true, draws := t.env.draws
        unitPlan := s.env.unitPlan.drop (data.length / s.cfg.wordBytes)
        trace := s.env.trace ++ [.flashUnlock]
          ++ (List.range (data.length / s.cfg.wordBytes)).map (fun i =>
              .flashProgramWord (address.toNat + i * s.cfg.wordBytes)
                (leValue ((data.drop (i * s.cfg.wordBytes)).take s.cfg.wordBytes)) .ok)
          ++ [.flashLock, .memRead address.toNat data.length back] } ∧
      back.length = data.length ∧ (∀ i < data.length, back.getD i 0 = t.readByte (address.toNat + i)) ∧
      ((∀ i < data.length, t.readByte (address.toNat + i) = data.getD i 0) →
        t.regs.txCode = s.cfg.rcAck ∧ t.regs.status = s.cfg.stOk) ∧
      ((¬ ∀ i < data.length, t.readByte (address.toNat + i) = data.getD i 0) →
        t.regs.txCode = s.cfg.rcNack ∧ t.regs.status = s.cfg.stVerifyFailed) ∧
      (∀ j i, j < data.length / s.cfg.wordBytes → i < s.cfg.wordBytes →
        ((∃ cells, s.env.unitPlan[j]? = some (.okLeaving cells)) ∨
          ∀ l < s.cfg.wordBytes, s.readByte (address.toNat + j * s.cfg.wordBytes + l) = s.cfg.erasedByte) →
        t.readByte (address.toNat + j * s.cfg.wordBytes + i)
          = s.unitLeaves j (address.toNat + j * s.cfg.wordBytes + i)
              (data.getD (j * s.cfg.wordBytes + i) 0)) ∧
      ∀ a, ¬ (address.toNat ≤ a ∧ a < address.toNat + data.length) → t.readByte a = s.readByte a

/-- The frame of MEM_WRITE, whatever the driver answers: only the registers named may change, and no byte
outside the addressed range does. -/
def Obligations.ProgramFrame : Prop :=
  ∀ (s t : State) (address : Word) (data : List Byte), s.cfg.WellFormed →
    exec (.memWrite address data) s = .next t →
    t.cfg = s.cfg ∧
    t.regs = { s.regs with
      pstate := .responding, cmd := some .memWrite, argAddr := address
      argCount := BitVec.ofNat 8 data.length
      seqState := t.regs.seqState, seqIdx := t.regs.seqIdx
      flashOpen := t.regs.flashOpen, status := t.regs.status
      txLen := t.regs.txLen, txCode := t.regs.txCode, txPayload := t.regs.txPayload } ∧
    t.env = { s.env with
      mem := t.env.mem, locked := t.env.locked, unitPlan := t.env.unitPlan, draws := t.env.draws
      trace := t.env.trace } ∧
    ∀ a, ¬ (address.toNat ≤ a ∧ a < address.toNat + data.length) → t.readByte a = s.readByte a

/-! MEM_READ and OTP_READ. -/

/-- `44_flash_commands.md` R228, R234: the read checks of both commands, bounds before read protection. -/
def Obligations.ReadChecksRefuse : Prop :=
  ∀ (s : State) (address : Word) (count : Byte), s.cfg.WellFormed → s.regs.flashOpen = false →
    ∀ (i : Instr) (name : CmdName) (base limit : Nat),
      (i = .memRead address count ∧ name = .memRead ∧ base = s.cfg.flashBase ∧ limit = s.cfg.flashEnd) ∨
        (i = .otpRead address count ∧ name = .otpRead ∧ base = s.cfg.otpBase ∧ limit = s.cfg.otpEnd) →
    ∀ (status : Byte) (es : List Event),
      (if count.toNat = 0 ∨ 253 < count.toNat ∨
            ¬ (base ≤ address.toNat ∧ address.toNat + count.toNat ≤ limit) then
          status = s.cfg.stOutOfRange ∧ es = []
        else (∃ j < count.toNat, s.readProtected (address.toNat + j) = true) ∧
          status = s.cfg.stReadProtected ∧ es = [.isReadProtected address.toNat count.toNat true]) →
    ∃ t, exec i s = .next t ∧ t.cfg = s.cfg ∧ t.env = { s.env with trace := s.env.trace ++ es } ∧
      t.regs = { s.regs with cmd := some name, argAddr := address, argCount := count }.withResponse
        s.cfg.rcNack status [] ∧
      ∀ a, t.readByte a = s.readByte a

/-- `44_flash_commands.md` R228, R233, R234: a read that passes its checks answers the bytes at its addresses,
lowest first, and changes nothing. -/
def Obligations.ReadAnswersTheBytes : Prop :=
  ∀ (s : State) (address : Word) (count : Byte),
    ∀ (i : Instr) (name : CmdName) (base limit : Nat),
      (i = .memRead address count ∧ name = .memRead ∧ base = s.cfg.flashBase ∧ limit = s.cfg.flashEnd) ∨
        (i = .otpRead address count ∧ name = .otpRead ∧ base = s.cfg.otpBase ∧ limit = s.cfg.otpEnd) →
    1 ≤ count.toNat → count.toNat ≤ 253 → base ≤ address.toNat → address.toNat + count.toNat ≤ limit →
    (∀ j < count.toNat, s.readProtected (address.toNat + j) = false) →
    ∃ t data, exec i s = .next t ∧ t.cfg = s.cfg ∧
      data.length = count.toNat ∧ (∀ j < count.toNat, data.getD j 0 = s.readByte (address.toNat + j)) ∧
      t.env = { s.env with
        trace := s.env.trace ++ [.isReadProtected address.toNat count.toNat false,
          .memRead address.toNat count.toNat data] } ∧
      t.regs = { s.regs with cmd := some name, argAddr := address, argCount := count }.withResponse
        s.cfg.rcAck s.cfg.stOk data ∧
      ∀ a, t.readByte a = s.readByte a

/-! The protection commands. -/

/-- `44_flash_commands.md` R235: ENABLE_RW_PROTECT refuses an empty mask, a bit at or above `NSECTORS` and a
mode that is neither 1 nor 2. -/
def Obligations.ProtectChecksRefuse : Prop :=
  ∀ (s : State) (mask : Half) (mode : Byte), s.cfg.WellFormed → s.regs.flashOpen = false →
    (mask = 0 ∨ (∃ k, s.cfg.nsectors ≤ k ∧ mask.getLsbD k = true) ∨ ¬ (mode = 1 ∨ mode = 2)) →
    ∃ t, exec (.enableRwProtect mask mode) s = .next t ∧ t.cfg = s.cfg ∧ t.env = s.env ∧
      t.regs = { s.regs with
        cmd := some .enableRwProtect, argMask := mask, argMode := mode }.withResponse
          s.cfg.rcNack s.cfg.stOutOfRange [] ∧
      ∀ a, t.readByte a = s.readByte a

/-- `44_flash_commands.md` R235: ENABLE_RW_PROTECT makes one port call and maps its answer. -/
def Obligations.EnableProtectMapsTheAnswer : Prop :=
  ∀ (s : State) (mask : Half) (mode : Byte), s.cfg.WellFormed → s.regs.flashOpen = false →
    mask ≠ 0 → (∀ k, s.cfg.nsectors ≤ k → mask.getLsbD k = false) → (mode = 1 ∨ mode = 2) →
    ∃ t, ∃ ans : PortAnswer, exec (.enableRwProtect mask mode) s = .next t ∧ t.cfg = s.cfg ∧
      t.env = { s.env with
        driver := t.env.driver, protPlan := s.env.protPlan.tail, draws := t.env.draws
        trace := s.env.trace ++ [.flashEnableProtection mask mode ans] } ∧
      (ans = match s.env.protPlan with
        | .fails e :: _ => e.answer
        | _ => .ok) ∧
      t.regs = { s.regs with
        cmd := some .enableRwProtect, argMask := mask, argMode := mode }.withResponse
          (if ans = PortAnswer.ok then s.cfg.rcAck else s.cfg.rcNack)
          (match ans with
            | .ok => s.cfg.stOk
            | .hardwareFault => s.cfg.stHardwareFault
            | .timeout => s.cfg.stFlashTimeout) [] ∧
      ∀ a, t.readByte a = s.readByte a

/-- `44_flash_commands.md` R236: DISABLE_RW_PROTECT makes one port call and maps its answer. -/
def Obligations.DisableProtectMapsTheAnswer : Prop :=
  ∀ (s : State), s.cfg.WellFormed → s.regs.flashOpen = false →
    ∃ t, ∃ ans : PortAnswer, exec .disableRwProtect s = .next t ∧ t.cfg = s.cfg ∧
      t.env = { s.env with
        driver := t.env.driver, protPlan := s.env.protPlan.tail, draws := t.env.draws
        trace := s.env.trace ++ [.flashDisableProtection ans] } ∧
      (ans = match s.env.protPlan with
        | .fails e :: _ => e.answer
        | _ => .ok) ∧
      t.regs = { s.regs with cmd := some .disableRwProtect }.withResponse
          (if ans = PortAnswer.ok then s.cfg.rcAck else s.cfg.rcNack)
          (match ans with
            | .ok => s.cfg.stOk
            | .hardwareFault => s.cfg.stHardwareFault
            | .timeout => s.cfg.stFlashTimeout) [] ∧
      ∀ a, t.readByte a = s.readByte a

/-- The scenario of program P5 of `95_test_vectors.md` with R70 and R79 of `20_memory.md`, which rests on the MODEL's
reading of the reference driver's protection (log 13): a sector that ENABLE_RW_PROTECT selected refuses its
erase and any write into it with HardwareFault and keeps its content, until DISABLE_RW_PROTECT. -/
def Obligations.ProtectedSectorRefusesErase : Prop :=
  ∀ (s : State) (mask : Half) (mode sector : Byte), s.cfg.WellFormed → s.regs.flashOpen = false →
    (∀ k, s.cfg.nsectors ≤ k → mask.getLsbD k = false) → (mode = 1 ∨ mode = 2) →
    s.env.protPlan = [] → s.env.unitPlan = [] →
    mask.getLsbD sector.toNat = true → sector.toNat ∉ s.cfg.reserved → s.cfg.massErase ≠ some sector →
    ∃ t, exec (.enableRwProtect mask mode) s = .next t ∧ t.regs.status = s.cfg.stOk ∧
      (∃ u, exec (.flashErase sector 1) t = .next u ∧ u.regs.status = s.cfg.stHardwareFault ∧
        ∀ a, u.readByte a = s.readByte a) ∧
      (∀ (address : Word) (data : List Byte), ProgramAllowed s.cfg address.toNat data.length →
        (∃ i < data.length, inSector s.cfg sector.toNat (address.toNat + i) = true) →
        ∃ u, exec (.memWrite address data) t = .next u ∧ u.regs.status = s.cfg.stHardwareFault ∧
          (∀ a, inSector s.cfg sector.toNat a = true → u.readByte a = s.readByte a) ∧
          (inSector s.cfg sector.toNat address.toNat = true → ∀ a, u.readByte a = s.readByte a)) ∧
      ∃ v w, exec .disableRwProtect t = .next v ∧ exec (.flashErase sector 1) v = .next w ∧
        w.regs.status = s.cfg.stOk

/-! GO_TO_ADDRESS. -/

/-- `45_handoff.md` R272: the target validation in its order: outside the application region nothing is read;
inside it, the two words are read and an implausible stack pointer is refused. -/
def Obligations.JumpTargetIsRefused : Prop :=
  ∀ (s : State) (address : Word) (sp entry : Word), s.cfg.WellFormed → s.regs.flashOpen = false →
    sp = le32 (s.readByte address.toNat) (s.readByte (address.toNat + 1))
      (s.readByte (address.toNat + 2)) (s.readByte (address.toNat + 3)) →
    entry = le32 (s.readByte (address.toNat + 4)) (s.readByte (address.toNat + 5))
      (s.readByte (address.toNat + 6)) (s.readByte (address.toNat + 7)) →
    (¬ (s.cfg.appBase ≤ address.toNat ∧ address.toNat + 8 ≤ s.cfg.appEnd) →
      ∃ t, exec (.goToAddress address) s = .next t ∧ t.cfg = s.cfg ∧ t.env = s.env ∧
        t.regs = { s.regs with cmd := some .goToAddress, argAddr := address }.withResponse
          s.cfg.rcNack s.cfg.stInvalidTarget [] ∧ ∀ a, t.readByte a = s.readByte a) ∧
    (s.cfg.appBase ≤ address.toNat ∧ address.toNat + 8 ≤ s.cfg.appEnd →
      (sp = 0 ∨ sp.toNat < s.cfg.ramBase ∨ s.cfg.ramEnd < sp.toNat) →
      ∃ t b0 b1, exec (.goToAddress address) s = .next t ∧ t.cfg = s.cfg ∧
        t.env = { s.env with
          trace := s.env.trace ++ [.memRead address.toNat 4 b0, .memRead (address.toNat + 4) 4 b1] } ∧
        t.regs = { s.regs with
          cmd := some .goToAddress, argAddr := address, hoSp := sp, hoEntry := entry }.withResponse
            s.cfg.rcNack s.cfg.stInvalidTarget [] ∧ ∀ a, t.readByte a = s.readByte a)

/-- `45_handoff.md` R271, R272: a plausible target is answered `ST_OK`, with the two words kept for the
hand-off. -/
def Obligations.JumpTargetIsAccepted : Prop :=
  ∀ (s : State) (address : Word) (sp entry : Word), s.cfg.WellFormed →
    s.cfg.appBase ≤ address.toNat → address.toNat + 8 ≤ s.cfg.appEnd →
    sp = le32 (s.readByte address.toNat) (s.readByte (address.toNat + 1))
      (s.readByte (address.toNat + 2)) (s.readByte (address.toNat + 3)) →
    entry = le32 (s.readByte (address.toNat + 4)) (s.readByte (address.toNat + 5))
      (s.readByte (address.toNat + 6)) (s.readByte (address.toNat + 7)) →
    sp ≠ 0 → s.cfg.ramBase ≤ sp.toNat → sp.toNat ≤ s.cfg.ramEnd →
    ∃ t b0 b1, exec (.goToAddress address) s = .next t ∧ t.cfg = s.cfg ∧
      t.env = { s.env with
        trace := s.env.trace ++ [.memRead address.toNat 4 b0, .memRead (address.toNat + 4) 4 b1] } ∧
      t.regs = { s.regs with
        cmd := some .goToAddress, argAddr := address, hoSp := sp, hoEntry := entry }.withResponse
          s.cfg.rcAck s.cfg.stOk [] ∧ ∀ a, t.readByte a = s.readByte a

/-- The source's "Hand-off safety" (`45_handoff.md` R272): a target whose stack-pointer word is `0x00000000` or
`0xFFFFFFFF` fails with InvalidTarget, and no CPU call is made by the command or by the NACK that follows. -/
def Obligations.HandOffSafety : Prop :=
  ∀ (s : State) (address : Word), s.cfg.WellFormed → s.regs.flashOpen = false →
    s.env.resetPending = false →
    le32 (s.readByte address.toNat) (s.readByte (address.toNat + 1)) (s.readByte (address.toNat + 2))
      (s.readByte (address.toNat + 3)) ∈ [(0x00000000 : Word), 0xFFFFFFFF] →
    ∃ t u es, exec (.goToAddress address) s = .next t ∧ t.regs.status = s.cfg.stInvalidTarget ∧
      step t = .next u ∧ u.regs.pstate = .awaitingFrame ∧
      u.env.trace = s.env.trace ++ es ∧ ∀ e ∈ es, e.isCpu = false

/-! The whole machine. -/

/-- No step writes a field of `CFG` (`10_state.md` R38). -/
def Obligations.NoStepWritesCfg : Prop :=
  ∀ (s t : State), step s = .next t → t.cfg = s.cfg

/-- The transition table of `42_dispatch.md` R184: where each protocol state can go, and that only the ACK of a
GO_TO_ADDRESS leads to `HandedOff` (R182). `Validating` and `Executing` go to `Responding` in one step, the
model's granularity (log 4). That the response in the `TX_` registers decides, and `STATUS` where they hold none, is
the model's choice in states that no run reaches (log 25, 34). -/
def Obligations.TransitionsFollowTheTable : Prop :=
  ∀ (s t : State), s.env.resetPending = false → step s = .next t →
    (s.regs.pstate = .awaitingFrame →
      t.regs.pstate = .awaitingFrame ∨ t.regs.pstate = .validating ∨ t.regs.pstate = .responding) ∧
    (s.regs.pstate = .validating → t.regs.pstate = .responding) ∧
    (s.regs.pstate = .executing → t.regs.pstate = .responding) ∧
    (s.regs.pstate = .responding →
      if s.regs.cmd = some .goToAddress ∧
          ((s.regs.txCode = s.cfg.rcAck ∧ s.regs.txPayload.head? = some s.cfg.stOk) ∨
            ((decodeResponseBody s.cfg s.regs.txCode s.regs.txPayload).toOption = none ∧
              s.regs.status = s.cfg.stOk))
      then t.regs.pstate = .handedOff else t.regs.pstate = .awaitingFrame) ∧
    s.regs.pstate ≠ .handedOff

/-- `42_dispatch.md` R180 and the phases of R184: every port call belongs to its phase: `Rx` only in
`AwaitingFrame`; flash, status, protection and read calls only while a command is validated and executed; `Tx`
and the CPU calls only in `Responding`. -/
def Obligations.PortCallsKeepTheirPhase : Prop :=
  ∀ (s t : State), s.env.resetPending = false → s.regs.flashOpen = false → step s = .next t →
    ∃ es, t.env.trace = s.env.trace ++ es ∧ ∀ e ∈ es,
      (e.isRx = true → s.regs.pstate = .awaitingFrame) ∧
      (e.isExecution = true → s.regs.pstate = .validating ∨ s.regs.pstate = .executing) ∧
      (e.isTx = true ∨ e.isCpu = true → s.regs.pstate = .responding)

/-- `42_dispatch.md` R179: the step in `Responding` makes exactly one `Tx` call, every other step none. -/
def Obligations.OneTxPerResponse : Prop :=
  ∀ (s t : State), s.env.resetPending = false → step s = .next t →
    ∃ es, t.env.trace = s.env.trace ++ es ∧
      (es.filter Event.isTx).length = if s.regs.pstate = .responding then 1 else 0

/-- `20_memory.md` R81 and `44_flash_commands.md` R229: in the port calls of any step, each `FlashUnlock` is
followed by exactly one `FlashLock`, every erase and program call lies between them and nothing else does, and
every verification read, and the read-back of a program, comes after that `FlashLock`. A step that takes up an
open flash in `Executing` begins after the `FlashUnlock` and pays the lock; `FLASH_OPEN` is 0 elsewhere (R37). -/
def Obligations.FlashCallsAreBracketed : Prop :=
  ∀ (s t : State),
    (s.regs.flashOpen = true →
      s.regs.pstate = .executing ∧ s.regs.seqState ≠ .idle ∧ s.env.resetPending = false) →
    step s = .next t →
    ∃ es q, t.env.trace = s.env.trace ++ es ∧ s.bracket.run es = some q ∧ q ≠ .unlocked

/-- `44_flash_commands.md` R239: a frame that was answered with a bare NACK or an error of the validation class
has made no flash call and changed no byte. -/
def Obligations.RefusedRequestChangesNothing : Prop :=
  ∀ (s t : State), s.cfg.WellFormed → s.env.resetPending = false → s.regs.flashOpen = false →
    (s.regs.pstate = .awaitingFrame ∨ s.regs.pstate = .validating) → step s = .next t →
    t.regs.status ∉ [s.cfg.stOk, s.cfg.stHardwareFault, s.cfg.stVerifyFailed, s.cfg.stFlashTimeout] →
    (∃ es, t.env.trace = s.env.trace ++ es ∧ ∀ e ∈ es, e.isFlash = false) ∧
      t.env.mem = s.env.mem ∧ t.env.driver = s.env.driver ∧ ∀ a, t.readByte a = s.readByte a

/-- The reset state meets the invariant (`10_state.md` R42, `00_scope.md` R12). -/
def Obligations.ResetMeetsTheInvariant : Prop := State.reset.Inv

/-- Every step keeps the invariant: `CFG` well formed, the memory canonical and inside the flash and OTP
spaces, the flash locked between steps, `FLASH_OPEN = 0`, a received frame whole and with a matching CRC, a
response whose code and status agree (R12, R37, R43, R81, R100, R147). -/
def Obligations.StepKeepsTheInvariant : Prop :=
  ∀ (s t : State), s.Inv → step s = .next t → t.Inv

/-- The source's "Protection" and `20_memory.md` R73: no step changes a byte of the bootloader's reserved
sectors, nor a byte outside the flash space (the OTP bytes are only read, R69), whatever the host sends and
the driver answers. -/
def Obligations.ReservedBytesNeverChange : Prop :=
  ∀ (s t : State), s.Inv → step s = .next t →
    ∀ a, reservedAddr s.cfg a = true ∨ a < s.cfg.flashBase ∨ s.cfg.flashEnd ≤ a →
      t.readByte a = s.readByte a

/-- `20_memory.md` R64, R65: no step asks the driver to erase a reserved sector or a number that is no sector,
or to program a word that is misaligned, outside the flash or reserved. -/
def Obligations.DriverCallsArePermitted : Prop :=
  ∀ (s t : State), s.Inv → step s = .next t →
    ∃ es, t.env.trace = s.env.trace ++ es ∧ ∀ e ∈ es, e.permitted s.cfg = true
end

