-- ==== Sys2Proof/Laws/Geometry.lean ====
section
/-! SUPPORT. What a well-formed configuration gives (`00_scope.md` R12): distinct codes and statuses, sectors
that follow each other inside the flash, and what the checks of a request say of its addresses. -/

namespace Sys2Proof.Machine

/-- The conditions of R12, one by one. -/
structure CfgFacts (c : Cfg) : Prop where
  poly : c.crcPoly.getLsbD 0 = true
  codes : c.codes.Nodup
  responses : c.rcAck ≠ c.rcNack
  statuses : (c.stOk :: c.errorCodes).Nodup
  wordBytes : c.wordBytes = 1 ∨ c.wordBytes = 2 ∨ c.wordBytes = 4 ∨ c.wordBytes = 8
  baseAligned : c.flashBase % c.wordBytes = 0
  sectors : Cfg.sectorsFrom c.wordBytes c.flashEnd c.flashBase c.sectors = true
  nsectors : c.nsectors ≤ 255
  flashEnd : c.flashEnd ≤ 2 ^ 32
  reserved : ∀ k ∈ c.reserved, k < c.nsectors
  appBase : c.flashBase ≤ c.appBase
  appEnd : c.appEnd ≤ c.flashEnd
  ramBase : 0 < c.ramBase
  ramEnd : c.ramEnd < 0xFFFFFFFF
  otpEnd : c.otpEnd < 2 ^ 32
  flashOtp : ∀ a, c.flashBase ≤ a → a < c.flashEnd → ¬ (c.otpBase ≤ a ∧ a < c.otpEnd)
  massErase : ∀ m, c.massErase = some m → c.nsectors ≤ m.toNat

theorem cfgFacts {c : Cfg} (h : c.WellFormed) : CfgFacts c := by
  simp only [Cfg.WellFormed, Cfg.wellFormed, Cfg.typed, Bool.and_eq_true, decide_eq_true_eq, beq_iff_eq, bne_iff_ne,
    List.all_eq_true, Cfg.disjoint, Bool.or_eq_true, List.contains_iff_mem, List.mem_cons,
    List.not_mem_nil, or_false] at h
  obtain ⟨⟨⟨⟨⟨⟨⟨⟨⟨⟨⟨⟨⟨⟨⟨⟨⟨⟨⟨⟨ht, h1⟩, h2⟩, h3⟩, h4⟩, h8⟩, h9⟩, h11⟩, h12⟩, h13⟩, h14⟩, h15⟩, h16⟩, h17⟩,
    h18⟩, h19⟩, h20⟩, h23⟩, h24⟩, h25⟩, h26⟩ := h
  obtain ⟨⟨⟨⟨⟨⟨⟨⟨⟨⟨⟨_, t2⟩, t3⟩, _⟩, _⟩, t6⟩, _⟩, _⟩, _⟩, _⟩, _⟩, t12⟩ := ht
  exact {
    poly := h1, codes := h2, responses := h3, statuses := h4, wordBytes := t3, baseAligned := h8
    sectors := h9, nsectors := t2, flashEnd := t6, reserved := h12, appBase := h14, appEnd := h16
    ramBase := h18, ramEnd := h20, otpEnd := t12, flashOtp := by omega
    massErase := fun m hm => by rw [hm] at h26; simpa using h26 }

theorem CfgFacts.wordBytes_pos {c : Cfg} (h : CfgFacts c) : 0 < c.wordBytes := by
  rcases h.wordBytes with h | h | h | h <;> omega

/-- No error's status is `ST_OK` (R291). -/
theorem CfgFacts.status_ne_ok {c : Cfg} (h : CfgFacts c) {e : Err} {st : Byte} (he : c.status e = some st) :
    st ≠ c.stOk ∧ st ∈ c.errorCodes := by
  have hn := (List.nodup_cons.mp h.statuses).1
  have hm : st ∈ c.errorCodes := by
    cases e <;> simp [Cfg.status] at he <;> simp [Cfg.errorCodes, he]
  exact ⟨fun heq => hn (heq ▸ hm), hm⟩

/-- A failure status goes with `RC_NACK` (R100). -/
theorem CfgFacts.responseCode_error {c : Cfg} (h : CfgFacts c) {e : Err} {st : Byte}
    (he : c.status e = some st) : responseCode c st = c.rcNack := by
  simp [responseCode, (h.status_ne_ok he).1]

@[simp] theorem responseCode_ok (c : Cfg) : responseCode c c.stOk = c.rcAck := by simp [responseCode]

/-- The code of a command decodes to the command (R99, R173). -/
theorem CfgFacts.decodeCode_code {c : Cfg} (h : CfgFacts c) (n : CmdName) : decodeCode c (c.code n) = some n := by
  have inj : ∀ m : CmdName, c.code m = c.code n → m = n := by
    have := h.codes
    simp only [Cfg.codes, CmdName.all, List.map_cons, List.map_nil, List.nodup_cons, List.mem_cons,
      List.not_mem_nil, or_false, not_or, not_false_eq_true, List.nodup_nil, and_true] at this
    intro m hm
    cases m <;> cases n <;> first | rfl | (exfalso; simp_all)
  unfold decodeCode
  cases hf : CmdName.all.find? fun m => c.code m == c.code n with
  | none =>
    have := List.find?_eq_none.mp hf n (by cases n <;> simp [CmdName.all])
    simp at this
  | some m =>
    have := List.find?_some hf
    rw [inj m (by simpa using this)]

/-- The inversion of `decode(c)` (R173). -/
theorem decodeCode_some {c : Cfg} {b : Byte} {n : CmdName} (h : decodeCode c b = some n) : c.code n = b := by
  simpa using List.find?_some h

theorem decodeCode_none {c : Cfg} {b : Byte} : decodeCode c b = none ↔ ∀ n, c.code n ≠ b := by
  unfold decodeCode
  rw [List.find?_eq_none]
  constructor
  · intro h n
    have := h n (by cases n <;> simp [CmdName.all])
    simpa using this
  · intro h n _; simpa using h n

/-! Sectors. -/

theorem sectorsFrom_bounds {w limit base : Nat} {l : List Sector} (h : Cfg.sectorsFrom w limit base l = true) :
    base ≤ limit ∧ ∀ k (hk : k < l.length),
      base ≤ l[k].base ∧ 0 < l[k].size ∧ l[k].base + l[k].size ≤ limit ∧
      ∀ j (hj : j < l.length), k < j → l[k].base + l[k].size ≤ l[j].base := by
  induction l generalizing base with
  | nil => simp only [Cfg.sectorsFrom, beq_iff_eq] at h; exact ⟨by omega, fun k hk => by simp at hk⟩
  | cons s t ih =>
    simp only [Cfg.sectorsFrom, Bool.and_eq_true, beq_iff_eq, decide_eq_true_eq] at h
    obtain ⟨⟨⟨h1, h2⟩, h3⟩, h4⟩ := h
    obtain ⟨hl, ht⟩ := ih h4
    refine ⟨by omega, fun k hk => ?_⟩
    match k, hk with
    | 0, _ =>
      refine ⟨by simp [h1], by simpa using h2, by simp only [List.getElem_cons_zero]; omega, ?_⟩
      intro j hj hkj
      match j, hj, hkj with
      | j + 1, hj, _ =>
        have := (ht j (by simpa using hj)).1
        simp only [List.getElem_cons_zero, List.getElem_cons_succ]; omega
    | k + 1, hk =>
      obtain ⟨a, b, c, d⟩ := ht k (by simpa using hk)
      refine ⟨by simp only [List.getElem_cons_succ]; omega, by simpa using b, by simpa using c, ?_⟩
      intro j hj hkj
      match j, hj, hkj with
      | j + 1, hj, hkj =>
        have := d j (by simpa using hj) (by omega)
        simpa using this

theorem CfgFacts.sector_bounds {c : Cfg} (h : CfgFacts c) {k : Nat} (hk : k < c.nsectors) :
    c.flashBase ≤ sectorBase c k ∧ 0 < sectorSize c k ∧ sectorBase c k + sectorSize c k ≤ c.flashEnd ∧
      ∀ j < c.nsectors, k < j → sectorBase c k + sectorSize c k ≤ sectorBase c j := by
  have hk' : k < c.sectors.length := hk
  obtain ⟨a, b, d, e⟩ := (sectorsFrom_bounds h.sectors).2 k hk'
  have hget : ∀ j, j < c.nsectors → c.sectors.getD j default = c.sectors[j]! := fun j _ => by
    simp [List.getD_eq_getElem?_getD]
  have hx : ∀ j (hj : j < c.sectors.length), c.sectors.getD j default = c.sectors[j] := fun j hj => by
    simp [List.getD_eq_getElem?_getD, hj]
  simp only [sectorBase, sectorSize, hx k hk']
  refine ⟨a, b, d, fun j hj hkj => ?_⟩
  rw [hx j hj]; exact e j hj hkj

theorem inSector_iff (c : Cfg) (k a : Nat) :
    inSector c k a = true ↔ sectorBase c k ≤ a ∧ a < sectorBase c k + sectorSize c k := by
  simp [inSector]

/-- An address lies in one sector at most. -/
theorem CfgFacts.inSector_unique {c : Cfg} (h : CfgFacts c) {i j a : Nat} (hi : i < c.nsectors)
    (hj : j < c.nsectors) (hia : inSector c i a = true) (hja : inSector c j a = true) : i = j := by
  rw [inSector_iff] at hia hja
  rcases Nat.lt_trichotomy i j with hlt | heq | hlt
  · have := (h.sector_bounds hi).2.2.2 j hj hlt; omega
  · exact heq
  · have := (h.sector_bounds hj).2.2.2 i hi hlt; omega

/-- The sector of an address is the one it lies in (R71). -/
theorem CfgFacts.sectorOf_eq {c : Cfg} (h : CfgFacts c) {k a : Nat} (hk : k < c.nsectors)
    (hka : inSector c k a = true) : sectorOf c a = some k := by
  unfold sectorOf
  cases hf : (List.range c.nsectors).find? fun j => inSector c j a with
  | none =>
    have := List.find?_eq_none.mp hf k (by simpa using hk)
    exact absurd hka (by simpa using this)
  | some j =>
    have h1 := List.find?_some hf
    have h2 := List.mem_of_find?_eq_some hf
    rw [h.inSector_unique hk (by simpa using h2) hka (by simpa using h1)]

theorem sectorOf_some {c : Cfg} {k a : Nat} (h : sectorOf c a = some k) :
    k < c.nsectors ∧ inSector c k a = true :=
  ⟨by simpa using List.mem_of_find?_eq_some h, by simpa using List.find?_some h⟩

/-- A sector that holds no bootloader has no reserved address (R73). -/
theorem CfgFacts.reserved_outside {c : Cfg} (h : CfgFacts c) {k a : Nat} (hk : k < c.nsectors)
    (hr : k ∉ c.reserved) (ha : reservedAddr c a = true) : inSector c k a = false := by
  by_contra hc
  simp only [Bool.not_eq_false] at hc
  simp only [reservedAddr, h.sectorOf_eq hk hc, Bool.and_eq_true, List.contains_iff_mem] at ha
  exact hr ha.2

/-- A sector lies in the flash space. -/
theorem CfgFacts.inSector_inFlash {c : Cfg} (h : CfgFacts c) {k a : Nat} (hk : k < c.nsectors)
    (ha : inSector c k a = true) : c.flashBase ≤ a ∧ a < c.flashEnd := by
  rw [inSector_iff] at ha
  obtain ⟨h1, _, h3, _⟩ := h.sector_bounds hk
  omega

/-! Requests. -/

theorem inFlash_iff (c : Cfg) (a n : Nat) :
    inFlash c a n = true ↔ 1 ≤ n ∧ c.flashBase ≤ a ∧ a + n ≤ c.flashEnd := by
  simp [inFlash, and_assoc]

theorem inOtp_iff (c : Cfg) (a n : Nat) :
    inOtp c a n = true ↔ 1 ≤ n ∧ c.otpBase ≤ a ∧ a + n ≤ c.otpEnd := by
  simp [inOtp, and_assoc]

theorem inApp_iff (c : Cfg) (a n : Nat) :
    inApp c a n = true ↔ 1 ≤ n ∧ c.appBase ≤ a ∧ a + n ≤ c.appEnd := by
  simp [inApp, and_assoc]

theorem mapped_iff (c : Cfg) (a n : Nat) :
    mapped c a n = true ↔ inFlash c a n = true ∨ inOtp c a n = true := by simp [mapped]

theorem touchesReserved_iff (c : Cfg) (a n : Nat) :
    touchesReserved c a n = true ↔ ∃ i < n, reservedAddr c (a + i) = true := by
  simp [touchesReserved]

theorem touchesReserved_false_iff (c : Cfg) (a n : Nat) :
    touchesReserved c a n = false ↔ ∀ i < n, reservedAddr c (a + i) = false := by
  simp [touchesReserved]

/-- The sectors a FLASH_ERASE asks for (R221). -/
theorem mem_eraseRequest (c : Cfg) (sector count : Byte) (k : Nat) :
    k ∈ eraseRequest c sector count ↔ Requested c sector count k := by
  unfold eraseRequest Requested isMassErase
  by_cases h : c.massErase = some sector
  · simp [h]
  · simp [h, List.mem_range'_1]

theorem eraseRequest_pairwise (c : Cfg) (sector count : Byte) :
    (eraseRequest c sector count).Pairwise (· < ·) := by
  unfold eraseRequest
  split
  · exact List.pairwise_lt_range.filter _
  · exact List.pairwise_lt_range' (s := sector.toNat) (n := count.toNat)

/-- A request that passes the checks names sectors of the flash that hold no bootloader. -/
theorem EraseAllowed.sector {c : Cfg} {sector count : Byte} (h : EraseAllowed c sector count) {k : Nat}
    (hk : k ∈ eraseRequest c sector count) : k < c.nsectors ∧ k ∉ c.reserved := by
  rw [mem_eraseRequest] at hk
  unfold Requested at hk
  rcases h with h | ⟨h1, h2, h3⟩
  · simpa [h] using hk
  · by_cases hm : c.massErase = some sector
    · simpa [hm] using hk
    · rw [if_neg hm] at hk
      exact ⟨by omega, fun hr => h1 k hr hk⟩

/-! Words of a program request. -/

theorem programUnits_length (w a : Nat) (data : List Byte) :
    (programUnits w a data).length = data.length / w := by simp [programUnits]

theorem mem_programUnits {w a : Nat} {data : List Byte} {u : Nat × List Byte}
    (h : u ∈ programUnits w a data) :
    ∃ i < data.length / w, u = (a + i * w, (data.drop (i * w)).take w) := by
  simp only [programUnits, List.mem_map, List.mem_range] at h
  obtain ⟨i, hi, rfl⟩ := h
  exact ⟨i, hi, rfl⟩

/-- A word of a request lies inside the request. -/
theorem word_inside {w n i : Nat} (h : i < n / w) : i * w + w ≤ n := by
  have : (i + 1) * w ≤ n := Nat.le_trans (Nat.mul_le_mul_right w h) (Nat.div_mul_le_self n w)
  rw [Nat.add_mul, Nat.one_mul] at this; exact this

end Sys2Proof.Machine
end

