-- ==== Sys2Proof/Laws/Memory.lean ====
section
/-! SUPPORT. What every memory operation does to the byte at an address, and that every one keeps the
canonical form. -/

namespace Sys2Proof.Machine.Memory

/-- A range covers an address. -/
abbrev Covers (a n x : Nat) : Prop := a ≤ x ∧ x < a + n

@[simp] theorem read_nil (d : Byte) (a : Nat) : read d [] a = d := rfl

theorem read_append_of_not_mem (d : Byte) (m m' : Memory) (a : Nat) (h : ∀ c ∈ m, c.1 ≠ a) :
    read d (m ++ m') a = read d m' a := by
  induction m with
  | nil => rfl
  | cons c m ih =>
    have hc : ¬ c.1 = a := h c (by simp)
    simp [read, hc, ih fun c hm => h c (by simp [hm])]

theorem read_of_not_mem (d : Byte) (m : Memory) (a : Nat) (h : ∀ c ∈ m, c.1 ≠ a) : read d m a = d := by
  simpa using read_append_of_not_mem d m [] a h

/-- Keeping the cells of some addresses does not change what those addresses read as. -/
theorem read_filter_of_true (d : Byte) (p : Nat → Bool) (a : Nat) (ha : p a = true) (m : Memory) :
    read d (m.filter fun c => p c.1) a = read d m a := by
  induction m with
  | nil => rfl
  | cons c m ih =>
    by_cases hc : c.1 = a
    · simp [read, hc, ha]
    · by_cases hp : p c.1 = true <;> simp [hp, read, hc, ih]

theorem read_filter_of_false (d : Byte) (p : Nat → Bool) (a : Nat) (ha : p a = false) (m : Memory) :
    read d (m.filter fun c => p c.1) a = d := by
  refine read_of_not_mem d _ a fun c hc h => ?_
  have := (List.mem_filter.mp hc).2
  simp [h, ha] at this

theorem cellsAt_key {a : Nat} {bytes : List Byte} {c : Host.Cell} (h : c ∈ cellsAt a bytes) :
    Covers a bytes.length c.1 := by
  induction bytes generalizing a with
  | nil => simp [cellsAt] at h
  | cons b bs ih =>
    rcases List.mem_cons.mp h with rfl | h
    · simp [Covers]
    · obtain ⟨h1, h2⟩ := ih h
      exact ⟨by omega, by simp only [List.length_cons]; omega⟩

/-- The bytes of a range that has just been written. -/
theorem read_cellsAt (d : Byte) (a : Nat) (bytes : List Byte) (x : Nat) (h : Covers a bytes.length x) :
    read d ((cellsAt a bytes).filter fun c => c.2 != d) x = bytes.getD (x - a) d := by
  induction bytes generalizing a with
  | nil => obtain ⟨h1, h2⟩ := h; simp at h2; omega
  | cons b bs ih =>
    by_cases hx : x = a
    · subst hx
      by_cases hb : b = d
      · have hf : ((cellsAt x (b :: bs)).filter fun c => c.2 != d)
            = (cellsAt (x + 1) bs).filter fun c => c.2 != d := by simp [cellsAt, hb]
        rw [hf, read_of_not_mem]
        · simp [hb]
        · intro c hc he
          have := (cellsAt_key (List.mem_filter.mp hc).1).1
          omega
      · have hf : ((cellsAt x (b :: bs)).filter fun c => c.2 != d)
            = (x, b) :: (cellsAt (x + 1) bs).filter fun c => c.2 != d := by simp [cellsAt, hb]
        simp [hf, read]
    · have hx' : Covers (a + 1) bs.length x := by
        obtain ⟨h1, h2⟩ := h; simp only [List.length_cons] at h2; exact ⟨by omega, by omega⟩
      have hi : x - a = (x - (a + 1)) + 1 := by obtain ⟨h1, _⟩ := hx'; omega
      have hf : read d ((cellsAt a (b :: bs)).filter fun c => c.2 != d) x
          = read d ((cellsAt (a + 1) bs).filter fun c => c.2 != d) x := by
        by_cases hb : b = d
        · simp [cellsAt, hb]
        · have : ¬ a = x := fun h => hx h.symm
          simp [cellsAt, hb, read, this]
      rw [hf, ih (a + 1) hx', hi, List.getD_cons_succ]

/-- Read after a write: the byte written inside the range, the byte before outside it. -/
theorem read_write (d : Byte) (m : Memory) (a : Nat) (bytes : List Byte) (x : Nat) :
    read d (write d m a bytes) x
      = if Covers a bytes.length x then bytes.getD (x - a) d else read d m x := by
  unfold write
  have hmid : ∀ c ∈ (cellsAt a bytes).filter fun c => c.2 != d, Covers a bytes.length c.1 :=
    fun c hc => cellsAt_key (List.mem_filter.mp hc).1
  have hlow : ∀ c ∈ m.filter fun c => decide (c.1 < a), c.1 < a := fun c hc => by
    simpa using (List.mem_filter.mp hc).2
  have hhigh : ∀ c ∈ m.filter fun c => decide (a + bytes.length ≤ c.1), a + bytes.length ≤ c.1 :=
    fun c hc => by simpa using (List.mem_filter.mp hc).2
  split
  · next h =>
    rw [List.append_assoc, read_append_of_not_mem _ _ _ _ fun c hc he => by have := hlow c hc; omega]
    rw [← read_cellsAt d a bytes x h]
    by_cases hm : ∃ c ∈ (cellsAt a bytes).filter fun c => c.2 != d, c.1 = x
    · obtain ⟨c, hc, rfl⟩ := hm
      have key : ∀ l l' : Memory, (∃ c' ∈ l, c'.1 = c.1) → read d (l ++ l') c.1 = read d l c.1 := by
        intro l l'
        induction l with
        | nil => rintro ⟨_, h, _⟩; simp at h
        | cons e l ih =>
          rintro ⟨c', hc', he⟩
          by_cases hk : e.1 = c.1
          · simp [read, hk]
          · simp only [List.cons_append, read, hk, if_false]
            refine ih ⟨c', ?_, he⟩
            rcases List.mem_cons.mp hc' with rfl | h
            · exact absurd he hk
            · exact h
      exact key _ _ ⟨c, hc, rfl⟩
    · have hn : ∀ c ∈ (cellsAt a bytes).filter fun c => c.2 != d, c.1 ≠ x := fun c hc he => hm ⟨c, hc, he⟩
      rw [read_append_of_not_mem _ _ _ _ hn, read_of_not_mem _ _ _ hn,
        read_of_not_mem _ _ _ fun c hc he => by have := hhigh c hc; obtain ⟨_, h2⟩ := h; omega]
  · next h =>
    by_cases hx : x < a
    · have h1 : ∀ l : Memory, (∀ c ∈ l, a ≤ c.1) →
          read d ((m.filter fun c => decide (c.1 < a)) ++ l) x = read d m x := by
        intro l hl
        rw [← read_filter_of_true d (fun k => decide (k < a)) x (by simpa using hx) m]
        induction (m.filter fun c => decide (c.1 < a)) with
        | nil => exact read_of_not_mem _ _ _ fun c hc he => by have := hl c hc; omega
        | cons e t ih => by_cases he : e.1 = x <;> simp [read, he, ih]
      rw [List.append_assoc]
      refine h1 _ fun c hc => ?_
      rcases List.mem_append.mp hc with hc | hc
      · exact (hmid c hc).1
      · have := hhigh c hc; omega
    · have hx2 : a + bytes.length ≤ x := by by_contra hcon; exact h ⟨by omega, by omega⟩
      rw [List.append_assoc, read_append_of_not_mem _ _ _ _ fun c hc he => by have := hlow c hc; omega,
        read_append_of_not_mem _ _ _ _ fun c hc he => by have := (hmid c hc).2; omega,
        read_filter_of_true d (fun k => decide (a + bytes.length ≤ k)) x (by simpa using hx2)]

/-- Read after an erase. -/
theorem read_erase (d : Byte) (m : Memory) (a n x : Nat) :
    read d (erase m a n) x = if Covers a n x then d else read d m x := by
  unfold erase
  by_cases h : Covers a n x
  · rw [if_pos h]
    refine read_filter_of_false d (fun k => decide (k < a) || decide (a + n ≤ k)) x ?_ m
    obtain ⟨h1, h2⟩ := h
    simp; omega
  · rw [if_neg h]
    refine read_filter_of_true d (fun k => decide (k < a) || decide (a + n ≤ k)) x ?_ m
    by_contra hc
    simp at hc
    exact h ⟨by omega, by omega⟩

/-- A patch changes nothing outside its range. -/
theorem read_patch_outside (d : Byte) (a n : Nat) (m : Memory) (cells : List Host.Cell) (x : Nat)
    (h : ¬ Covers a n x) : read d (patch d a n m cells) x = read d m x := by
  induction cells generalizing m with
  | nil => rfl
  | cons c cs ih =>
    unfold patch
    split
    · next hc =>
      rw [ih, read_write, if_neg]
      rintro ⟨h1, h2⟩
      simp at h2
      exact h ⟨by omega, by omega⟩
    · exact ih m

/-- Inside its range a patch stores the last cell of each address. -/
theorem read_patch_inside (d : Byte) (a n : Nat) (m : Memory) (cells : List Host.Cell) (x : Nat)
    (h : Covers a n x) :
    read d (patch d a n m cells) x =
      match cells.reverse.find? fun c => c.1 == x with
      | some c => c.2
      | none => read d m x := by
  induction cells generalizing m with
  | nil => rfl
  | cons c cs ih =>
    rw [List.reverse_cons, List.find?_append]
    unfold patch
    split
    · rw [ih]
      cases cs.reverse.find? fun c => c.1 == x with
      | some _ => rfl
      | none =>
        by_cases hx : c.1 = x
        · have : Covers c.1 1 x := ⟨by omega, by omega⟩
          simp [read_write, hx]
        · have : ¬ Covers c.1 1 x := fun h => hx (by have := h.1; have := h.2; omega)
          simp [read_write, hx, this]
    · next hc =>
      rw [ih]
      have hx : c.1 ≠ x := fun hx => hc (hx ▸ h)
      cases cs.reverse.find? fun c => c.1 == x <;> simp [hx]

@[simp] theorem readBytes_length (d : Byte) (m : Memory) (a n : Nat) : (readBytes d m a n).length = n := by
  simp [readBytes]

theorem readBytes_getD (d : Byte) (m : Memory) (a n i : Nat) (h : i < n) (e : Byte) :
    (readBytes d m a n).getD i e = read d m (a + i) := by
  simp [readBytes, List.getD_eq_getElem?_getD, h]

/-- The verification predicate says that every byte of the range reads as the erased value (R224). -/
theorem erasedOn_iff (d : Byte) (m : Memory) (a n : Nat) :
    erasedOn d m a n = true ↔ ∀ x, Covers a n x → read d m x = d := by
  unfold erasedOn
  rw [List.all_eq_true]
  constructor
  · intro h x hx
    by_cases hm : ∃ c ∈ m, c.1 = x
    · obtain ⟨c, hc, rfl⟩ := hm
      have := h c hc
      obtain ⟨h1, h2⟩ := hx
      simp only [Bool.or_eq_true, decide_eq_true_eq, beq_iff_eq] at this
      rcases this with (h | h) | h
      · omega
      · omega
      · exact h
    · exact read_of_not_mem d m x fun c hc he => hm ⟨c, hc, he⟩
  · intro h c hc
    by_cases hr : Covers a n c.1
    · simp [h c.1 hr]
    · simp only [Bool.or_eq_true, decide_eq_true_eq, beq_iff_eq]
      by_contra hcon
      push Not at hcon
      exact hr ⟨by omega, by omega⟩

/-! The canonical form is kept. -/

theorem wf_nil (d : Byte) : wf d [] := by simp [wf]

theorem wf_filter {d : Byte} {m : Memory} (p : Host.Cell → Bool) (h : wf d m) : wf d (m.filter p) :=
  ⟨h.1.filter p, fun c hc => h.2 c (List.mem_filter.mp hc).1⟩

theorem wf_erase {d : Byte} {m : Memory} (a n : Nat) (h : wf d m) : wf d (erase m a n) := wf_filter _ h

theorem cellsAt_pairwise (a : Nat) (bytes : List Byte) :
    (cellsAt a bytes).Pairwise fun x y => x.1 < y.1 := by
  induction bytes generalizing a with
  | nil => exact .nil
  | cons b bs ih =>
    refine List.pairwise_cons.mpr ⟨fun c hc => ?_, ih (a + 1)⟩
    have := (cellsAt_key hc).1
    simp only; omega

theorem wf_write {d : Byte} {m : Memory} (a : Nat) (bytes : List Byte) (h : wf d m) :
    wf d (write d m a bytes) := by
  unfold write
  refine ⟨?_, fun c hc => ?_⟩
  · refine List.pairwise_append.mpr ⟨List.pairwise_append.mpr ⟨h.1.filter _, (cellsAt_pairwise a bytes).filter _, ?_⟩,
      h.1.filter _, ?_⟩
    · intro x hx y hy
      have h1 := (List.mem_filter.mp hx).2
      have h2 := (cellsAt_key (List.mem_filter.mp hy).1).1
      simp only [decide_eq_true_eq] at h1; omega
    · intro x hx y hy
      have hy2 := (List.mem_filter.mp hy).2
      simp only [decide_eq_true_eq] at hy2
      rcases List.mem_append.mp hx with hx | hx
      · have h1 := (List.mem_filter.mp hx).2
        simp only [decide_eq_true_eq] at h1; omega
      · have h1 := (cellsAt_key (List.mem_filter.mp hx).1).2; omega
  · simp only [List.mem_append, List.mem_filter] at hc
    rcases hc with (hc | hc) | hc
    · exact h.2 c hc.1
    · simpa using hc.2
    · exact h.2 c hc.1

theorem wf_patch {d : Byte} (a n : Nat) {m : Memory} (cells : List Host.Cell) (h : wf d m) :
    wf d (patch d a n m cells) := by
  induction cells generalizing m with
  | nil => exact h
  | cons c cs ih =>
    unfold patch
    split
    · exact ih (wf_write _ _ h)
    · exact ih h

/-! Which addresses are listed. -/

theorem mem_erase {m : Memory} {a n : Nat} {c : Host.Cell} (h : c ∈ erase m a n) : c ∈ m :=
  (List.mem_filter.mp h).1

theorem key_write {d : Byte} {m : Memory} {a : Nat} {bytes : List Byte} {c : Host.Cell}
    (h : c ∈ write d m a bytes) : c ∈ m ∨ Covers a bytes.length c.1 := by
  simp only [write, List.mem_append, List.mem_filter] at h
  rcases h with (h | h) | h
  · exact .inl h.1
  · exact .inr (cellsAt_key h.1)
  · exact .inl h.1

theorem key_patch {d : Byte} {a n : Nat} {m : Memory} {cells : List Host.Cell} {c : Host.Cell}
    (h : c ∈ patch d a n m cells) : c ∈ m ∨ Covers a n c.1 := by
  induction cells generalizing m with
  | nil => exact .inl h
  | cons e es ih =>
    unfold patch at h
    split at h
    · next he =>
      rcases ih h with h | h
      · rcases key_write h with h | ⟨h1, h2⟩
        · exact .inl h
        · simp at h2; exact .inr ⟨by omega, by omega⟩
      · exact .inr h
    · exact ih h

end Sys2Proof.Machine.Memory

namespace Sys2Proof.Machine

@[simp] theorem wordBytesOf_length (n w : Nat) : (wordBytesOf n w).length = n := by
  induction n generalizing w with
  | zero => rfl
  | succ n ih => simp [wordBytesOf, ih]

end Sys2Proof.Machine
end

