-- ==== Sys2Proof/Laws/State.lean ====
section
/-! SUPPORT. What each named update does to each field of `State` (true by `rfl`), and the fields of the
registers at the start of a cycle: later proofs rewrite with these and unfold no update. -/

namespace Sys2Proof.Machine

@[simp] theorem State.log_cfg (s : State) (e : Event) :
    (State.log s e).cfg = s.cfg := rfl
@[simp] theorem State.log_regs (s : State) (e : Event) :
    (State.log s e).regs = s.regs := rfl
@[simp] theorem State.log_env (s : State) (e : Event) :
    (State.log s e).env = { s.env with trace := s.env.trace ++ [e] } := rfl

@[simp] theorem State.setMem_cfg (s : State) (m : Memory) :
    (State.setMem s m).cfg = s.cfg := rfl
@[simp] theorem State.setMem_regs (s : State) (m : Memory) :
    (State.setMem s m).regs = s.regs := rfl
@[simp] theorem State.setMem_env (s : State) (m : Memory) :
    (State.setMem s m).env = { s.env with mem := m } := rfl

@[simp] theorem State.setDriver_cfg (s : State) (d : DriverStatus) :
    (State.setDriver s d).cfg = s.cfg := rfl
@[simp] theorem State.setDriver_regs (s : State) (d : DriverStatus) :
    (State.setDriver s d).regs = s.regs := rfl
@[simp] theorem State.setDriver_env (s : State) (d : DriverStatus) :
    (State.setDriver s d).env = { s.env with driver := d } := rfl

@[simp] theorem State.countDraw_cfg (s : State) :
    (State.countDraw s).cfg = s.cfg := rfl
@[simp] theorem State.countDraw_regs (s : State) :
    (State.countDraw s).regs = s.regs := rfl
@[simp] theorem State.countDraw_env (s : State) :
    (State.countDraw s).env = { s.env with draws := s.env.draws + 1 } := rfl

@[simp] theorem State.portTx_cfg (s : State) (bytes : List Byte) :
    (State.portTx s bytes).cfg = s.cfg := rfl
@[simp] theorem State.portTx_regs (s : State) (bytes : List Byte) :
    (State.portTx s bytes).regs = s.regs := rfl
@[simp] theorem State.portTx_env (s : State) (bytes : List Byte) :
    (State.portTx s bytes).env = { s.env with trace := s.env.trace ++ [.tx bytes] } := rfl

@[simp] theorem State.portFlashUnlock_cfg (s : State) :
    (State.portFlashUnlock s).cfg = s.cfg := rfl
@[simp] theorem State.portFlashUnlock_regs (s : State) :
    (State.portFlashUnlock s).regs = s.regs := rfl
@[simp] theorem State.portFlashUnlock_env (s : State) :
    (State.portFlashUnlock s).env = { s.env with locked := false, trace := s.env.trace ++ [.flashUnlock] } := rfl

@[simp] theorem State.portFlashLock_cfg (s : State) :
    (State.portFlashLock s).cfg = s.cfg := rfl
@[simp] theorem State.portFlashLock_regs (s : State) :
    (State.portFlashLock s).regs = s.regs := rfl
@[simp] theorem State.portFlashLock_env (s : State) :
    (State.portFlashLock s).env = { s.env with locked := true, trace := s.env.trace ++ [.flashLock] } := rfl

@[simp] theorem State.drawUnit_cfg (s : State) (a n : Nat) :
    (State.drawUnit s a n).cfg = s.cfg := by simp [State.drawUnit]
@[simp] theorem State.drawUnit_regs (s : State) (a n : Nat) :
    (State.drawUnit s a n).regs = s.regs := by simp [State.drawUnit]
@[simp] theorem State.drawUnit_env (s : State) (a n : Nat) :
    (State.drawUnit s a n).env = { s.env with mem := Memory.write s.cfg.erasedByte s.env.mem a (drawnBytes s.env.draws a n), draws := s.env.draws + 1 } := by simp [State.drawUnit]

@[simp] theorem State.setFerr_cfg (s : State) (e : FrameErr) :
    (State.setFerr s e).cfg = s.cfg := rfl
@[simp] theorem State.setFerr_regs (s : State) (e : FrameErr) :
    (State.setFerr s e).regs = { s.regs with ferr := e } := rfl
@[simp] theorem State.setFerr_env (s : State) (e : FrameErr) :
    (State.setFerr s e).env = s.env := rfl

@[simp] theorem State.setPstate_cfg (s : State) (p : PState) :
    (State.setPstate s p).cfg = s.cfg := rfl
@[simp] theorem State.setPstate_regs (s : State) (p : PState) :
    (State.setPstate s p).regs = { s.regs with pstate := p } := rfl
@[simp] theorem State.setPstate_env (s : State) (p : PState) :
    (State.setPstate s p).env = s.env := rfl

@[simp] theorem State.storeLength_cfg (s : State) (len : Byte) :
    (State.storeLength s len).cfg = s.cfg := rfl
@[simp] theorem State.storeLength_regs (s : State) (len : Byte) :
    (State.storeLength s len).regs = { s.regs with rxLen := len, rxIdx := 1 } := rfl
@[simp] theorem State.storeLength_env (s : State) (len : Byte) :
    (State.storeLength s len).env = s.env := rfl

@[simp] theorem State.storeBody_cfg (s : State) (body : List Byte) :
    (State.storeBody s body).cfg = s.cfg := rfl
@[simp] theorem State.storeBody_regs (s : State) (body : List Byte) :
    (State.storeBody s body).regs = { s.regs with rxBody := body, rxIdx := 1 + s.regs.rxLen.toNat } := rfl
@[simp] theorem State.storeBody_env (s : State) (body : List Byte) :
    (State.storeBody s body).env = s.env := rfl

@[simp] theorem State.storeCrc_cfg (s : State) (b0 b1 b2 b3 : Byte) :
    (State.storeCrc s b0 b1 b2 b3).cfg = s.cfg := rfl
@[simp] theorem State.storeCrc_regs (s : State) (b0 b1 b2 b3 : Byte) :
    (State.storeCrc s b0 b1 b2 b3).regs = { s.regs with rxCrcb := ⟨b0, b1, b2, b3⟩, rxCrc := crcOfBytes s.cfg.crcWireOrder b0 b1 b2 b3, rxIdx := 5 + s.regs.rxLen.toNat } := rfl
@[simp] theorem State.storeCrc_env (s : State) (b0 b1 b2 b3 : Byte) :
    (State.storeCrc s b0 b1 b2 b3).env = s.env := rfl

@[simp] theorem State.crcCheck_cfg (s : State) :
    (State.crcCheck s).cfg = s.cfg := rfl
@[simp] theorem State.crcCheck_regs (s : State) :
    (State.crcCheck s).regs = { s.regs with crcAcc := crcRemainder s.cfg (s.regs.rxLen :: s.regs.rxBody), crcOk := crcMatches s.cfg s.regs.rxLen s.regs.rxBody s.regs.rxCrc } := rfl
@[simp] theorem State.crcCheck_env (s : State) :
    (State.crcCheck s).env = s.env := rfl

@[simp] theorem State.startFrame_cfg (s : State) :
    (State.startFrame s).cfg = s.cfg := rfl
@[simp] theorem State.startFrame_regs (s : State) :
    (State.startFrame s).regs = { s.regs with ferr := .none, rxIdx := 0 } := rfl
@[simp] theorem State.startFrame_env (s : State) :
    (State.startFrame s).env = s.env := rfl

@[simp] theorem State.buildFrame_cfg (s : State) (code : Byte) (p : List Byte) :
    (State.buildFrame s code p).cfg = s.cfg := rfl
@[simp] theorem State.buildFrame_regs (s : State) (code : Byte) (p : List Byte) :
    (State.buildFrame s code p).regs = { s.regs with txLen := BitVec.ofNat 8 (1 + p.length), txCode := code, txPayload := p, crcAcc := crcRemainder s.cfg (covered code p), txCrc := crc s.cfg (covered code p) } := rfl
@[simp] theorem State.buildFrame_env (s : State) (code : Byte) (p : List Byte) :
    (State.buildFrame s code p).env = s.env := rfl

@[simp] theorem State.writeFrame_cfg (s : State) (code : Byte) (p : List Byte) :
    (State.writeFrame s code p).cfg = s.cfg := by simp [State.writeFrame]
@[simp] theorem State.writeFrame_regs (s : State) (code : Byte) (p : List Byte) :
    (State.writeFrame s code p).regs = (s.buildFrame code p).regs := by simp [State.writeFrame]
@[simp] theorem State.writeFrame_env (s : State) (code : Byte) (p : List Byte) :
    (State.writeFrame s code p).env = { s.env with trace := s.env.trace ++ [.tx (frame s.cfg code p)] } := by simp [State.writeFrame]

@[simp] theorem State.newCycle_cfg (s : State) :
    (State.newCycle s).cfg = s.cfg := rfl
@[simp] theorem State.newCycle_regs (s : State) :
    (State.newCycle s).regs = s.regs.startCycle s.cfg := rfl
@[simp] theorem State.newCycle_env (s : State) :
    (State.newCycle s).env = s.env := rfl

@[simp] theorem State.openFlash_cfg (s : State) :
    (State.openFlash s).cfg = s.cfg := rfl
@[simp] theorem State.openFlash_regs (s : State) :
    (State.openFlash s).regs = { s.regs with flashOpen := true } := rfl
@[simp] theorem State.openFlash_env (s : State) :
    (State.openFlash s).env = { s.env with locked := false, trace := s.env.trace ++ [.flashUnlock] } := rfl

@[simp] theorem State.closeFlash_cfg (s : State) :
    (State.closeFlash s).cfg = s.cfg := rfl
@[simp] theorem State.closeFlash_regs (s : State) :
    (State.closeFlash s).regs = { s.regs with flashOpen := false } := rfl
@[simp] theorem State.closeFlash_env (s : State) :
    (State.closeFlash s).env = { s.env with locked := true, trace := s.env.trace ++ [.flashLock] } := rfl

@[simp] theorem State.respond_cfg (s : State) (st : Byte) (data : List Byte) :
    (State.respond s st data).cfg = s.cfg := rfl
@[simp] theorem State.respond_regs (s : State) (st : Byte) (data : List Byte) :
    (State.respond s st data).regs = { s.regs with pstate := .responding, status := st, txLen := BitVec.ofNat 8 (2 + data.length), txCode := responseCode s.cfg st, txPayload := st :: data } := rfl
@[simp] theorem State.respond_env (s : State) (st : Byte) (data : List Byte) :
    (State.respond s st data).env = s.env := rfl

@[simp] theorem State.succeed_cfg (s : State) (data : List Byte) :
    (State.succeed s data).cfg = s.cfg := rfl
@[simp] theorem State.succeed_regs (s : State) (data : List Byte) :
    (State.succeed s data).regs = (s.respond s.cfg.stOk data).regs := rfl
@[simp] theorem State.succeed_env (s : State) (data : List Byte) :
    (State.succeed s data).env = s.env := rfl

@[simp] theorem State.bookkeep_cfg (s : State) :
    (State.bookkeep s).cfg = s.cfg := rfl
@[simp] theorem State.bookkeep_regs (s : State) :
    (State.bookkeep s).regs = { s.regs with lastStatus := s.regs.status, lastCmd := if s.regs.ferr = .none then payloadByte s.regs.rxBody 0 else s.regs.lastCmd } := rfl
@[simp] theorem State.bookkeep_env (s : State) :
    (State.bookkeep s).env = s.env := rfl

@[simp] theorem State.cpuCalls_cfg (s : State) :
    (State.cpuCalls s).cfg = s.cfg := rfl
@[simp] theorem State.cpuCalls_regs (s : State) :
    (State.cpuCalls s).regs = s.regs := rfl
@[simp] theorem State.cpuCalls_env (s : State) :
    (State.cpuCalls s).env = { s.env with trace := s.env.trace ++ [.cpuDisableInterrupts] ++ [.cpuRelocateVectorTable s.regs.argAddr] ++ [.cpuSetStackPointer s.regs.hoSp] ++ [.cpuJump s.regs.hoEntry] } := rfl

@[simp] theorem State.handOff_cfg (s : State) :
    (State.handOff s).cfg = s.cfg := rfl
@[simp] theorem State.handOff_regs (s : State) :
    (State.handOff s).regs = { Config.discardedRegs s.env.draws with pstate := .handedOff } := rfl
@[simp] theorem State.handOff_env (s : State) :
    (State.handOff s).env = { s.cpuCalls.env with draws := s.env.draws + 1 } := rfl

@[simp] theorem State.deviceReset_cfg (s : State) :
    (State.deviceReset s).cfg = s.cfg := rfl
@[simp] theorem State.deviceReset_regs (s : State) :
    (State.deviceReset s).regs = Regs.reset s.cfg := rfl
@[simp] theorem State.deviceReset_env (s : State) :
    (State.deviceReset s).env = { s.env with resetPending := false, trace := s.env.trace ++ [.deviceReset] } := rfl

@[simp] theorem State.accept_cfg (s : State) (n : CmdName) (args : Regs → Regs) :
    (State.accept s n args).cfg = s.cfg := rfl
@[simp] theorem State.accept_regs (s : State) (n : CmdName) (args : Regs → Regs) :
    (State.accept s n args).regs = { args s.regs with pstate := .validating, cmd := some n } := rfl
@[simp] theorem State.accept_env (s : State) (n : CmdName) (args : Regs → Regs) :
    (State.accept s n args).env = s.env := rfl

@[simp] theorem State.enterExecuting_cfg (s : State) :
    (State.enterExecuting s).cfg = s.cfg := rfl
@[simp] theorem State.enterExecuting_regs (s : State) :
    (State.enterExecuting s).regs = { s.regs with pstate := .executing } := rfl
@[simp] theorem State.enterExecuting_env (s : State) :
    (State.enterExecuting s).env = s.env := rfl

@[simp] theorem State.setCmd_cfg (s : State) :
    (State.setCmd s).cfg = s.cfg := rfl
@[simp] theorem State.setCmd_regs (s : State) :
    (State.setCmd s).regs = { s.regs with cmd := decodeCode s.cfg (payloadByte s.regs.rxBody 0) } := rfl
@[simp] theorem State.setCmd_env (s : State) :
    (State.setCmd s).env = s.env := rfl

@[simp] theorem State.setSeq_cfg (s : State) (q : SeqState) :
    (State.setSeq s q).cfg = s.cfg := rfl
@[simp] theorem State.setSeq_regs (s : State) (q : SeqState) :
    (State.setSeq s q).regs = { s.regs with seqState := q } := rfl
@[simp] theorem State.setSeq_env (s : State) (q : SeqState) :
    (State.setSeq s q).env = s.env := rfl

@[simp] theorem State.nextUnit_cfg (s : State) :
    (State.nextUnit s).cfg = s.cfg := rfl
@[simp] theorem State.nextUnit_regs (s : State) :
    (State.nextUnit s).regs = { s.regs with seqIdx := s.regs.seqIdx + 1 } := rfl
@[simp] theorem State.nextUnit_env (s : State) :
    (State.nextUnit s).env = s.env := rfl

@[simp] theorem State.startUnits_cfg (s : State) :
    (State.startUnits s).cfg = s.cfg := rfl
@[simp] theorem State.startUnits_regs (s : State) :
    (State.startUnits s).regs = { s.regs with seqState := .units, seqIdx := 0 } := rfl
@[simp] theorem State.startUnits_env (s : State) :
    (State.startUnits s).env = s.env := rfl

@[simp] theorem State.beginUnits_cfg (s : State) :
    (State.beginUnits s).cfg = s.cfg := by simp [State.beginUnits]
@[simp] theorem State.beginUnits_regs (s : State) :
    (State.beginUnits s).regs = { s.regs with flashOpen := true, seqState := .units, seqIdx := 0 } := by simp [State.beginUnits]
@[simp] theorem State.beginUnits_env (s : State) :
    (State.beginUnits s).env = { s.env with locked := false, trace := s.env.trace ++ [.flashUnlock] } := by simp [State.beginUnits]

@[simp] theorem State.endUnits_cfg (s : State) :
    (State.endUnits s).cfg = s.cfg := by simp [State.endUnits]
@[simp] theorem State.endUnits_regs (s : State) :
    (State.endUnits s).regs = { s.regs with flashOpen := false, seqState := .lock } := by simp [State.endUnits]
@[simp] theorem State.endUnits_env (s : State) :
    (State.endUnits s).env = { s.env with locked := true, trace := s.env.trace ++ [.flashLock] } := by simp [State.endUnits]

@[simp] theorem Regs.startCycle_pstate (c : Cfg) (r : Regs) :
    (Regs.startCycle c r).pstate = .awaitingFrame := rfl
@[simp] theorem Regs.startCycle_rxLen (c : Cfg) (r : Regs) :
    (Regs.startCycle c r).rxLen = 0 := rfl
@[simp] theorem Regs.startCycle_rxBody (c : Cfg) (r : Regs) :
    (Regs.startCycle c r).rxBody = [] := rfl
@[simp] theorem Regs.startCycle_rxCrcb (c : Cfg) (r : Regs) :
    (Regs.startCycle c r).rxCrcb = ⟨0, 0, 0, 0⟩ := rfl
@[simp] theorem Regs.startCycle_rxCrc (c : Cfg) (r : Regs) :
    (Regs.startCycle c r).rxCrc = 0 := rfl
@[simp] theorem Regs.startCycle_rxIdx (c : Cfg) (r : Regs) :
    (Regs.startCycle c r).rxIdx = 0 := rfl
@[simp] theorem Regs.startCycle_crcAcc (c : Cfg) (r : Regs) :
    (Regs.startCycle c r).crcAcc = 0 := rfl
@[simp] theorem Regs.startCycle_cmd (c : Cfg) (r : Regs) :
    (Regs.startCycle c r).cmd = none := rfl
@[simp] theorem Regs.startCycle_argSector (c : Cfg) (r : Regs) :
    (Regs.startCycle c r).argSector = 0 := rfl
@[simp] theorem Regs.startCycle_argNsec (c : Cfg) (r : Regs) :
    (Regs.startCycle c r).argNsec = 0 := rfl
@[simp] theorem Regs.startCycle_argAddr (c : Cfg) (r : Regs) :
    (Regs.startCycle c r).argAddr = 0 := rfl
@[simp] theorem Regs.startCycle_argCount (c : Cfg) (r : Regs) :
    (Regs.startCycle c r).argCount = 0 := rfl
@[simp] theorem Regs.startCycle_argMask (c : Cfg) (r : Regs) :
    (Regs.startCycle c r).argMask = 0 := rfl
@[simp] theorem Regs.startCycle_argMode (c : Cfg) (r : Regs) :
    (Regs.startCycle c r).argMode = 0 := rfl
@[simp] theorem Regs.startCycle_txLen (c : Cfg) (r : Regs) :
    (Regs.startCycle c r).txLen = 0 := rfl
@[simp] theorem Regs.startCycle_txCode (c : Cfg) (r : Regs) :
    (Regs.startCycle c r).txCode = 0 := rfl
@[simp] theorem Regs.startCycle_txPayload (c : Cfg) (r : Regs) :
    (Regs.startCycle c r).txPayload = [] := rfl
@[simp] theorem Regs.startCycle_txCrc (c : Cfg) (r : Regs) :
    (Regs.startCycle c r).txCrc = 0 := rfl
@[simp] theorem Regs.startCycle_hoSp (c : Cfg) (r : Regs) :
    (Regs.startCycle c r).hoSp = 0 := rfl
@[simp] theorem Regs.startCycle_hoEntry (c : Cfg) (r : Regs) :
    (Regs.startCycle c r).hoEntry = 0 := rfl
@[simp] theorem Regs.startCycle_seqList (c : Cfg) (r : Regs) :
    (Regs.startCycle c r).seqList = [] := rfl
@[simp] theorem Regs.startCycle_seqState (c : Cfg) (r : Regs) :
    (Regs.startCycle c r).seqState = .idle := rfl
@[simp] theorem Regs.startCycle_seqIdx (c : Cfg) (r : Regs) :
    (Regs.startCycle c r).seqIdx = 0 := rfl
@[simp] theorem Regs.startCycle_ferr (c : Cfg) (r : Regs) :
    (Regs.startCycle c r).ferr = .none := rfl
@[simp] theorem Regs.startCycle_crcOk (c : Cfg) (r : Regs) :
    (Regs.startCycle c r).crcOk = false := rfl
@[simp] theorem Regs.startCycle_status (c : Cfg) (r : Regs) :
    (Regs.startCycle c r).status = c.stOk := rfl
@[simp] theorem Regs.startCycle_flashOpen (c : Cfg) (r : Regs) :
    (Regs.startCycle c r).flashOpen = false := rfl
@[simp] theorem Regs.startCycle_lastCmd (c : Cfg) (r : Regs) :
    (Regs.startCycle c r).lastCmd = r.lastCmd := rfl
@[simp] theorem Regs.startCycle_lastStatus (c : Cfg) (r : Regs) :
    (Regs.startCycle c r).lastStatus = r.lastStatus := rfl

/-- Clearing the per-cycle state twice is clearing it once (R43). -/
@[simp] theorem Regs.startCycle_startCycle (c : Cfg) (r : Regs) :
    Regs.startCycle c (Regs.startCycle c r) = Regs.startCycle c r := rfl

@[simp] theorem State.portRx_answer (s : State) (n : Nat) :
    (s.portRx n).1 = (takeBytes n s.env.rx).1 := rfl
@[simp] theorem State.portRx_cfg (s : State) (n : Nat) : (s.portRx n).2.cfg = s.cfg := rfl
@[simp] theorem State.portRx_regs (s : State) (n : Nat) : (s.portRx n).2.regs = s.regs := rfl
@[simp] theorem State.portRx_env (s : State) (n : Nat) :
    (s.portRx n).2.env = { s.env with rx := (takeBytes n s.env.rx).2, trace := s.env.trace ++ [.rx n (takeBytes n s.env.rx).1] } := rfl

end Sys2Proof.Machine
end

