-- ==== Sys2Proof/Laws/Ports.lean ====
section
/-! SUPPORT. What each port call can do, said once (`20_memory.md` R60 to R70, R86): the relation `Touches`
covers every answer of the driver, the equations after it the answers of the reference environment and of
the plans. -/

namespace Sys2Proof.Machine

@[simp] theorem State.readByte_eq (s : State) (a : Nat) :
    s.readByte a = Memory.read s.cfg.erasedByte s.env.mem a := rfl

/-- From `s` to `t` the flash content changed inside `A` only, in canonical form; the port calls `es` were
made; nothing else of the environment changed but the lock, the unit plan and the draws. -/
structure Touches (A : Nat → Prop) (es : List Event) (s t : State) : Prop where
  cfg : t.cfg = s.cfg
  rx : t.env.rx = s.env.rx
  driver : t.env.driver = s.env.driver
  protPlan : t.env.protPlan = s.env.protPlan
  resetPending : t.env.resetPending = s.env.resetPending
  trace : t.env.trace = s.env.trace ++ es
  outside : ∀ a, ¬ A a → t.readByte a = s.readByte a
  wf : Memory.wf s.cfg.erasedByte s.env.mem → Memory.wf s.cfg.erasedByte t.env.mem
  keys : ∀ c ∈ t.env.mem, c ∈ s.env.mem ∨ A c.1

theorem Touches.trans {A : Nat → Prop} {es es' : List Event} {s t u : State}
    (h : Touches A es s t) (h' : Touches A es' t u) : Touches A (es ++ es') s u where
  cfg := h'.cfg.trans h.cfg
  rx := h'.rx.trans h.rx
  driver := h'.driver.trans h.driver
  protPlan := h'.protPlan.trans h.protPlan
  resetPending := h'.resetPending.trans h.resetPending
  trace := by rw [h'.trace, h.trace, List.append_assoc]
  outside a ha := (h'.outside a ha).trans (h.outside a ha)
  wf hw := by have := h'.wf; rw [h.cfg] at this; exact this (h.wf hw)
  keys c hc := (h'.keys c hc).elim (fun hm => h.keys c hm) .inr

theorem Touches.mono {A B : Nat → Prop} {es : List Event} {s t : State} (h : Touches A es s t)
    (hAB : ∀ a, A a → B a) : Touches B es s t :=
  { h with
    outside := fun a ha => h.outside a fun hA => ha (hAB a hA)
    keys := fun c hc => (h.keys c hc).imp_right (hAB c.1) }

/-- Changes of registers only. -/
theorem Touches.of_env {A : Nat → Prop} {s t : State} (hc : t.cfg = s.cfg) (he : t.env = s.env) :
    Touches A [] s t := by
  constructor <;> simp_all

/-- A call that leaves the content alone. -/
theorem Touches.of_log {A : Nat → Prop} {s t : State} {es : List Event} (b : Bool) (hc : t.cfg = s.cfg)
    (he : t.env = { s.env with locked := b, trace := s.env.trace ++ es }) : Touches A es s t := by
  constructor <;> simp_all

/-- A change of the content inside the range `a .. a+n-1`, with the plan and the draws. -/
theorem Touches.of_mem {s t : State} {a n : Nat} {m : Memory} {p : List UnitPlan} {d : Nat} {es : List Event}
    (hc : t.cfg = s.cfg)
    (he : t.env = { s.env with mem := m, unitPlan := p, draws := d, trace := s.env.trace ++ es })
    (hm : ∀ x, ¬ Memory.Covers a n x →
      Memory.read s.cfg.erasedByte m x = Memory.read s.cfg.erasedByte s.env.mem x)
    (hw : Memory.wf s.cfg.erasedByte s.env.mem → Memory.wf s.cfg.erasedByte m)
    (hk : ∀ c ∈ m, c ∈ s.env.mem ∨ Memory.Covers a n c.1) :
    Touches (Memory.Covers a n) es s t where
  cfg := hc
  rx := by rw [he]
  driver := by rw [he]
  protPlan := by rw [he]
  resetPending := by rw [he]
  trace := by rw [he]
  outside x hx := by rw [State.readByte_eq, State.readByte_eq, hc, he]; exact hm x hx
  wf := by rw [he]; exact hw
  keys := by rw [he]; exact hk

/-- The canonical form holds at reset. -/
theorem reset_memory_wf : Memory.wf State.reset.cfg.erasedByte State.reset.env.mem := Memory.wf_nil _

@[simp] theorem drawnBytes_length (k a n : Nat) : (drawnBytes k a n).length = n := by simp [drawnBytes]

/-! The erase call. -/

/-- What the erase call leaves in the sector, and how it answers, by the next plan. -/
def eraseResult (s : State) (k : Nat) : UnitPlan → PortAnswer × Memory × Nat
  | .asReference =>
    if s.env.locked || s.env.driver.wprot.contains k then (.hardwareFault, s.env.mem, s.env.draws)
    else (.ok, Memory.erase s.env.mem (sectorBase s.cfg k) (sectorSize s.cfg k), s.env.draws)
  | .fails e =>
    (e.answer, Memory.write s.cfg.erasedByte s.env.mem (sectorBase s.cfg k)
      (drawnBytes s.env.draws (sectorBase s.cfg k) (sectorSize s.cfg k)), s.env.draws + 1)
  | .okLeaving cells =>
    (.ok, Memory.patch s.cfg.erasedByte (sectorBase s.cfg k) (sectorSize s.cfg k)
      (Memory.erase s.env.mem (sectorBase s.cfg k) (sectorSize s.cfg k)) cells, s.env.draws)

/-- `FlashEraseSector(k)` as one equation (R64, R70, R86). -/
theorem State.portFlashEraseSector_eq (s : State) (k : Nat) :
    s.portFlashEraseSector k =
      ((eraseResult s k (s.env.unitPlan.headD .asReference)).1,
        { s with env := { s.env with
            unitPlan := s.env.unitPlan.tail
            mem := (eraseResult s k (s.env.unitPlan.headD .asReference)).2.1
            draws := (eraseResult s k (s.env.unitPlan.headD .asReference)).2.2
            trace := s.env.trace ++
              [.flashEraseSector k (eraseResult s k (s.env.unitPlan.headD .asReference)).1] } }) := by
  obtain ⟨cfg, regs, rx, mem, locked, driver, unitPlan, protPlan, draws, resetPending, trace⟩ := s
  have href : ∀ ps, State.refErase ⟨cfg, regs, rx, mem, locked, driver, ps, protPlan, draws, resetPending,
        trace⟩ k =
      if locked || driver.wprot.contains k then (.hardwareFault, ⟨cfg, regs, rx, mem, locked, driver, ps,
          protPlan, draws, resetPending, trace⟩)
      else (.ok, ⟨cfg, regs, rx, Memory.erase mem (sectorBase cfg k) (sectorSize cfg k), locked, driver, ps,
          protPlan, draws, resetPending, trace⟩) := fun _ => rfl
  rcases unitPlan with _ | ⟨_ | _ | _, ps⟩ <;>
    simp only [State.portFlashEraseSector, State.nextUnitPlan, href, eraseResult,
      List.headD_nil, List.headD_cons]
  · split <;> rfl
  · split <;> rfl
  · rfl
  · rfl

theorem eraseResult_outside (s : State) (k : Nat) (p : UnitPlan) (x : Nat)
    (h : ¬ Memory.Covers (sectorBase s.cfg k) (sectorSize s.cfg k) x) :
    Memory.read s.cfg.erasedByte (eraseResult s k p).2.1 x = Memory.read s.cfg.erasedByte s.env.mem x := by
  cases p
  · simp only [eraseResult]; split <;> simp [Memory.read_erase, h]
  · simp [eraseResult, Memory.read_write, h]
  · simp [eraseResult, Memory.read_patch_outside _ _ _ _ _ _ h, Memory.read_erase, h]

theorem eraseResult_wf (s : State) (k : Nat) (p : UnitPlan) (h : Memory.wf s.cfg.erasedByte s.env.mem) :
    Memory.wf s.cfg.erasedByte (eraseResult s k p).2.1 := by
  cases p
  · simp only [eraseResult]; split
    · exact h
    · exact Memory.wf_erase _ _ h
  · exact Memory.wf_write _ _ h
  · exact Memory.wf_patch _ _ _ (Memory.wf_erase _ _ h)

theorem eraseResult_keys (s : State) (k : Nat) (p : UnitPlan) :
    ∀ c ∈ (eraseResult s k p).2.1,
      c ∈ s.env.mem ∨ Memory.Covers (sectorBase s.cfg k) (sectorSize s.cfg k) c.1 := by
  intro c hc
  cases p
  · simp only [eraseResult] at hc; split at hc
    · exact .inl hc
    · exact .inl (Memory.mem_erase hc)
  · exact (Memory.key_write hc).imp_right fun h => by simpa [Memory.Covers] using h
  · exact (Memory.key_patch hc).imp_left Memory.mem_erase

/-- Whatever the driver answers, the erase call touches its own sector only. -/
theorem State.portFlashEraseSector_touches (s : State) (k : Nat) :
    Touches (Memory.Covers (sectorBase s.cfg k) (sectorSize s.cfg k))
      [.flashEraseSector k (s.portFlashEraseSector k).1] s (s.portFlashEraseSector k).2 := by
  rw [State.portFlashEraseSector_eq]
  exact .of_mem rfl rfl (eraseResult_outside s k _) (eraseResult_wf s k _) (eraseResult_keys s k _)

@[simp] theorem State.portFlashEraseSector_regs (s : State) (k : Nat) :
    (s.portFlashEraseSector k).2.regs = s.regs := by rw [State.portFlashEraseSector_eq]

@[simp] theorem State.portFlashEraseSector_locked (s : State) (k : Nat) :
    (s.portFlashEraseSector k).2.env.locked = s.env.locked := by rw [State.portFlashEraseSector_eq]

/-! The program call. -/

/-- What the program call leaves at the word's address, and how it answers, by the next plan. -/
def programResult (s : State) (a w : Nat) : UnitPlan → PortAnswer × Memory × Nat
  | .asReference =>
    if s.env.locked || s.writeProtected a then (.hardwareFault, s.env.mem, s.env.draws)
    else if Memory.erasedOn s.cfg.erasedByte s.env.mem a s.cfg.wordBytes then
      (.ok, Memory.write s.cfg.erasedByte s.env.mem a (wordBytesOf s.cfg.wordBytes w), s.env.draws)
    else (.ok, Memory.write s.cfg.erasedByte s.env.mem a (drawnBytes s.env.draws a s.cfg.wordBytes),
      s.env.draws + 1)
  | .fails e =>
    (e.answer, Memory.write s.cfg.erasedByte s.env.mem a (drawnBytes s.env.draws a s.cfg.wordBytes),
      s.env.draws + 1)
  | .okLeaving cells =>
    (.ok, Memory.patch s.cfg.erasedByte a s.cfg.wordBytes
      (Memory.write s.cfg.erasedByte s.env.mem a (wordBytesOf s.cfg.wordBytes w)) cells, s.env.draws)

/-- `FlashProgramWord(a, w)` as one equation (R65, R70, R75 (b), R86). -/
theorem State.portFlashProgramWord_eq (s : State) (a w : Nat) :
    s.portFlashProgramWord a w =
      ((programResult s a w (s.env.unitPlan.headD .asReference)).1,
        { s with env := { s.env with
            unitPlan := s.env.unitPlan.tail
            mem := (programResult s a w (s.env.unitPlan.headD .asReference)).2.1
            draws := (programResult s a w (s.env.unitPlan.headD .asReference)).2.2
            trace := s.env.trace ++
              [.flashProgramWord a w (programResult s a w (s.env.unitPlan.headD .asReference)).1] } }) := by
  obtain ⟨cfg, regs, rx, mem, locked, driver, unitPlan, protPlan, draws, resetPending, trace⟩ := s
  generalize hb : State.writeProtected ⟨cfg, regs, rx, mem, locked, driver, unitPlan, protPlan, draws,
    resetPending, trace⟩ a = b
  have hw : ∀ ps, State.writeProtected ⟨cfg, regs, rx, mem, locked, driver, ps, protPlan, draws,
    resetPending, trace⟩ a = b := fun _ => hb
  have href : ∀ ps, State.refProgram ⟨cfg, regs, rx, mem, locked, driver, ps, protPlan, draws, resetPending,
        trace⟩ a w =
      if locked || b then (.hardwareFault, ⟨cfg, regs, rx, mem, locked, driver, ps,
          protPlan, draws, resetPending, trace⟩)
      else if Memory.erasedOn cfg.erasedByte mem a cfg.wordBytes then
        (.ok, ⟨cfg, regs, rx, Memory.write cfg.erasedByte mem a (wordBytesOf cfg.wordBytes w), locked, driver,
          ps, protPlan, draws, resetPending, trace⟩)
      else (.ok, ⟨cfg, regs, rx, Memory.write cfg.erasedByte mem a (drawnBytes draws a cfg.wordBytes), locked,
          driver, ps, protPlan, draws + 1, resetPending, trace⟩) := by
    intro ps; rw [State.refProgram, hw]; rfl
  rcases unitPlan with _ | ⟨_ | _ | _, ps⟩ <;>
    simp only [State.portFlashProgramWord, State.nextUnitPlan, href, hw, programResult,
      List.headD_nil, List.headD_cons]
  · split
    · rfl
    · split <;> rfl
  · split
    · rfl
    · split <;> rfl
  · rfl
  · rfl

theorem programResult_outside (s : State) (a w : Nat) (p : UnitPlan) (x : Nat)
    (h : ¬ Memory.Covers a s.cfg.wordBytes x) :
    Memory.read s.cfg.erasedByte (programResult s a w p).2.1 x
      = Memory.read s.cfg.erasedByte s.env.mem x := by
  cases p
  · simp only [programResult]; split
    · rfl
    · split <;> simp [Memory.read_write, h]
  · simp [programResult, Memory.read_write, h]
  · simp [programResult, Memory.read_patch_outside _ _ _ _ _ _ h, Memory.read_write, h]

theorem programResult_wf (s : State) (a w : Nat) (p : UnitPlan) (h : Memory.wf s.cfg.erasedByte s.env.mem) :
    Memory.wf s.cfg.erasedByte (programResult s a w p).2.1 := by
  cases p
  · simp only [programResult]; split
    · exact h
    · split <;> exact Memory.wf_write _ _ h
  · exact Memory.wf_write _ _ h
  · exact Memory.wf_patch _ _ _ (Memory.wf_write _ _ h)

theorem programResult_keys (s : State) (a w : Nat) (p : UnitPlan) :
    ∀ c ∈ (programResult s a w p).2.1, c ∈ s.env.mem ∨ Memory.Covers a s.cfg.wordBytes c.1 := by
  have key : ∀ (bytes : List Byte) (c : Host.Cell), bytes.length = s.cfg.wordBytes →
      c ∈ Memory.write s.cfg.erasedByte s.env.mem a bytes →
      c ∈ s.env.mem ∨ Memory.Covers a s.cfg.wordBytes c.1 := by
    intro bytes c hb hc
    rw [← hb]; exact Memory.key_write hc
  intro c hc
  cases p
  · simp only [programResult] at hc
    split at hc
    · exact .inl hc
    · split at hc <;> exact key _ c (by simp) hc
  · exact key _ c (by simp) hc
  · rcases Memory.key_patch hc with h | h
    · exact key _ c (by simp) h
    · exact .inr h

/-- Whatever the driver answers, the program call touches its own word only. -/
theorem State.portFlashProgramWord_touches (s : State) (a w : Nat) :
    Touches (Memory.Covers a s.cfg.wordBytes)
      [.flashProgramWord a w (s.portFlashProgramWord a w).1] s (s.portFlashProgramWord a w).2 := by
  rw [State.portFlashProgramWord_eq]
  exact .of_mem rfl rfl (programResult_outside s a w _) (programResult_wf s a w _) (programResult_keys s a w _)

@[simp] theorem State.portFlashProgramWord_regs (s : State) (a w : Nat) :
    (s.portFlashProgramWord a w).2.regs = s.regs := by rw [State.portFlashProgramWord_eq]

@[simp] theorem State.portFlashProgramWord_locked (s : State) (a w : Nat) :
    (s.portFlashProgramWord a w).2.env.locked = s.env.locked := by rw [State.portFlashProgramWord_eq]

/-! The reads. -/

/-- `MemRead` answers in the mapped spaces, and only there (R67, R69). -/
theorem State.portMemRead_eq (s : State) (a n : Nat) (h : mapped s.cfg a n = true) :
    s.portMemRead a n = some (Memory.readBytes s.cfg.erasedByte s.env.mem a n,
      s.log (.memRead a n (Memory.readBytes s.cfg.erasedByte s.env.mem a n))) := by
  simp [State.portMemRead, h]

theorem State.portMemRead_none (s : State) (a n : Nat) (h : mapped s.cfg a n = false) :
    s.portMemRead a n = none := by simp [State.portMemRead, h]

/-- The inversion of `MemRead`. -/
theorem State.portMemRead_some {s t : State} {a n : Nat} {b : List Byte}
    (h : s.portMemRead a n = some (b, t)) :
    mapped s.cfg a n = true ∧ b = Memory.readBytes s.cfg.erasedByte s.env.mem a n ∧
      t = s.log (.memRead a n b) := by
  by_cases hm : mapped s.cfg a n = true
  · rw [State.portMemRead_eq s a n hm] at h
    obtain ⟨rfl, rfl⟩ := Prod.mk.inj (Option.some.inj h)
    exact ⟨hm, rfl, rfl⟩
  · simp [State.portMemRead, hm] at h

theorem State.anyReadProtected_iff (s : State) (a n : Nat) :
    s.anyReadProtected a n = true ↔ ∃ i < n, s.readProtected (a + i) = true := by
  simp [State.anyReadProtected]

theorem State.anyReadProtected_false_iff (s : State) (a n : Nat) :
    s.anyReadProtected a n = false ↔ ∀ i < n, s.readProtected (a + i) = false := by
  simp [State.anyReadProtected]

/-! The protection calls. -/

/-- What a protection-write call answers and leaves, by the next plan (R68; log 13). -/
def protectionResult (s : State) (new : DriverStatus) : ProtPlan → PortAnswer × DriverStatus × Nat
  | .asReference => (.ok, new, s.env.draws)
  | .fails e => (e.answer, Config.drawStatus s.env.draws, s.env.draws + 1)
  | .okLeaving d => (.ok, d, s.env.draws)

/-- A protection-write call as one equation. -/
theorem State.protectionCall_eq (s : State) (new : DriverStatus) :
    s.protectionCall new =
      ((protectionResult s new (s.env.protPlan.headD .asReference)).1,
        { s with env := { s.env with
            protPlan := s.env.protPlan.tail
            driver := (protectionResult s new (s.env.protPlan.headD .asReference)).2.1
            draws := (protectionResult s new (s.env.protPlan.headD .asReference)).2.2 } }) := by
  obtain ⟨cfg, regs, rx, mem, locked, driver, unitPlan, protPlan, draws, resetPending, trace⟩ := s
  rcases protPlan with _ | ⟨_ | _ | _, ps⟩ <;> rfl

end Sys2Proof.Machine
end

