-- ==== Sys2Proof/Laws/Ops.lean ====
section
/-! SUPPORT. What the shared operations of the protocol do: taking an error (`60_exceptions.md` R304), the end
of a command (`42_dispatch.md` R178) and the shape every command has (R171). -/

namespace Sys2Proof.Machine

/-! Taking an error. -/

theorem State.payLock_of_closed {s : State} (h : s.regs.flashOpen = false) : s.payLock = s := by
  simp [State.payLock, h]

theorem State.payLock_of_open {s : State} (h : s.regs.flashOpen = true) : s.payLock = s.closeFlash := by
  simp [State.payLock, h]

@[simp] theorem State.payLock_cfg (s : State) : s.payLock.cfg = s.cfg := by
  unfold State.payLock; split <;> simp

@[simp] theorem State.payLock_regs (s : State) : s.payLock.regs = { s.regs with flashOpen := false } := by
  cases h : s.regs.flashOpen
  · rw [State.payLock_of_closed h, ← h]
  · rw [State.payLock_of_open h]; simp

@[simp] theorem State.payLock_mem (s : State) : s.payLock.env.mem = s.env.mem := by
  unfold State.payLock; split <;> simp

/-- `Timeout` starts the next cycle (R172, R292). -/
theorem State.raise_timeout (s : State) : s.raise .timeout = (s.setFerr .timeout).newCycle := rfl

/-- Every other error pays the owed lock and leaves the failure frame (R304 (1) to (3)). -/
theorem State.raise_of_status {s : State} {e : Err} {st : Byte} (h : s.cfg.status e = some st) :
    s.raise e = s.payLock.respond st [] := by simp [State.raise, h]

/-- With no lock owed, only the response is left. -/
theorem State.raise_of_closed {s : State} {e : Err} {st : Byte} (h : s.cfg.status e = some st)
    (hf : s.regs.flashOpen = false) : s.raise e = s.respond st [] := by
  rw [State.raise_of_status h, State.payLock_of_closed hf]

/-- Only `Timeout` has no status (R291). -/
theorem status_none_iff (c : Cfg) (e : Err) : c.status e = none ↔ e = .timeout := by cases e <;> simp [Cfg.status]

theorem status_of_ne_timeout (c : Cfg) {e : Err} (h : e ≠ .timeout) : ∃ st, c.status e = some st := by
  cases hs : c.status e with
  | none => exact absurd ((status_none_iff c e).mp hs) h
  | some st => exact ⟨st, rfl⟩

/-- Everything that taking an error can do: the cases of R304. -/
theorem State.raise_cases (s : State) (e : Err) :
    (e = .timeout ∧ s.raise e = (s.setFerr .timeout).newCycle) ∨
      ∃ st, s.cfg.status e = some st ∧ s.raise e = s.payLock.respond st [] := by
  by_cases h : e = .timeout
  · subst h; exact .inl ⟨rfl, rfl⟩
  · obtain ⟨st, hs⟩ := status_of_ne_timeout s.cfg h
    exact .inr ⟨st, hs, State.raise_of_status hs⟩

@[simp] theorem State.raise_cfg (s : State) (e : Err) : (s.raise e).cfg = s.cfg := by
  rcases s.raise_cases e with ⟨_, h⟩ | ⟨_, _, h⟩ <;> simp [h]

@[simp] theorem State.raise_mem (s : State) (e : Err) : (s.raise e).env.mem = s.env.mem := by
  rcases s.raise_cases e with ⟨_, h⟩ | ⟨_, _, h⟩ <;> simp [h]

theorem State.raise_env_of_closed {s : State} (e : Err) (hf : s.regs.flashOpen = false) :
    (s.raise e).env = s.env := by
  rcases s.raise_cases e with ⟨_, h⟩ | ⟨_, _, h⟩
  · simp [h]
  · simp [h, State.payLock_of_closed hf]

/-! The end of a command. -/

@[simp] theorem Ran.finish_done (d : List Byte) (s : State) : (Ran.done d s).finish = .next (s.succeed d) := rfl
@[simp] theorem Ran.finish_raised (e : Err) (s : State) : (Ran.raised e s).finish = .next (s.raise e) := rfl
@[simp] theorem Ran.finish_stopped (f : Fault) : (Ran.stopped f).finish = .fault f := rfl

/-- A command whose check passes runs its execution (R177). -/
theorem runCommand_of_done {n : CmdName} {args : Regs → Regs} {check run : State → Ran} {s s1 : State}
    {d : List Byte} (h : check (s.accept n args) = .done d s1) :
    runCommand n args check run s = (run s1.enterExecuting).finish := by simp [runCommand, h]

/-- A command whose check fails takes that error, and nothing of it is executed (R176, R180). -/
theorem runCommand_of_raised {n : CmdName} {args : Regs → Regs} {check run : State → Ran} {s s1 : State}
    {e : Err} (h : check (s.accept n args) = .raised e s1) :
    runCommand n args check run s = .next (s1.raise e) := by simp [runCommand, h]

/-- Everything a command that completes can have done. -/
theorem runCommand_next {n : CmdName} {args : Regs → Regs} {check run : State → Ran} {s t : State}
    (h : runCommand n args check run s = .next t) :
    (∃ e u, check (s.accept n args) = .raised e u ∧ t = u.raise e) ∨
      ∃ d u, check (s.accept n args) = .done d u ∧
        ((∃ d' v, run u.enterExecuting = .done d' v ∧ t = v.succeed d') ∨
          ∃ e v, run u.enterExecuting = .raised e v ∧ t = v.raise e) := by
  unfold runCommand at h
  cases hc : check (s.accept n args) with
  | done d u =>
    rw [hc] at h
    change (run u.enterExecuting).finish = .next t at h
    refine .inr ⟨d, u, rfl, ?_⟩
    cases hr : run u.enterExecuting with
    | done d' v => rw [hr] at h; cases h; exact .inl ⟨d', v, rfl, rfl⟩
    | raised e v => rw [hr] at h; cases h; exact .inr ⟨e, v, rfl, rfl⟩
    | stopped f => rw [hr] at h; cases h
  | raised e u => rw [hc] at h; cases h; exact .inl ⟨e, u, rfl, rfl⟩
  | stopped f => rw [hc] at h; cases h

@[simp] theorem noCheck_eq (s : State) : noCheck s = .done [] s := rfl

/-- The three ends of a call whose answer is `Ok` or a failure (R235, R236). -/
theorem ofAnswer_ok (s : State) : ofAnswer (.ok, s) = .done [] s := rfl
theorem ofAnswer_hardwareFault (s : State) : ofAnswer (.hardwareFault, s) = .raised .hardwareFault s := rfl
theorem ofAnswer_timeout (s : State) : ofAnswer (.timeout, s) = .raised .flashTimeout s := rfl

/-! The response frames. -/

@[simp] theorem State.sendResponse_cfg (s : State) (code status : Byte) (data : List Byte) :
    (s.sendResponse code status data).cfg = s.cfg := rfl

@[simp] theorem State.sendResponse_cmd (s : State) (code status : Byte) (data : List Byte) :
    (s.sendResponse code status data).regs.cmd = s.regs.cmd := rfl

@[simp] theorem State.sendResponse_argAddr (s : State) (code status : Byte) (data : List Byte) :
    (s.sendResponse code status data).regs.argAddr = s.regs.argAddr := rfl

@[simp] theorem State.sendResponse_hoSp (s : State) (code status : Byte) (data : List Byte) :
    (s.sendResponse code status data).regs.hoSp = s.regs.hoSp := rfl

@[simp] theorem State.sendResponse_hoEntry (s : State) (code status : Byte) (data : List Byte) :
    (s.sendResponse code status data).regs.hoEntry = s.regs.hoEntry := rfl

@[simp] theorem State.sendResponse_lastStatus (s : State) (code status : Byte) (data : List Byte) :
    (s.sendResponse code status data).regs.lastStatus = status := rfl

@[simp] theorem State.sendResponse_lastCmd (s : State) (code status : Byte) (data : List Byte) :
    (s.sendResponse code status data).regs.lastCmd
      = if s.regs.ferr = .none then payloadByte s.regs.rxBody 0 else s.regs.lastCmd := rfl

@[simp] theorem State.sendResponse_env (s : State) (code status : Byte) (data : List Byte) :
    (s.sendResponse code status data).env
      = { s.env with trace := s.env.trace ++ [.tx (frame s.cfg code (status :: data))] } := rfl

end Sys2Proof.Machine
end

