-- ==== Sys2Proof/Laws/Codec.lean ====
section
/-! SUPPORT. What the frame parser can do (`41_frame_codec.md` R140 to R147): the transport queue, and every
way `read_frame` can end. -/

namespace Sys2Proof.Machine

/-! The transport queue. -/

theorem takeBytes_bytes (bs : List Byte) (rest : List RxItem) :
    takeBytes bs.length (bs.map RxItem.byte ++ rest) = (some bs, rest) := by
  induction bs with
  | nil => rfl
  | cons b bs ih => simp [takeBytes, ih]

/-- The same, for a length given otherwise. -/
theorem takeBytes_bytes_of_length {n : Nat} {bs : List Byte} (rest : List RxItem) (h : bs.length = n) :
    takeBytes n (bs.map RxItem.byte ++ rest) = (some bs, rest) := h ▸ takeBytes_bytes bs rest

/-- Too few bytes and then silence: `Timeout`, and the bytes are lost. -/
theorem takeBytes_short {n : Nat} {bs : List Byte} (h : bs.length < n) :
    takeBytes n (bs.map RxItem.byte) = (none, []) ∧
      ∀ rest, takeBytes n (bs.map RxItem.byte ++ .gap :: rest) = (none, rest) := by
  induction bs generalizing n with
  | nil =>
    match n, h with
    | n + 1, _ => exact ⟨rfl, fun _ => rfl⟩
  | cons b bs ih =>
    match n, h with
    | n + 1, h =>
      obtain ⟨h1, h2⟩ := ih (n := n) (by simpa using h)
      exact ⟨by simp [takeBytes, h1], fun rest => by simp [takeBytes, h2 rest]⟩

theorem takeBytes_some_length {n : Nat} {q q' : List RxItem} {bs : List Byte}
    (h : takeBytes n q = (some bs, q')) : bs.length = n := by
  induction n generalizing q q' bs with
  | zero => simp [takeBytes] at h; simp [← h.1]
  | succ n ih =>
    match q with
    | [] => simp [takeBytes] at h
    | .gap :: q => simp [takeBytes] at h
    | .byte b :: q =>
      rcases hq : takeBytes n q with ⟨_ | bs', q''⟩ <;> simp [takeBytes, hq] at h
      obtain ⟨rfl, rfl⟩ := h
      simp [ih hq]

/-! The crc on the wire. -/

theorem crcOfBytes_crcBytes (o : WireOrder) (v : Word) :
    crcOfBytes o ((crcBytes o v).getD 0 0) ((crcBytes o v).getD 1 0) ((crcBytes o v).getD 2 0)
      ((crcBytes o v).getD 3 0) = v := by
  have h : le32 (byteOf32 v 0) (byteOf32 v 1) (byteOf32 v 2) (byteOf32 v 3) = v := by
    apply BitVec.eq_of_getLsbD_eq
    intro i hi
    simp only [le32, byteOf32, BitVec.getLsbD_append, BitVec.getLsbD_extractLsb']
    by_cases h1 : i < 8
    · simp [h1, show i < 16 by omega]
    · by_cases h2 : i < 16
      · simp [h1, h2, show i - 8 < 8 by omega, show 8 + (i - 8) = i by omega]
      · by_cases h3 : i < 24
        · simp [h2, show i - 16 < 8 by omega, show 16 + (i - 16) = i by omega]
        · simp [h2, show ¬ i - 16 < 8 by omega, show i - 16 - 8 < 8 by omega,
            show 24 + (i - 16 - 8) = i by omega]
  cases o <;> exact h

@[simp] theorem crcBytes_length (o : WireOrder) (v : Word) : (crcBytes o v).length = 4 := by
  cases o <;> rfl

/-! `read_frame`. -/

/-- Everything `read_frame` can do, from any of its positions: it calls `Rx` only, it writes only the `RX_`
registers, `FERR`, `CRC_ACC` and `CRC_OK`, and when it ends without an error, and `W` held at the position it was
taken up at, the frame in the registers is whole and its CRC matches (R140, R145 to R147). -/
structure ReadsFrame (W : Prop) (s t : State) : Prop where
  cfg : t.cfg = s.cfg
  env : ∃ q es, t.env = { s.env with rx := q, trace := s.env.trace ++ es } ∧ ∀ e ∈ es, e.isRx = true
  regs : t.regs = { s.regs with
    ferr := t.regs.ferr, rxIdx := t.regs.rxIdx, rxLen := t.regs.rxLen, rxBody := t.regs.rxBody
    rxCrcb := t.regs.rxCrcb, rxCrc := t.regs.rxCrc, crcAcc := t.regs.crcAcc, crcOk := t.regs.crcOk }
  whole : W → t.regs.ferr = .none →
    t.regs.crcOk = true ∧ t.regs.rxLen ≠ 0 ∧ t.regs.rxBody.length = t.regs.rxLen.toNat ∧
      t.regs.rxIdx = 5 + t.regs.rxLen.toNat ∧ t.regs.rxCrc = crc t.cfg (t.regs.rxLen :: t.regs.rxBody)

theorem ReadsFrame.mono {W V : Prop} {s t : State} (h : ReadsFrame W s t) (hv : V → W) : ReadsFrame V s t :=
  { h with whole := fun v => h.whole (hv v) }

/-- Two parts of the reading, one after the other. -/
theorem ReadsFrame.of_parts {W V : Prop} {s u t : State} {q : List RxItem} {es : List Event}
    (hc : u.cfg = s.cfg)
    (he : u.env = { s.env with rx := q, trace := s.env.trace ++ es }) (hes : ∀ e ∈ es, e.isRx = true)
    (hr : u.regs = { s.regs with
      ferr := u.regs.ferr, rxIdx := u.regs.rxIdx, rxLen := u.regs.rxLen, rxBody := u.regs.rxBody
      rxCrcb := u.regs.rxCrcb, rxCrc := u.regs.rxCrc, crcAcc := u.regs.crcAcc, crcOk := u.regs.crcOk })
    (hv : V → W) (h : ReadsFrame W u t) : ReadsFrame V s t where
  cfg := h.cfg.trans hc
  env := by
    obtain ⟨q', es', h1, h2⟩ := h.env
    refine ⟨q', es ++ es', by rw [h1, he]; simp, fun e hm => ?_⟩
    rcases List.mem_append.mp hm with hm | hm
    · exact hes e hm
    · exact h2 e hm
  regs := by rw [h.regs, hr]
  whole v := h.whole (hv v)

/-- A reading that ends with `FERR = e`, not none. -/
theorem ReadsFrame.of_ferr {W : Prop} {s u : State} {e : FrameErr} {q : List RxItem} {es : List Event}
    (hc : u.cfg = s.cfg) (he : u.env = { s.env with rx := q, trace := s.env.trace ++ es })
    (hes : ∀ e ∈ es, e.isRx = true)
    (hr : u.regs = { s.regs with
      ferr := u.regs.ferr, rxIdx := u.regs.rxIdx, rxLen := u.regs.rxLen, rxBody := u.regs.rxBody
      rxCrcb := u.regs.rxCrcb, rxCrc := u.regs.rxCrc, crcAcc := u.regs.crcAcc, crcOk := u.regs.crcOk })
    (hf : e ≠ .none) : ReadsFrame W s (u.setFerr e) where
  cfg := hc
  env := ⟨q, es, he, hes⟩
  regs := by rw [State.setFerr_regs, hr]
  whole _ h := absurd h hf

theorem State.judgeCrc_spec (s : State) :
    ReadsFrame (s.regs.rxLen ≠ 0 ∧ s.regs.rxBody.length = s.regs.rxLen.toNat ∧
      s.regs.rxIdx = 5 + s.regs.rxLen.toNat) s s.judgeCrc := by
  unfold State.judgeCrc
  dsimp only
  split
  · next hc =>
    simp only [State.crcCheck_regs, crcMatches, beq_iff_eq] at hc
    refine ⟨rfl, ⟨s.env.rx, [], by simp, by simp⟩, by simp, fun ⟨h1, h2, h3⟩ _ => ?_⟩
    simp only [State.crcCheck_regs, State.crcCheck_cfg, crcMatches, beq_iff_eq]
    exact ⟨hc, h1, h2, h3, hc.symm⟩
  · exact .of_ferr (es := []) (q := s.env.rx) rfl (by simp) (by simp) (by simp) (by simp)

theorem State.readCrc_spec (s : State) :
    ReadsFrame (s.regs.rxLen ≠ 0 ∧ s.regs.rxBody.length = s.regs.rxLen.toNat) s s.readCrc := by
  unfold State.readCrc
  rcases hq : takeBytes 4 s.env.rx with ⟨_ | b, q⟩
  · simp only [State.portRx_answer, hq]
    exact .of_ferr (es := [.rx 4 none]) (q := q) rfl (by simp [hq]) (by simp [Event.isRx])
      (by simp) (by simp)
  · simp only [State.portRx_answer, hq]
    exact .of_parts
      (u := (s.portRx 4).2.storeCrc (b.getD 0 0) (b.getD 1 0) (b.getD 2 0) (b.getD 3 0))
      (es := [.rx 4 (some b)]) (q := q) rfl (by simp [hq]) (by simp [Event.isRx]) (by simp)
      (fun h => by simpa using h) (State.judgeCrc_spec _)

theorem State.readBody_spec (s : State) : ReadsFrame (s.regs.rxLen ≠ 0) s s.readBody := by
  unfold State.readBody
  rcases hq : takeBytes s.regs.rxLen.toNat s.env.rx with ⟨_ | b, q⟩
  · simp only [State.portRx_answer, hq]
    exact .of_ferr (es := [.rx s.regs.rxLen.toNat none]) (q := q) rfl (by simp [hq]) (by simp [Event.isRx])
      (by simp) (by simp)
  · simp only [State.portRx_answer, hq]
    have hb := takeBytes_some_length hq
    exact .of_parts (u := (s.portRx s.regs.rxLen.toNat).2.storeBody b)
      (es := [.rx s.regs.rxLen.toNat (some b)]) (q := q) rfl (by simp [hq]) (by simp [Event.isRx])
      (by simp) (fun h => by simpa using ⟨h, hb⟩) (State.readCrc_spec _)

theorem State.afterLength_spec (s : State) : ReadsFrame True s s.afterLength := by
  unfold State.afterLength
  split
  · exact .of_ferr (es := []) (q := s.env.rx) rfl (by simp) (by simp) (by simp) (by simp)
  · next hl => exact s.readBody_spec.mono fun _ => hl

theorem State.readFrame_spec (s : State) : ReadsFrame True s s.readFrame := by
  unfold State.readFrame
  rcases hq : takeBytes 1 s.env.rx with ⟨_ | b, q⟩
  · simp only [State.portRx_answer, State.startFrame_env, hq]
    exact .of_ferr (es := [.rx 1 none]) (q := q) rfl (by simp [hq]) (by simp [Event.isRx])
      (by simp) (by simp)
  · simp only [State.portRx_answer, State.startFrame_env, hq]
    exact .of_parts (u := (s.startFrame.portRx 1).2.storeLength (b.getD 0 0))
      (es := [.rx 1 (some b)]) (q := q) rfl (by simp [hq]) (by simp [Event.isRx]) (by simp) id
      (State.afterLength_spec _)

/-- From the start of a frame the whole frame is read (R24, R33). -/
theorem State.continueFrame_of_start {s : State} (h : s.regs.rxIdx = 0) :
    s.continueFrame = some s.readFrame := by simp [State.continueFrame, h]

/-- Everything the reading can do from the position it is taken up at (R33). -/
theorem State.continueFrame_spec {s t : State} (h : s.continueFrame = some t) :
    ReadsFrame (s.regs.rxIdx = 0) s t := by
  unfold State.continueFrame at h
  split at h
  · cases h; exact s.readFrame_spec.mono fun _ => trivial
  next h0 =>
  split at h
  · next hf =>
    cases h
    exact ⟨rfl, ⟨s.env.rx, [], by simp, by simp⟩, rfl, fun h => absurd h h0⟩
  split at h
  · cases h; exact s.afterLength_spec.mono fun h => absurd h h0
  split at h
  · cases h; exact s.readCrc_spec.mono fun h => absurd h h0
  split at h
  · cases h; exact s.judgeCrc_spec.mono fun h => absurd h h0
  · cases h

end Sys2Proof.Machine
end

