-- ==== Sys2Proof/Laws/Flash.lean ====
section
/-! SUPPORT. What the erase and program sequences do (`44_flash_commands.md` R223 to R230): the relation
`Touches` for every answer of the driver, and one equation for the answers of the reference environment. -/

namespace Sys2Proof.Machine

/-- The registers a sequence writes: `SEQ_STATE`, `SEQ_IDX`, `FLASH_OPEN` (R223, R226). -/
def Regs.seqAt (r : Regs) (q : SeqState) (n : Nat) (o : Bool) : Regs :=
  { r with seqState := q, seqIdx := n, flashOpen := o }

@[simp] theorem Regs.seqAt_seqAt (r : Regs) (q q' : SeqState) (n n' : Nat) (o o' : Bool) :
    (r.seqAt q n o).seqAt q' n' o' = r.seqAt q' n' o' := rfl
@[simp] theorem Regs.seqAt_seqState (r : Regs) (q : SeqState) (n : Nat) (o : Bool) :
    (r.seqAt q n o).seqState = q := rfl
@[simp] theorem Regs.seqAt_seqIdx (r : Regs) (q : SeqState) (n : Nat) (o : Bool) :
    (r.seqAt q n o).seqIdx = n := rfl
@[simp] theorem Regs.seqAt_flashOpen (r : Regs) (q : SeqState) (n : Nat) (o : Bool) :
    (r.seqAt q n o).flashOpen = o := rfl
@[simp] theorem Regs.seqAt_seqList (r : Regs) (q : SeqState) (n : Nat) (o : Bool) :
    (r.seqAt q n o).seqList = r.seqList := rfl

theorem State.beginUnits_seqAt (s : State) : s.beginUnits.regs = s.regs.seqAt .units 0 true := by
  rw [State.beginUnits_regs, Regs.seqAt]
theorem State.endUnits_seqAt (s : State) :
    s.endUnits.regs = s.regs.seqAt .lock s.regs.seqIdx false := by rw [State.endUnits_regs, Regs.seqAt]
theorem State.setSeq_seqAt (s : State) (q : SeqState) :
    (s.setSeq q).regs = s.regs.seqAt q s.regs.seqIdx s.regs.flashOpen := rfl
theorem State.nextUnit_seqAt (s : State) :
    s.nextUnit.regs = s.regs.seqAt s.regs.seqState (s.regs.seqIdx + 1) s.regs.flashOpen := rfl

/-! The unit calls of an erase. -/

@[simp] theorem eraseUnits_nil (s : State) : eraseUnits [] s = (none, s) := rfl

theorem eraseUnits_cons (k : Nat) (ks : List Nat) (s : State) :
    eraseUnits (k :: ks) s =
      match (s.portFlashEraseSector k).1.err with
      | none => eraseUnits ks (s.portFlashEraseSector k).2.nextUnit
      | some e => (some e, (s.portFlashEraseSector k).2) := rfl

/-- The rest of a list is asked for when its beginning met no fault (R229). -/
theorem eraseUnits_append (ks ls : List Nat) (s : State) :
    eraseUnits (ks ++ ls) s =
      match eraseUnits ks s with
      | (none, t) => eraseUnits ls t
      | (some e, t) => (some e, t) := by
  induction ks generalizing s with
  | nil => rfl
  | cons k ks ih =>
    rw [List.cons_append, eraseUnits_cons, eraseUnits_cons]
    cases (s.portFlashEraseSector k).1.err with
    | none => exact ih _
    | some e => rfl

/-- Whatever the driver answers, only the asked sectors are touched, and only they are asked for. -/
theorem eraseUnits_touches (ks : List Nat) (s : State) :
    ∃ es, Touches (fun a => ∃ k ∈ ks, inSector s.cfg k a = true) es s (eraseUnits ks s).2 ∧
      (∀ e ∈ es, ∃ k ∈ ks, ∃ ans, e = .flashEraseSector k ans) ∧
      (eraseUnits ks s).2.env.locked = s.env.locked ∧
      (∃ n, (eraseUnits ks s).2.regs = s.regs.seqAt s.regs.seqState n s.regs.flashOpen) ∧
      ∀ e, (eraseUnits ks s).1 = some e → e = .hardwareFault ∨ e = .flashTimeout := by
  induction ks generalizing s with
  | nil => exact ⟨[], Touches.of_env rfl rfl, by simp, rfl, ⟨_, rfl⟩, by simp⟩
  | cons k ks ih =>
    have h1 : Touches (fun a => ∃ j ∈ k :: ks, inSector s.cfg j a = true)
        [.flashEraseSector k (s.portFlashEraseSector k).1] s (s.portFlashEraseSector k).2 :=
      (s.portFlashEraseSector_touches k).mono fun a ha => ⟨k, by simp, (inSector_iff _ _ _).mpr ha⟩
    rw [eraseUnits_cons]
    cases he : (s.portFlashEraseSector k).1.err with
    | none =>
      obtain ⟨es, t, hes, hl, ⟨n, hr⟩, hx⟩ := ih (s.portFlashEraseSector k).2.nextUnit
      have hc : (s.portFlashEraseSector k).2.nextUnit.cfg = s.cfg := h1.cfg
      refine ⟨_, (h1.trans (Touches.of_env (t := (s.portFlashEraseSector k).2.nextUnit) rfl rfl)).trans
        (t.mono fun a ⟨j, hj, ha⟩ => ⟨j, by simp [hj], by rwa [hc] at ha⟩), ?_, ?_, ?_, hx⟩
      · intro e hm
        simp only [List.append_nil, List.mem_append, List.mem_singleton] at hm
        rcases hm with rfl | hm
        · exact ⟨k, by simp, _, rfl⟩
        · obtain ⟨j, hj, ans, rfl⟩ := hes e hm; exact ⟨j, by simp [hj], ans, rfl⟩
      · simpa using hl
      · exact ⟨n, by rw [hr, State.nextUnit_seqAt]; simp⟩
    | some e =>
      refine ⟨_, h1, ?_, by simp, ⟨s.regs.seqIdx, by simp only [State.portFlashEraseSector_regs]; rfl⟩, ?_⟩
      · intro e hm
        rw [List.mem_singleton] at hm
        exact ⟨k, by simp, _, hm⟩
      · rintro e' ⟨⟩
        cases ha : (s.portFlashEraseSector k).1 <;> rw [ha] at he <;> cases he <;> simp

/-- The content after the sectors of a list have been erased. -/
def eraseSectors (c : Cfg) (ks : List Nat) (m : Memory) : Memory :=
  ks.foldl (fun m k => Memory.erase m (sectorBase c k) (sectorSize c k)) m

theorem read_eraseSectors (c : Cfg) (d : Byte) (ks : List Nat) (m : Memory) (x : Nat) :
    Memory.read d (eraseSectors c ks m) x
      = if ks.any (fun k => inSector c k x) then d else Memory.read d m x := by
  induction ks generalizing m with
  | nil => rfl
  | cons k ks ih =>
    rw [eraseSectors, List.foldl_cons, ← eraseSectors, ih, Memory.read_erase, List.any_cons]
    by_cases h : inSector c k x = true
    · have : Memory.Covers (sectorBase c k) (sectorSize c k) x := (inSector_iff c k x).mp h
      simp [h, this]
    · have : ¬ Memory.Covers (sectorBase c k) (sectorSize c k) x := fun hc => h ((inSector_iff c k x).mpr hc)
      simp [h, this]

/-- In the reference environment every asked sector is erased (R70, R223). -/
theorem eraseUnits_ok (ks : List Nat) (s : State) (hl : s.env.locked = false)
    (hw : ∀ k ∈ ks, k ∉ s.env.driver.wprot)
    (hp : ∀ p ∈ s.env.unitPlan.take ks.length, p = .asReference) :
    eraseUnits ks s =
      (none, { s with
        regs := { s.regs with seqIdx := s.regs.seqIdx + ks.length }
        env := { s.env with
          mem := eraseSectors s.cfg ks s.env.mem
          unitPlan := s.env.unitPlan.drop ks.length
          trace := s.env.trace ++ ks.map fun k => .flashEraseSector k .ok } }) := by
  induction ks generalizing s with
  | nil => simp [eraseSectors]
  | cons k ks ih =>
    have hhead : s.env.unitPlan.headD .asReference = .asReference := by
      cases hu : s.env.unitPlan with
      | nil => rfl
      | cons p ps => exact hp p (by simp [hu])
    have hres : eraseResult s k .asReference
        = (.ok, Memory.erase s.env.mem (sectorBase s.cfg k) (sectorSize s.cfg k), s.env.draws) := by
      have : k ∉ s.env.driver.wprot := hw k (by simp)
      simp [eraseResult, hl, this]
    rw [eraseUnits_cons, State.portFlashEraseSector_eq, hhead, hres]
    simp only [PortAnswer.err]
    rw [ih]
    · simp [State.nextUnit, eraseSectors, Nat.add_assoc, Nat.add_comm 1]
    · exact hl
    · intro j hj; exact hw j (by simp [hj])
    · intro p hm
      refine hp p ?_
      cases hu : s.env.unitPlan with
      | nil => simp [State.nextUnit, hu] at hm
      | cons q qs => simp only [State.nextUnit, hu, List.tail_cons] at hm; simp [hm]

/-- The answers a plan gives to the units, one after the other. -/
theorem State.NoFailure.head {s : State} {n : Nat} (h : s.NoFailure (n + 1)) :
    s.env.unitPlan.headD .asReference = .asReference ∨
      ∃ cells, s.env.unitPlan.headD .asReference = .okLeaving cells := by
  cases hu : s.env.unitPlan with
  | nil => exact .inl rfl
  | cons p ps =>
    cases p with
    | asReference => exact .inl rfl
    | fails e => exact absurd rfl (h e _ (by simp [hu]))
    | okLeaving cells => exact .inr ⟨cells, rfl⟩

theorem State.NoFailure.tail {s u : State} {n : Nat} (h : s.NoFailure (n + 1))
    (hu : u.env.unitPlan = s.env.unitPlan.tail) : u.NoFailure n := by
  intro e p hp
  refine h e p ?_
  cases hs : s.env.unitPlan with
  | nil => simp [hu, hs] at hp
  | cons q qs => simp only [hu, hs, List.tail_cons] at hp; simp [hp]

theorem State.unitLeaves_succ {s u : State} (hu : u.env.unitPlan = s.env.unitPlan.tail) (j a : Nat) (b : Byte) :
    s.unitLeaves (j + 1) a b = u.unitLeaves j a b := by
  unfold State.unitLeaves
  rw [hu, List.getElem?_tail]

/-- What an erase call that the driver answers `Ok` leaves in its sector (R70, U18). -/
theorem eraseResult_ok {s : State} {k n : Nat} (h : s.NoFailure (n + 1)) (hl : s.env.locked = false)
    (hw : k ∉ s.env.driver.wprot) :
    (eraseResult s k (s.env.unitPlan.headD .asReference)).1 = .ok ∧
      (eraseResult s k (s.env.unitPlan.headD .asReference)).2.2 = s.env.draws ∧
      ∀ x, inSector s.cfg k x = true →
        Memory.read s.cfg.erasedByte (eraseResult s k (s.env.unitPlan.headD .asReference)).2.1 x
          = s.unitLeaves 0 x s.cfg.erasedByte := by
  have hx' : ∀ x, inSector s.cfg k x = true → Memory.Covers (sectorBase s.cfg k) (sectorSize s.cfg k) x :=
    fun x hx => (inSector_iff _ _ _).mp hx
  have hz : s.env.unitPlan[0]? = s.env.unitPlan.head? := by cases s.env.unitPlan <;> rfl
  rcases h.head with hp | ⟨cells, hp⟩ <;> rw [hp]
  · have hu : ∀ x, s.unitLeaves 0 x s.cfg.erasedByte = s.cfg.erasedByte := fun x => by
      unfold State.unitLeaves
      rw [hz]
      cases hs : s.env.unitPlan with
      | nil => rfl
      | cons p ps => rw [hs] at hp; simp only [List.headD_cons] at hp; subst hp; rfl
    have he : eraseResult s k .asReference
        = (.ok, Memory.erase s.env.mem (sectorBase s.cfg k) (sectorSize s.cfg k), s.env.draws) := by
      simp [eraseResult, hl, hw]
    rw [he]
    exact ⟨rfl, rfl, fun x hx => by rw [hu, Memory.read_erase, if_pos (hx' x hx)]⟩
  · have hu : ∀ x, s.unitLeaves 0 x s.cfg.erasedByte =
        match cells.reverse.find? fun c => c.1 == x with
        | some c => c.2
        | none => s.cfg.erasedByte := fun x => by
      unfold State.unitLeaves
      rw [hz]
      cases hs : s.env.unitPlan with
      | nil => rw [hs] at hp; cases hp
      | cons p ps => rw [hs] at hp; simp only [List.headD_cons] at hp; subst hp; rfl
    exact ⟨rfl, rfl, fun x hx => by
      refine (Memory.read_patch_inside _ _ _ _ _ _ (hx' x hx)).trans ?_
      rw [Memory.read_erase, if_pos (hx' x hx)]
      exact (hu x).symm⟩

/-- An erase of sectors apart from each other whose calls all answer `Ok`: every sector holds what its call
leaves (R223, R70, U18). -/
theorem eraseUnits_noFailure (ks : List Nat) (s : State) (hl : s.env.locked = false)
    (hw : ∀ k ∈ ks, k ∉ s.env.driver.wprot) (hp : s.NoFailure ks.length)
    (hd : ks.Pairwise fun i j => ∀ x, inSector s.cfg i x = true → inSector s.cfg j x = false) :
    ∃ m, eraseUnits ks s =
        (none, { s with
          regs := { s.regs with seqIdx := s.regs.seqIdx + ks.length }
          env := { s.env with
            mem := m
            unitPlan := s.env.unitPlan.drop ks.length
            trace := s.env.trace ++ ks.map fun k => .flashEraseSector k .ok } }) ∧
      (∀ j k x, ks[j]? = some k → inSector s.cfg k x = true →
        Memory.read s.cfg.erasedByte m x = s.unitLeaves j x s.cfg.erasedByte) ∧
      ∀ x, (∀ k ∈ ks, inSector s.cfg k x = false) →
        Memory.read s.cfg.erasedByte m x = Memory.read s.cfg.erasedByte s.env.mem x := by
  induction ks generalizing s with
  | nil => exact ⟨s.env.mem, by simp, by simp, fun _ _ => rfl⟩
  | cons k ks ih =>
    obtain ⟨h1, h2, h3⟩ := eraseResult_ok hp hl (hw k (by simp))
    obtain ⟨hd1, hd2⟩ := List.pairwise_cons.mp hd
    have hout := eraseResult_outside s k (s.env.unitPlan.headD .asReference)
    rw [eraseUnits_cons, State.portFlashEraseSector_eq, h1, h2]
    simp only [PortAnswer.err]
    obtain ⟨m, g1, g2, g3⟩ := ih (State.nextUnit { s with env := { s.env with
        unitPlan := s.env.unitPlan.tail
        mem := (eraseResult s k (s.env.unitPlan.headD .asReference)).2.1
        draws := s.env.draws
        trace := s.env.trace ++ [.flashEraseSector k .ok] } })
      hl (fun j hj => hw j (by simp [hj])) (hp.tail rfl) hd2
    refine ⟨m, by rw [g1]; simp [State.nextUnit, Nat.add_assoc, Nat.add_comm 1], ?_, ?_⟩
    · intro j i x hj hx
      match j, hj with
      | 0, hj =>
        simp only [List.getElem?_cons_zero, Option.some.injEq] at hj
        subst hj
        exact (g3 x fun l hl => hd1 l hl x hx).trans (h3 x hx)
      | j + 1, hj => exact (g2 j i x (by simpa using hj) hx).trans (State.unitLeaves_succ rfl j x _).symm
    · intro x hx
      refine (g3 x fun l hl => hx l (by simp [hl])).trans (hout x fun hc => ?_)
      exact absurd (hx k (by simp)) (by rw [(inSector_iff _ _ _).mpr hc]; simp)

/-! The verification of an erase. -/

/-- The calls of a list are appended to the trace. -/
def State.logAll (s : State) (es : List Event) : State :=
  { s with env := { s.env with trace := s.env.trace ++ es } }

@[simp] theorem State.logAll_cfg (s : State) (es : List Event) : (s.logAll es).cfg = s.cfg := rfl
@[simp] theorem State.logAll_regs (s : State) (es : List Event) : (s.logAll es).regs = s.regs := rfl
@[simp] theorem State.logAll_env (s : State) (es : List Event) :
    (s.logAll es).env = { s.env with trace := s.env.trace ++ es } := rfl

/-- The event of one sector's verification. -/
def verifyEvent (s : State) (k : Nat) : Event :=
  .verifyErased (sectorBase s.cfg k) (sectorSize s.cfg k)
    (Memory.erasedOn s.cfg.erasedByte s.env.mem (sectorBase s.cfg k) (sectorSize s.cfg k))

/-- The verification reads every sector of the list and changes nothing (R224). -/
theorem verifySectors_eq (ks : List Nat) (s : State) :
    verifySectors ks s =
      (ks.all fun k => Memory.erasedOn s.cfg.erasedByte s.env.mem (sectorBase s.cfg k) (sectorSize s.cfg k),
        s.logAll (ks.map (verifyEvent s))) := by
  induction ks generalizing s with
  | nil => simp [verifySectors, State.logAll]
  | cons k ks ih =>
    simp only [verifySectors, State.portVerifyErased, ih]
    simp [State.log, State.logAll, verifyEvent]

/-! The unit calls of a program request. -/

@[simp] theorem programWords_nil (s : State) : programWords [] s = (none, s) := rfl

theorem programWords_cons (u : Nat × List Byte) (us : List (Nat × List Byte)) (s : State) :
    programWords (u :: us) s =
      match (s.portFlashProgramWord u.1 (leValue u.2)).1.err with
      | none => programWords us (s.portFlashProgramWord u.1 (leValue u.2)).2.nextUnit
      | some e => (some e, (s.portFlashProgramWord u.1 (leValue u.2)).2) := rfl

theorem programWords_append (us vs : List (Nat × List Byte)) (s : State) :
    programWords (us ++ vs) s =
      match programWords us s with
      | (none, t) => programWords vs t
      | (some e, t) => (some e, t) := by
  induction us generalizing s with
  | nil => rfl
  | cons u us ih =>
    rw [List.cons_append, programWords_cons, programWords_cons]
    cases (s.portFlashProgramWord u.1 (leValue u.2)).1.err with
    | none => exact ih _
    | some e => rfl

/-- Whatever the driver answers, only the asked words are touched, and only they are asked for. -/
theorem programWords_touches (us : List (Nat × List Byte)) (s : State) :
    ∃ es, Touches (fun a => ∃ u ∈ us, Memory.Covers u.1 s.cfg.wordBytes a) es s (programWords us s).2 ∧
      (∀ e ∈ es, ∃ u ∈ us, ∃ ans, e = .flashProgramWord u.1 (leValue u.2) ans) ∧
      (programWords us s).2.env.locked = s.env.locked ∧
      (∃ n, (programWords us s).2.regs = s.regs.seqAt s.regs.seqState n s.regs.flashOpen) ∧
      ∀ e, (programWords us s).1 = some e → e = .hardwareFault ∨ e = .flashTimeout := by
  induction us generalizing s with
  | nil => exact ⟨[], Touches.of_env rfl rfl, by simp, rfl, ⟨_, rfl⟩, by simp⟩
  | cons u us ih =>
    have h1 : Touches (fun a => ∃ v ∈ u :: us, Memory.Covers v.1 s.cfg.wordBytes a)
        [.flashProgramWord u.1 (leValue u.2) (s.portFlashProgramWord u.1 (leValue u.2)).1] s
        (s.portFlashProgramWord u.1 (leValue u.2)).2 :=
      (s.portFlashProgramWord_touches u.1 (leValue u.2)).mono fun a ha => ⟨u, by simp, ha⟩
    rw [programWords_cons]
    cases he : (s.portFlashProgramWord u.1 (leValue u.2)).1.err with
    | none =>
      obtain ⟨es, t, hes, hl, ⟨n, hr⟩, hx⟩ := ih (s.portFlashProgramWord u.1 (leValue u.2)).2.nextUnit
      have hc : (s.portFlashProgramWord u.1 (leValue u.2)).2.nextUnit.cfg = s.cfg := h1.cfg
      refine ⟨_, (h1.trans
        (Touches.of_env (t := (s.portFlashProgramWord u.1 (leValue u.2)).2.nextUnit) rfl rfl)).trans
        (t.mono fun a ⟨j, hj, ha⟩ => ⟨j, by simp [hj], by rwa [hc] at ha⟩), ?_, ?_, ?_, hx⟩
      · intro e hm
        simp only [List.append_nil, List.mem_append, List.mem_singleton] at hm
        rcases hm with rfl | hm
        · exact ⟨u, by simp, _, rfl⟩
        · obtain ⟨j, hj, ans, rfl⟩ := hes e hm; exact ⟨j, by simp [hj], ans, rfl⟩
      · simpa using hl
      · exact ⟨n, by rw [hr, State.nextUnit_seqAt]; simp⟩
    | some e =>
      refine ⟨_, h1, ?_, by simp, ⟨s.regs.seqIdx, by simp only [State.portFlashProgramWord_regs]; rfl⟩, ?_⟩
      · intro e hm
        rw [List.mem_singleton] at hm
        exact ⟨u, by simp, _, hm⟩
      · rintro e' ⟨⟩
        cases ha : (s.portFlashProgramWord u.1 (leValue u.2)).1 <;> rw [ha] at he <;> cases he <;> simp

/-- The content after the words of a list have been programmed. -/
def storeWords (c : Cfg) (us : List (Nat × List Byte)) (m : Memory) : Memory :=
  us.foldl (fun m u => Memory.write c.erasedByte m u.1 (wordBytesOf c.wordBytes (leValue u.2))) m

theorem read_storeWords_outside (c : Cfg) (us : List (Nat × List Byte)) (m : Memory) (x : Nat)
    (h : ∀ u ∈ us, ¬ Memory.Covers u.1 c.wordBytes x) :
    Memory.read c.erasedByte (storeWords c us m) x = Memory.read c.erasedByte m x := by
  induction us generalizing m with
  | nil => rfl
  | cons u us ih =>
    rw [storeWords, List.foldl_cons, ← storeWords, ih _ fun v hv => h v (by simp [hv]), Memory.read_write,
      if_neg]
    rw [wordBytesOf_length]; exact h u (by simp)

/-- A word of the list, when no later word covers its bytes. -/
theorem read_storeWords_inside (c : Cfg) (us vs : List (Nat × List Byte)) (u : Nat × List Byte) (m : Memory)
    (x : Nat) (hx : Memory.Covers u.1 c.wordBytes x)
    (h : ∀ v ∈ vs, ¬ Memory.Covers v.1 c.wordBytes x) :
    Memory.read c.erasedByte (storeWords c (us ++ u :: vs) m) x
      = (wordBytesOf c.wordBytes (leValue u.2)).getD (x - u.1) c.erasedByte := by
  rw [storeWords, List.foldl_append, List.foldl_cons, ← storeWords, ← storeWords,
    read_storeWords_outside c vs _ x h, Memory.read_write, wordBytesOf_length, if_pos hx]

/-- In the reference environment, over erased bytes, every asked word is stored (R70, R226). -/
theorem programWords_ok (us : List (Nat × List Byte)) (s : State) (hl : s.env.locked = false)
    (hw : ∀ u ∈ us, s.writeProtected u.1 = false)
    (he : ∀ u ∈ us, Memory.erasedOn s.cfg.erasedByte s.env.mem u.1 s.cfg.wordBytes = true)
    (hd : us.Pairwise fun u v => u.1 + s.cfg.wordBytes ≤ v.1)
    (hp : ∀ p ∈ s.env.unitPlan.take us.length, p = .asReference) :
    programWords us s =
      (none, { s with
        regs := { s.regs with seqIdx := s.regs.seqIdx + us.length }
        env := { s.env with
          mem := storeWords s.cfg us s.env.mem
          unitPlan := s.env.unitPlan.drop us.length
          trace := s.env.trace ++ us.map fun u => .flashProgramWord u.1 (leValue u.2) .ok } }) := by
  induction us generalizing s with
  | nil => simp [storeWords]
  | cons u us ih =>
    have hhead : s.env.unitPlan.headD .asReference = .asReference := by
      cases hu : s.env.unitPlan with
      | nil => rfl
      | cons p ps => exact hp p (by simp [hu])
    have hres : programResult s u.1 (leValue u.2) .asReference
        = (.ok, Memory.write s.cfg.erasedByte s.env.mem u.1 (wordBytesOf s.cfg.wordBytes (leValue u.2)),
            s.env.draws) := by
      simp [programResult, hl, hw u (by simp), he u (by simp)]
    obtain ⟨hd1, hd2⟩ := List.pairwise_cons.mp hd
    rw [programWords_cons, State.portFlashProgramWord_eq, hhead, hres]
    simp only [PortAnswer.err]
    rw [ih]
    · simp [State.nextUnit, storeWords, Nat.add_assoc, Nat.add_comm 1]
    · exact hl
    · intro v hv; exact hw v (by simp [hv])
    · intro v hv
      refine (Memory.erasedOn_iff _ _ _ _).mpr fun x hx => ?_
      have hx' := (Memory.erasedOn_iff _ _ _ _).mp (he v (by simp [hv])) x hx
      have := hd1 v hv
      refine (Memory.read_write _ _ _ _ _).trans ?_
      rw [if_neg]
      · exact hx'
      · rw [wordBytesOf_length]
        have h1 := hx.1
        rintro ⟨_, h2⟩; omega
    · exact hd2
    · intro p hm
      refine hp p ?_
      cases hu : s.env.unitPlan with
      | nil => simp [State.nextUnit, hu] at hm
      | cons q qs => simp only [State.nextUnit, hu, List.tail_cons] at hm; simp [hm]

/-- What a program call that the driver answers `Ok` leaves in its word: the word over erased bytes, or with other
content as the plan says (R70, U18); over other bytes a draw (R230). -/
theorem programResult_ok {s : State} {a w n : Nat} (h : s.NoFailure (n + 1)) (hl : s.env.locked = false)
    (hw : s.writeProtected a = false) :
    (programResult s a w (s.env.unitPlan.headD .asReference)).1 = .ok ∧
      (((∃ cells, s.env.unitPlan[0]? = some (.okLeaving cells)) ∨
          Memory.erasedOn s.cfg.erasedByte s.env.mem a s.cfg.wordBytes = true) →
        ∀ x, Memory.Covers a s.cfg.wordBytes x →
          Memory.read s.cfg.erasedByte (programResult s a w (s.env.unitPlan.headD .asReference)).2.1 x
            = s.unitLeaves 0 x ((wordBytesOf s.cfg.wordBytes w).getD (x - a) s.cfg.erasedByte)) := by
  have hz : s.env.unitPlan[0]? = s.env.unitPlan.head? := by cases s.env.unitPlan <;> rfl
  have hcov : ∀ {x}, Memory.Covers a s.cfg.wordBytes x →
      Memory.Covers a (wordBytesOf s.cfg.wordBytes w).length x := by
    intro x hx; rw [wordBytesOf_length]; exact hx
  rcases h.head with hp | ⟨cells, hp⟩ <;> rw [hp]
  · have hno : ∀ cells, s.env.unitPlan[0]? ≠ some (.okLeaving cells) := by
      rw [hz]
      cases hs : s.env.unitPlan with
      | nil => simp
      | cons p ps => rw [hs] at hp; simp only [List.headD_cons] at hp; subst hp; simp
    have hu : ∀ x b, s.unitLeaves 0 x b = b := fun x b => by
      unfold State.unitLeaves
      split
      · next cells hc => exact absurd hc (hno cells)
      · rfl
    refine ⟨by unfold programResult; simp only [hl, hw]; split; · rename_i hx; simp at hx
               · split <;> rfl, fun he x hx => ?_⟩
    rcases he with ⟨cells, he⟩ | he
    · exact absurd he (hno cells)
    · rw [hu]
      simp only [programResult, hl, hw, he, Bool.or_self, Bool.false_eq_true, if_false, if_true]
      rw [Memory.read_write, if_pos (hcov hx)]
  · have hu : ∀ x b, s.unitLeaves 0 x b =
        match cells.reverse.find? fun c => c.1 == x with
        | some c => c.2
        | none => b := fun x b => by
      unfold State.unitLeaves
      rw [hz]
      cases hs : s.env.unitPlan with
      | nil => rw [hs] at hp; cases hp
      | cons p ps => rw [hs] at hp; simp only [List.headD_cons] at hp; subst hp; rfl
    refine ⟨rfl, fun _ x hx => ?_⟩
    refine (Memory.read_patch_inside _ _ _ _ _ _ hx).trans ?_
    rw [Memory.read_write, if_pos (hcov hx)]
    exact (hu x _).symm

/-- Words apart from each other whose calls all answer `Ok`: every word holds what its call leaves
(R226, R70, U18). -/
theorem programWords_noFailure (us : List (Nat × List Byte)) (s : State) (hl : s.env.locked = false)
    (hw : ∀ u ∈ us, s.writeProtected u.1 = false) (hp : s.NoFailure us.length)
    (hd : us.Pairwise fun u v => u.1 + s.cfg.wordBytes ≤ v.1) :
    ∃ m d, programWords us s =
        (none, { s with
          regs := { s.regs with seqIdx := s.regs.seqIdx + us.length }
          env := { s.env with
            mem := m
            draws := d
            unitPlan := s.env.unitPlan.drop us.length
            trace := s.env.trace ++ us.map fun u => .flashProgramWord u.1 (leValue u.2) .ok } }) ∧
      (∀ j u x, us[j]? = some u →
        ((∃ cells, s.env.unitPlan[j]? = some (.okLeaving cells)) ∨
          Memory.erasedOn s.cfg.erasedByte s.env.mem u.1 s.cfg.wordBytes = true) →
        Memory.Covers u.1 s.cfg.wordBytes x →
        Memory.read s.cfg.erasedByte m x = s.unitLeaves j x
          ((wordBytesOf s.cfg.wordBytes (leValue u.2)).getD (x - u.1) s.cfg.erasedByte)) ∧
      ∀ x, (∀ u ∈ us, ¬ Memory.Covers u.1 s.cfg.wordBytes x) →
        Memory.read s.cfg.erasedByte m x = Memory.read s.cfg.erasedByte s.env.mem x := by
  induction us generalizing s with
  | nil => exact ⟨s.env.mem, s.env.draws, by simp, by simp, fun _ _ => rfl⟩
  | cons u us ih =>
    obtain ⟨h1, h3⟩ := programResult_ok (w := leValue u.2) hp hl (hw u (by simp))
    obtain ⟨hd1, hd2⟩ := List.pairwise_cons.mp hd
    have hout := programResult_outside s u.1 (leValue u.2) (s.env.unitPlan.headD .asReference)
    rw [programWords_cons, State.portFlashProgramWord_eq, h1]
    simp only [PortAnswer.err]
    obtain ⟨m, d, g1, g2, g3⟩ := ih (State.nextUnit { s with env := { s.env with
        unitPlan := s.env.unitPlan.tail
        mem := (programResult s u.1 (leValue u.2) (s.env.unitPlan.headD .asReference)).2.1
        draws := (programResult s u.1 (leValue u.2) (s.env.unitPlan.headD .asReference)).2.2
        trace := s.env.trace ++ [.flashProgramWord u.1 (leValue u.2) .ok] } })
      hl (fun v hv => hw v (by simp [hv])) (hp.tail rfl) hd2
    refine ⟨m, d, by rw [g1]; simp [State.nextUnit, Nat.add_assoc, Nat.add_comm 1], ?_, ?_⟩
    · intro j v x hj ho hx
      match j, hj, ho with
      | 0, hj, ho =>
        simp only [List.getElem?_cons_zero, Option.some.injEq] at hj
        subst hj
        refine (g3 x fun v hv hc => ?_).trans (h3 ho x hx)
        have h5 := hd1 v hv
        have h6 := hx.2
        have h7 : v.1 ≤ x := hc.1
        omega
      | j + 1, hj, ho =>
        simp only [List.getElem?_cons_succ] at hj
        have hv := List.mem_of_getElem? hj
        refine (g2 j v x hj ?_ hx).trans (State.unitLeaves_succ rfl j x _).symm
        rcases ho with ⟨cells, ho⟩ | ho
        · exact .inl ⟨cells, by rw [← ho]; simp [State.nextUnit, List.getElem?_tail]⟩
        · right
          refine (Memory.erasedOn_iff _ _ _ _).mpr fun y hy => ?_
          refine (hout y fun hc => ?_).trans ((Memory.erasedOn_iff _ _ _ _).mp ho y hy)
          have h5 := hd1 v hv
          have h6 := hc.2
          have h7 : v.1 ≤ y := hy.1
          omega
    · intro x hx
      exact (g3 x fun v hv => hx v (by simp [hv])).trans (hout x (hx u (by simp)))

/-! The sequences. -/

/-- After a unit fault the owed lock is paid and nothing is verified (R229). -/
theorem State.afterUnits_some (e : Err) (t : State) (verify : State → Ran) :
    State.afterUnits (some e, t) verify = .raised e t.endUnits := rfl

/-- After the last unit the flash is locked and the verification runs (R223, R226). -/
theorem State.afterUnits_none (t : State) (verify : State → Ran) :
    State.afterUnits (none, t) verify = verify (t.endUnits.setSeq .verify) := rfl

/-- The erase verification as one equation (R224). -/
theorem State.eraseVerify_eq (s : State) :
    s.eraseVerify =
      if s.regs.seqList.all fun k =>
          Memory.erasedOn s.cfg.erasedByte s.env.mem (sectorBase s.cfg k) (sectorSize s.cfg k)
      then .done [] (s.logAll (s.regs.seqList.map (verifyEvent s)))
      else .raised .verifyFailed (s.logAll (s.regs.seqList.map (verifyEvent s))) := by
  simp only [State.eraseVerify, verifySectors_eq]

/-- The read-back of a program as one equation (R227). -/
theorem State.programVerify_eq {a : Nat} {data : List Byte} {s : State}
    (hm : mapped s.cfg a data.length = true) :
    s.programVerify a data =
      if Memory.readBytes s.cfg.erasedByte s.env.mem a data.length = data
      then .done [] (s.log (.memRead a data.length data))
      else .raised .verifyFailed
        (s.log (.memRead a data.length (Memory.readBytes s.cfg.erasedByte s.env.mem a data.length))) := by
  simp only [State.programVerify, State.portMemRead_eq s a data.length hm]
  split
  · next he => rw [he]
  · rfl

/-- The read-back outside the flash and OTP spaces (log 19). -/
theorem State.programVerify_none {a : Nat} {data : List Byte} {s : State}
    (hm : mapped s.cfg a data.length = false) : s.programVerify a data = .stopped .unmappedRead := by
  simp only [State.programVerify, State.portMemRead_none s a data.length hm]

/-- A unit fault ends an erase after the owed lock, without verification (R229). -/
theorem State.eraseSequence_of_fault {s t : State} {e : Err}
    (h : eraseUnits s.regs.seqList s.beginUnits = (some e, t)) :
    s.eraseSequence = .raised e t.endUnits := by
  simp [State.eraseSequence, State.eraseFrom, h, State.afterUnits_some]

/-- An erase whose units all answered `Ok` ends in its verification (R224). -/
theorem State.eraseSequence_of_units {s t : State}
    (h : eraseUnits s.regs.seqList s.beginUnits = (none, t)) :
    s.eraseSequence = (t.endUnits.setSeq .verify).eraseVerify := by
  simp [State.eraseSequence, State.eraseFrom, h, State.afterUnits_none]

theorem State.programSequence_of_fault {s t : State} {a : Nat} {data : List Byte} {e : Err}
    (h : programWords (programUnits s.cfg.wordBytes a data) s.beginUnits = (some e, t)) :
    s.programSequence a data = .raised e t.endUnits := by
  simp [State.programSequence, State.programFrom, h, State.afterUnits_some]

/-- A program request whose words all answered `Ok` ends in its read-back (R227). -/
theorem State.programSequence_of_units {s t : State} {a : Nat} {data : List Byte}
    (h : programWords (programUnits s.cfg.wordBytes a data) s.beginUnits = (none, t)) :
    s.programSequence a data = (t.endUnits.setSeq .verify).programVerify a data := by
  simp [State.programSequence, State.programFrom, h, State.afterUnits_none]

/-- Everything an erase sequence can do: the touched sectors, the bracket of its calls, the lock, the
registers, and how it ends (R223, R224, R229). -/
theorem State.eraseSequence_spec (s : State) :
    ∃ t es vs, Touches (fun a => ∃ k ∈ s.regs.seqList, inSector s.cfg k a = true)
        ([.flashUnlock] ++ es ++ [.flashLock] ++ vs) s t ∧
      (∀ e ∈ es, ∃ k ∈ s.regs.seqList, ∃ ans, e = .flashEraseSector k ans) ∧
      (∀ e ∈ vs, ∃ a n b, e = .verifyErased a n b) ∧
      t.env.locked = true ∧
      (∃ q n, t.regs = s.regs.seqAt q n false) ∧
      (s.eraseSequence = .done [] t ∨
        ∃ e, s.eraseSequence = .raised e t ∧
          (e = .hardwareFault ∨ e = .flashTimeout ∨ e = .verifyFailed)) := by
  obtain ⟨es, ht, hes, hl, ⟨n, hr⟩, he⟩ := eraseUnits_touches s.regs.seqList s.beginUnits
  have h0 : Touches (fun a => ∃ k ∈ s.regs.seqList, inSector s.cfg k a = true) [.flashUnlock] s
      s.beginUnits := Touches.of_log false (by simp) (by simp)
  simp only [State.beginUnits_cfg] at ht
  have h1 := h0.trans ht
  rcases hu : eraseUnits s.regs.seqList s.beginUnits with ⟨o, t⟩
  rw [hu] at h1 hl hr he
  dsimp only at h1 hl hr he
  have h2 := h1.trans (Touches.of_log (t := t.endUnits) (es := [.flashLock]) true (by simp) (by simp))
  cases o with
  | some e =>
    refine ⟨t.endUnits, es, [], by rw [List.append_nil]; exact h2, hes, by simp, by simp, ⟨.lock, n, ?_⟩,
      .inr ⟨e, State.eraseSequence_of_fault hu, ?_⟩⟩
    · rw [State.endUnits_seqAt, hr, State.beginUnits_seqAt]; simp
    · rcases he e rfl with h | h <;> simp [h]
  | none =>
    have hs := (State.eraseSequence_of_units hu).trans (State.eraseVerify_eq _)
    have h3 := h2.trans (Touches.of_log (A := fun a => ∃ k ∈ s.regs.seqList, inSector s.cfg k a = true)
      (t := (t.endUnits.setSeq .verify).logAll
        ((t.endUnits.setSeq .verify).regs.seqList.map (verifyEvent (t.endUnits.setSeq .verify))))
      (es := (t.endUnits.setSeq .verify).regs.seqList.map (verifyEvent (t.endUnits.setSeq .verify)))
      true (by simp) (by simp))
    refine ⟨_, es, _, h3, hes, ?_, by simp, ⟨.verify, n, ?_⟩, ?_⟩
    · intro e hm
      obtain ⟨k, _, rfl⟩ := List.mem_map.mp hm
      exact ⟨_, _, _, rfl⟩
    · rw [State.logAll_regs, State.setSeq_seqAt, State.endUnits_seqAt, hr, State.beginUnits_seqAt]; simp
    · split at hs
      · exact .inl hs
      · exact .inr ⟨_, hs, by simp⟩

/-- Everything a program sequence can do (R226, R227, R229). -/
theorem State.programSequence_spec (s : State) (a : Nat) (data : List Byte) :
    s.programSequence a data = .stopped .unmappedRead ∨
    ∃ t es vs, Touches
        (fun x => ∃ u ∈ programUnits s.cfg.wordBytes a data, Memory.Covers u.1 s.cfg.wordBytes x)
        ([.flashUnlock] ++ es ++ [.flashLock] ++ vs) s t ∧
      (∀ e ∈ es, ∃ u ∈ programUnits s.cfg.wordBytes a data, ∃ ans,
        e = .flashProgramWord u.1 (leValue u.2) ans) ∧
      (∀ e ∈ vs, ∃ x n b, e = .memRead x n b) ∧
      t.env.locked = true ∧
      (∃ q n, t.regs = s.regs.seqAt q n false) ∧
      (s.programSequence a data = .done [] t ∨
        ∃ e, s.programSequence a data = .raised e t ∧
          (e = .hardwareFault ∨ e = .flashTimeout ∨ e = .verifyFailed)) := by
  obtain ⟨es, ht, hes, hl, ⟨n, hr⟩, he⟩ :=
    programWords_touches (programUnits s.cfg.wordBytes a data) s.beginUnits
  have h0 : Touches
      (fun x => ∃ u ∈ programUnits s.cfg.wordBytes a data, Memory.Covers u.1 s.cfg.wordBytes x)
      [.flashUnlock] s s.beginUnits := Touches.of_log false (by simp) (by simp)
  simp only [State.beginUnits_cfg] at ht
  have h1 := h0.trans ht
  rcases hu : programWords (programUnits s.cfg.wordBytes a data) s.beginUnits with ⟨o, t⟩
  rw [hu] at h1 hl hr he
  dsimp only at h1 hl hr he
  have h2 := h1.trans (Touches.of_log (t := t.endUnits) (es := [.flashLock]) true (by simp) (by simp))
  cases o with
  | some e =>
    refine .inr ⟨t.endUnits, es, [], by rw [List.append_nil]; exact h2, hes, by simp, by simp, ⟨.lock, n, ?_⟩,
      .inr ⟨e, State.programSequence_of_fault hu, ?_⟩⟩
    · rw [State.endUnits_seqAt, hr, State.beginUnits_seqAt]; simp
    · rcases he e rfl with h | h <;> simp [h]
  | none =>
    have hs := State.programSequence_of_units hu
    by_cases hm : mapped t.cfg a data.length = true
    · rw [State.programVerify_eq (by simpa using hm)] at hs
      have h3 := fun b => h2.trans (Touches.of_log
        (A := fun x => ∃ u ∈ programUnits s.cfg.wordBytes a data, Memory.Covers u.1 s.cfg.wordBytes x)
        (t := (t.endUnits.setSeq .verify).log (.memRead a data.length b))
        (es := [.memRead a data.length b]) true (by simp) (by simp))
      have h4 : (t.endUnits.setSeq .verify).regs = s.regs.seqAt .verify n false := by
        rw [State.setSeq_seqAt, State.endUnits_seqAt, hr, State.beginUnits_seqAt]; simp
      right
      split at hs
      · refine ⟨_, es, _, h3 _, hes, ?_, by simp, ⟨.verify, n, h4⟩, .inl hs⟩
        intro e hm; rw [List.mem_singleton] at hm; exact ⟨_, _, _, hm⟩
      · refine ⟨_, es, _, h3 _, hes, ?_, by simp, ⟨.verify, n, h4⟩, .inr ⟨_, hs, by simp⟩⟩
        intro e hm; rw [List.mem_singleton] at hm; exact ⟨_, _, _, hm⟩
    · left
      rw [State.programVerify_none (by simpa using hm)] at hs
      exact hs

/-- What follows the lock of a sequence taken up there (R33; log 31). -/
theorem State.afterLock_cases (n : Nat) (verify : State → Ran) (s : State) :
    (s.regs.seqIdx < n ∧ s.afterLock n verify = .raised (Config.drawFault s.env.draws).err s.countDraw) ∨
      (n ≤ s.regs.seqIdx ∧ s.afterLock n verify = verify (s.setSeq .verify)) := by
  unfold State.afterLock
  split
  · next h => exact .inl ⟨h, rfl⟩
  · next h => exact .inr ⟨by omega, rfl⟩

end Sys2Proof.Machine
end

