-- ==== Sys2Proof/Laws/Commands.lean ====
section
/-! SUPPORT. What a command can do, whatever the environment answers: its port calls, the bytes it can touch,
the lock, and how it ends (`42_dispatch.md` R176 to R178). -/

namespace Sys2Proof.Machine

/-- A protection-write call (R68). -/
def Event.isProtection : Event → Bool
  | .flashEnableProtection _ _ _ => true
  | .flashDisableProtection _ => true
  | _ => false

/-- A call that a command's check or execution can make: none of the transport's, of the CPU's, no reset. -/
def Event.ofCommand : Event → Bool
  | .rx _ _ => false
  | .tx _ => false
  | .cpuDisableInterrupts => false
  | .cpuRelocateVectorTable _ => false
  | .cpuSetStackPointer _ => false
  | .cpuJump _ => false
  | .deviceReset => false
  | _ => true

theorem Event.ofCommand_not {e : Event} (h : e.ofCommand = true) :
    e.isRx = false ∧ e.isTx = false ∧ e.isCpu = false := by
  cases e <;> first | (cases h; done) | exact ⟨rfl, rfl, rfl⟩

/-! The bracket of the flash calls. -/

@[simp] theorem Bracket.run_nil (p : Bracket) : p.run [] = some p := rfl

/-- Calls follow each other (R81). -/
theorem Bracket.run_append {p q : Bracket} {es es' : List Event} (h : p.run es = some q) :
    p.run (es ++ es') = q.run es' := by
  induction es generalizing p with
  | nil => cases h; rfl
  | cons e es ih =>
    cases hn : p.next e with
    | none => simp [Bracket.run, hn] at h
    | some r =>
      simp only [Bracket.run, hn] at h
      simpa [Bracket.run, hn] using ih h

/-- Calls that each keep the bracket. -/
theorem Bracket.run_of_next {p : Bracket} {es : List Event} (h : ∀ e ∈ es, p.next e = some p) :
    p.run es = some p := by
  induction es with
  | nil => rfl
  | cons e es ih => simp [Bracket.run, h e (by simp), ih fun x hx => h x (by simp [hx])]

/-- What a part of a command leaves: the calls `es` it made, from bracket `p` to bracket `q`, each of the kind `P`;
the bytes of `A` that may differ; the lock and `FLASH_OPEN`; the status ports differ only after a protection
write. -/
structure Effect (A : Nat → Prop) (P : Event → Prop) (p q : Bracket) (es : List Event) (s t : State) : Prop where
  cfg : t.cfg = s.cfg
  rx : t.env.rx = s.env.rx
  resetPending : t.env.resetPending = s.env.resetPending
  trace : t.env.trace = s.env.trace ++ es
  calls : ∀ e ∈ es, P e ∧ e.ofCommand = true
  bracket : p.run es = some q
  driver : (∀ e ∈ es, e.isProtection = false) → t.env.driver = s.env.driver
  quiet : (∀ e ∈ es, e.isFlash = false) → t.env.mem = s.env.mem
  outside : ∀ a, ¬ A a → t.readByte a = s.readByte a
  wf : Memory.wf s.cfg.erasedByte s.env.mem → Memory.wf s.cfg.erasedByte t.env.mem
  keys : ∀ c ∈ t.env.mem, c ∈ s.env.mem ∨ A c.1
  locked : q ≠ .unlocked → p = .unlocked ∨ s.env.locked = true → t.env.locked = true
  closed : q ≠ .unlocked → p = .unlocked ∨ s.regs.flashOpen = false → t.regs.flashOpen = false

theorem Effect.trans {A : Nat → Prop} {P : Event → Prop} {p q r : Bracket} {es es' : List Event}
    {s t u : State} (h : Effect A P p q es s t) (h' : Effect A P q r es' t u) :
    Effect A P p r (es ++ es') s u where
  cfg := h'.cfg.trans h.cfg
  rx := h'.rx.trans h.rx
  resetPending := h'.resetPending.trans h.resetPending
  trace := by rw [h'.trace, h.trace, List.append_assoc]
  calls e he := (List.mem_append.mp he).elim (h.calls e) (h'.calls e)
  bracket := (Bracket.run_append h.bracket).trans h'.bracket
  driver hp := (h'.driver fun e he => hp e (by simp [he])).trans (h.driver fun e he => hp e (by simp [he]))
  quiet hp := (h'.quiet fun e he => hp e (by simp [he])).trans (h.quiet fun e he => hp e (by simp [he]))
  outside a ha := (h'.outside a ha).trans (h.outside a ha)
  wf hw := by have := h'.wf; rw [h.cfg] at this; exact this (h.wf hw)
  keys c hc := (h'.keys c hc).elim (h.keys c) .inr
  locked hr hl := h'.locked hr (or_iff_not_imp_left.mpr fun hq => h.locked hq hl)
  closed hr hc := h'.closed hr (or_iff_not_imp_left.mpr fun hq => h.closed hq hc)

theorem Effect.mono {A B : Nat → Prop} {P Q : Event → Prop} {p q : Bracket} {es : List Event} {s t : State}
    (h : Effect A P p q es s t) (hA : ∀ a, A a → B a) (hP : ∀ e, P e → Q e) : Effect B Q p q es s t :=
  { h with
    calls := fun e he => ⟨hP e (h.calls e he).1, (h.calls e he).2⟩
    outside := fun a ha => h.outside a fun hx => ha (hA a hx)
    keys := fun c hc => (h.keys c hc).imp_right (hA c.1) }

/-- Registers only. -/
theorem Effect.of_regs {A : Nat → Prop} {P : Event → Prop} {p : Bracket} {s t : State} (hc : t.cfg = s.cfg)
    (he : t.env = s.env) (hf : t.regs.flashOpen = s.regs.flashOpen) : Effect A P p p [] s t := by
  constructor <;> simp_all

/-- Calls that change nothing. -/
theorem Effect.of_reads {A : Nat → Prop} {P : Event → Prop} {p q : Bracket} {s t : State} {es : List Event}
    (hc : t.cfg = s.cfg) (he : t.env = { s.env with trace := s.env.trace ++ es })
    (hf : t.regs.flashOpen = s.regs.flashOpen) (hp : ∀ e ∈ es, P e ∧ e.ofCommand = true)
    (hu : p ≠ .unlocked) (hb : p.run es = some q) : Effect A P p q es s t := by
  constructor <;> simp_all

/-- Calls of a flash sequence, a flash call among them. -/
theorem Effect.of_touches {A : Nat → Prop} {P : Event → Prop} {p q : Bracket} {s t : State} {es : List Event}
    (h : Touches A es s t) (hP : ∀ e ∈ es, P e ∧ e.ofCommand = true) (hb : p.run es = some q)
    (hx : ∃ e ∈ es, e.isFlash = true)
    (hl : q ≠ .unlocked → t.env.locked = true) (hc : q ≠ .unlocked → t.regs.flashOpen = false) :
    Effect A P p q es s t where
  cfg := h.cfg
  rx := h.rx
  resetPending := h.resetPending
  trace := h.trace
  calls := hP
  bracket := hb
  driver _ := h.driver
  quiet hq := by obtain ⟨e, he, hf⟩ := hx; rw [hq e he] at hf; cases hf
  outside := h.outside
  wf := h.wf
  keys := h.keys
  locked hr _ := hl hr
  closed hr _ := hc hr

theorem State.beginUnits_effect {A : Nat → Prop} {P : Event → Prop} (s : State) (hP : P .flashUnlock) :
    Effect A P .before .unlocked [.flashUnlock] s s.beginUnits :=
  .of_touches (.of_log false (by simp) (by simp)) (fun e he => by rw [List.mem_singleton] at he; subst he; exact ⟨hP, rfl⟩)
    rfl ⟨.flashUnlock, by simp, rfl⟩ (fun h => absurd rfl h) fun h => absurd rfl h

/-- Unit calls and the `FlashLock` after them. -/
theorem State.endUnits_effect {A : Nat → Prop} {P : Event → Prop} {s t : State} {es : List Event}
    (h : Touches A es s t) (hes : ∀ e ∈ es, P e ∧
      ((∃ k ans, e = .flashEraseSector k ans) ∨ ∃ a w ans, e = .flashProgramWord a w ans))
    (hP : P .flashLock) :
    Effect A P .unlocked .after (es ++ [.flashLock]) s t.endUnits := by
  refine .of_touches (h.trans (.of_log true (by simp) (by simp))) (fun e he => ?_) ?_ ⟨.flashLock, by simp, rfl⟩
    (by simp) (by simp)
  · rcases List.mem_append.mp he with he | he
    · obtain ⟨h1, ⟨_, _, rfl⟩ | ⟨_, _, _, rfl⟩⟩ := hes e he <;> exact ⟨h1, rfl⟩
    · rw [List.mem_singleton] at he; subst he; exact ⟨hP, rfl⟩
  · refine (Bracket.run_append (q := .unlocked) (Bracket.run_of_next fun e he => ?_)).trans rfl
    obtain ⟨_, ⟨_, _, rfl⟩ | ⟨_, _, _, rfl⟩⟩ := hes e he <;> rfl

/-! How a check or an execution can end. -/

/-- An error that a command can raise after its precondition passed (R300 to R303). -/
def executionError : Err → Bool
  | .hardwareFault => true
  | .verifyFailed => true
  | .flashTimeout => true
  | _ => false

/-- A check or an execution that begins in bracket `p` ends with an effect, the flash locked, at most `n` bytes of
data (R100), and never in `Timeout`; an error of the validation class leaves the flash and the protection alone
(R239). -/
def Ran.Ends (n : Nat) (A : Nat → Prop) (P : Event → Prop) (p : Bracket) (s : State) : Ran → Prop
  | .done d t => d.length ≤ n ∧ ∃ q es, q ≠ .unlocked ∧ Effect A P p q es s t
  | .raised e t => e ≠ .timeout ∧ ∃ q es, q ≠ .unlocked ∧ Effect A P p q es s t ∧
      (executionError e = false → ∀ x ∈ es, x.isFlash = false ∧ x.isProtection = false)
  | .stopped _ => True

theorem Ran.Ends.mono {n : Nat} {A B : Nat → Prop} {P Q : Event → Prop} {p : Bracket} {s : State} {r : Ran}
    (h : r.Ends n A P p s) (hA : ∀ a, A a → B a) (hP : ∀ e, P e → Q e) : r.Ends n B Q p s := by
  match r, h with
  | .done _ _, ⟨h1, q, es, h2, h3⟩ => exact ⟨h1, q, es, h2, h3.mono hA hP⟩
  | .raised _ _, ⟨h1, q, es, h2, h3, h4⟩ => exact ⟨h1, q, es, h2, h3.mono hA hP, h4⟩
  | .stopped _, _ => trivial

/-- An end seen from an earlier state: the calls before it may be flash calls only if it can raise no error of the
validation class. -/
theorem Ran.Ends.after {n : Nat} {A : Nat → Prop} {P : Event → Prop} {p q : Bracket} {es : List Event}
    {s u : State} {r : Ran} (h : Effect A P p q es s u)
    (hes : (∀ x ∈ es, x.isFlash = false ∧ x.isProtection = false) ∨ ∀ e v, r = .raised e v → executionError e = true)
    (h' : r.Ends n A P q u) : r.Ends n A P p s := by
  match r, h' with
  | .done _ _, ⟨h1, q', es', h2, h3⟩ => exact ⟨h1, q', _, h2, h.trans h3⟩
  | .raised e v, ⟨h1, q', es', h2, h3, h4⟩ =>
    refine ⟨h1, q', _, h2, h.trans h3, fun hx x hm => ?_⟩
    rcases hes with hes | hes
    · exact (List.mem_append.mp hm).elim (hes x) (h4 hx x)
    · rw [hes e v rfl] at hx; cases hx
  | .stopped _, _ => trivial

/-! What each check can do. -/

/-- The erase checks (R222). -/
theorem checkFlashErase_cases (sector count : Byte) (s : State) :
    (checkFlashErase sector count s = .raised .addressProtected s ∧ s.cfg.massErase ≠ some sector ∧
        ∃ k ∈ s.cfg.reserved, sector.toNat ≤ k ∧ k < sector.toNat + count.toNat) ∨
      (checkFlashErase sector count s = .raised .outOfRange s ∧ s.cfg.massErase ≠ some sector ∧
        (¬ ∃ k ∈ s.cfg.reserved, sector.toNat ≤ k ∧ k < sector.toNat + count.toNat) ∧
        (count = 0 ∨ s.cfg.nsectors < sector.toNat + count.toNat)) ∨
      (EraseAllowed s.cfg sector count ∧
        checkFlashErase sector count s
          = .done [] { s with regs := { s.regs with seqList := eraseRequest s.cfg sector count } }) := by
  by_cases hm : s.cfg.massErase = some sector
  · refine .inr (.inr ⟨.inl hm, ?_⟩)
    simp [checkFlashErase, isMassErase, hm]
  · have hreq : ∀ k, k ∈ eraseRequest s.cfg sector count ↔ sector.toNat ≤ k ∧ k < sector.toNat + count.toNat := by
      intro k; rw [mem_eraseRequest, Requested, if_neg hm]
    have hany : ((eraseRequest s.cfg sector count).any fun k => s.cfg.reserved.contains k) = true ↔
        ∃ k ∈ s.cfg.reserved, sector.toNat ≤ k ∧ k < sector.toNat + count.toNat := by
      simp only [List.any_eq_true, List.contains_iff_mem, hreq]
      exact ⟨fun ⟨k, h1, h2⟩ => ⟨k, h2, h1⟩, fun ⟨k, h1, h2⟩ => ⟨k, h2, h1⟩⟩
    have hmass : isMassErase s.cfg sector = false := by simpa [isMassErase] using hm
    by_cases h1 : ∃ k ∈ s.cfg.reserved, sector.toNat ≤ k ∧ k < sector.toNat + count.toNat
    · refine .inl ⟨?_, hm, h1⟩
      dsimp only [checkFlashErase]
      rw [hmass, hany.mpr h1]; rfl
    · have h1' : ((eraseRequest s.cfg sector count).any fun k => s.cfg.reserved.contains k) = false := by
        by_contra hc; exact h1 (hany.mp (by simpa using hc))
      by_cases h2 : count = 0 ∨ s.cfg.nsectors < sector.toNat + count.toNat
      · refine .inr (.inl ⟨?_, hm, h1, h2⟩)
        have : (count == 0 || decide (s.cfg.nsectors < sector.toNat + count.toNat)) = true := by simpa using h2
        dsimp only [checkFlashErase]
        rw [hmass, h1', this]; rfl
      · have : (count == 0 || decide (s.cfg.nsectors < sector.toNat + count.toNat)) = false := by simpa using h2
        push Not at h2
        refine .inr (.inr ⟨.inr ⟨fun k hk hc => h1 ⟨k, hk, hc⟩, h2.1, h2.2⟩, ?_⟩)
        dsimp only [checkFlashErase]
        rw [hmass, h1', this]; rfl

/-- The program checks (R225). -/
theorem checkMemWrite_cases (a n : Nat) (s : State) :
    (checkMemWrite a n s = .raised .alignmentError s ∧
        (a % s.cfg.wordBytes ≠ 0 ∨ n % s.cfg.wordBytes ≠ 0)) ∨
      (checkMemWrite a n s = .raised .addressProtected s ∧
        a % s.cfg.wordBytes = 0 ∧ n % s.cfg.wordBytes = 0 ∧ ∃ i < n, reservedAddr s.cfg (a + i) = true) ∨
      (checkMemWrite a n s = .raised .outOfRange s ∧
        a % s.cfg.wordBytes = 0 ∧ n % s.cfg.wordBytes = 0 ∧ (∀ i < n, reservedAddr s.cfg (a + i) = false) ∧
        ¬ (1 ≤ n ∧ s.cfg.flashBase ≤ a ∧ a + n ≤ s.cfg.flashEnd)) ∨
      (checkMemWrite a n s = .done [] s ∧ ProgramAllowed s.cfg a n) := by
  unfold checkMemWrite ProgramAllowed
  by_cases h1 : a % s.cfg.wordBytes ≠ 0 ∨ n % s.cfg.wordBytes ≠ 0
  · exact .inl ⟨by rw [if_pos (by simpa using h1)], h1⟩
  · rw [if_neg (by simpa using h1)]
    push Not at h1
    by_cases h2 : touchesReserved s.cfg a n = true
    · exact .inr (.inl ⟨by rw [if_pos h2], h1.1, h1.2, (touchesReserved_iff _ _ _).mp h2⟩)
    · rw [if_neg h2]
      have h2' := (touchesReserved_false_iff s.cfg a n).mp (by simpa using h2)
      by_cases h3 : inFlash s.cfg a n = true
      · exact .inr (.inr (.inr ⟨by simp [h3], h1.1, h1.2, h2', (inFlash_iff _ _ _).mp h3⟩))
      · exact .inr (.inr (.inl ⟨by simp [h3], h1.1, h1.2, h2', fun h => h3 ((inFlash_iff _ _ _).mpr h)⟩))

/-- The read checks (R228, R234). -/
theorem checkRead_cases (inSpace : Bool) (a n : Nat) (s : State) :
    (checkRead inSpace a n s = .raised .outOfRange s ∧ (n = 0 ∨ 253 < n ∨ inSpace = false)) ∨
      (checkRead inSpace a n s = .raised .readProtected (s.log (.isReadProtected a n true)) ∧
        n ≠ 0 ∧ n ≤ 253 ∧ inSpace = true ∧ ∃ i < n, s.readProtected (a + i) = true) ∨
      (checkRead inSpace a n s = .done [] (s.log (.isReadProtected a n false)) ∧
        n ≠ 0 ∧ n ≤ 253 ∧ inSpace = true ∧ ∀ i < n, s.readProtected (a + i) = false) := by
  unfold checkRead
  by_cases h1 : n = 0 ∨ 253 < n ∨ inSpace = false
  · refine .inl ⟨by rw [if_pos]; cases inSpace <;> simp_all, h1⟩
  · rw [if_neg (by cases inSpace <;> simp_all)]
    push Not at h1
    obtain ⟨h1, h2, h3⟩ := h1
    have h3 : inSpace = true := by simpa using h3
    by_cases h4 : s.anyReadProtected a n = true
    · exact .inr (.inl ⟨by simp [State.portIsReadProtected, h4], h1, h2, h3,
        (s.anyReadProtected_iff a n).mp h4⟩)
    · have h4 : s.anyReadProtected a n = false := by simpa using h4
      exact .inr (.inr ⟨by simp [State.portIsReadProtected, h4], h1, h2, h3,
        (s.anyReadProtected_false_iff a n).mp h4⟩)

/-- The checks of ENABLE_RW_PROTECT (R235). -/
theorem checkEnableRwProtect_cases (mask : Half) (mode : Byte) (s : State) :
    (checkEnableRwProtect mask mode s = .raised .outOfRange s ∧
        (mask = 0 ∨ ¬ mask.toNat < 2 ^ s.cfg.nsectors ∨ ¬ (mode = 1 ∨ mode = 2))) ∨
      (checkEnableRwProtect mask mode s = .done [] s ∧
        mask ≠ 0 ∧ mask.toNat < 2 ^ s.cfg.nsectors ∧ (mode = 1 ∨ mode = 2)) := by
  unfold checkEnableRwProtect maskInRange
  by_cases h : mask = 0 ∨ ¬ mask.toNat < 2 ^ s.cfg.nsectors ∨ ¬ (mode = 1 ∨ mode = 2)
  · refine .inl ⟨if_pos ?_, h⟩
    simp only [Bool.or_eq_true, beq_iff_eq, Bool.not_eq_true', decide_eq_false_iff_not, Bool.or_eq_false_iff,
      beq_eq_false_iff_ne]
    push Not at h ⊢
    tauto
  · refine .inr ⟨if_neg ?_, ?_⟩
    · simp only [Bool.or_eq_true, beq_iff_eq, Bool.not_eq_true', decide_eq_false_iff_not,
        Bool.or_eq_false_iff, beq_eq_false_iff_ne]
      push Not at h ⊢
      tauto
    · push Not at h; exact h

/-- The target validation (R272): refused before any read, stopped by a read outside the mapped spaces (no
well-formed configuration), or the two words read and judged. -/
theorem checkGoToAddress_cases (address : Word) (s : State) :
    (checkGoToAddress address s = .raised .invalidTarget s ∧ inApp s.cfg address.toNat 8 = false) ∨
      checkGoToAddress address s = .stopped .unmappedRead ∨
      ∃ b0 b1 t, b0 = Memory.readBytes s.cfg.erasedByte s.env.mem address.toNat 4 ∧
        b1 = Memory.readBytes s.cfg.erasedByte s.env.mem (address.toNat + 4) 4 ∧
        inApp s.cfg address.toNat 8 = true ∧ t.cfg = s.cfg ∧
        t.regs = { s.regs with hoSp := wordOfBytes b0, hoEntry := wordOfBytes b1 } ∧
        t.env = { s.env with
          trace := s.env.trace ++ [.memRead address.toNat 4 b0, .memRead (address.toNat + 4) 4 b1] } ∧
        checkGoToAddress address s
          = if plausibleSp s.cfg (wordOfBytes b0) then .done [] t else .raised .invalidTarget t := by
  unfold checkGoToAddress
  by_cases h0 : inApp s.cfg address.toNat 8 = true
  · right
    rw [if_neg (by simp [h0])]
    by_cases h1 : mapped s.cfg address.toNat 4 = true
    · simp only [State.portMemRead_eq s _ _ h1]
      by_cases h2 : mapped s.cfg (address.toNat + 4) 4 = true
      · right
        rw [State.portMemRead_eq _ (address.toNat + 4) 4 (by simpa using h2)]
        refine ⟨_, _, _, rfl, rfl, h0, ?_, ?_, ?_, rfl⟩
        · rfl
        · rfl
        · simp
      · left
        rw [State.portMemRead_none _ (address.toNat + 4) 4 (by simpa using h2)]
    · left; rw [State.portMemRead_none s _ _ (by simpa using h1)]
  · exact .inl ⟨by rw [if_pos (by simpa using h0)], by simpa using h0⟩

/-! Every execution, and every command. -/

/-- The bytes a command can change, whatever the driver answers. -/
def commandArea (c : Cfg) : Instr → Nat → Prop
  | .flashErase sector count, a =>
    EraseAllowed c sector count ∧ ∃ k ∈ eraseRequest c sector count, inSector c k a = true
  | .memWrite address data, a =>
    ProgramAllowed c address.toNat data.length ∧ address.toNat ≤ a ∧ a < address.toNat + data.length
  | _, _ => False

/-- What is said of each call: under a well-formed configuration the driver permits it (R64, R65). -/
def Asked (c : Cfg) (e : Event) : Prop := c.WellFormed → e.permitted c = true

theorem asked_of_read {c : Cfg} {e : Event} (h1 : ∀ k ans, e ≠ .flashEraseSector k ans)
    (h2 : ∀ a w ans, e ≠ .flashProgramWord a w ans) : Asked c e := by
  intro _
  cases e <;> first | rfl | exact absurd rfl (h1 _ _) | exact absurd rfl (h2 _ _ _)

/-- A result that raises, if anything, an error of a flash sequence (R300 to R303). -/
def Ran.Flashy (r : Ran) : Prop := ∀ e t, r = .raised e t → executionError e = true

theorem Ran.Flashy.ne_timeout {e : Err} (h : executionError e = true) : e ≠ .timeout := by
  rintro rfl; cases h

/-- The erase verification (R224). -/
theorem State.eraseVerify_ends (s : State) {n : Nat} {A : Nat → Prop} {P : Event → Prop}
    (hP : ∀ a m b, P (.verifyErased a m b)) : s.eraseVerify.Flashy ∧ s.eraseVerify.Ends n A P .after s := by
  have he : Effect A P .after .after (s.regs.seqList.map (verifyEvent s)) s
      (s.logAll (s.regs.seqList.map (verifyEvent s))) := by
    refine .of_reads rfl rfl rfl (fun e he => ?_) (by simp) (Bracket.run_of_next fun e he => ?_)
    all_goals obtain ⟨k, _, rfl⟩ := List.mem_map.mp he
    · exact ⟨hP _ _ _, rfl⟩
    · rfl
  rw [State.eraseVerify_eq]
  split
  · exact ⟨by rintro _ _ ⟨⟩, by simp, _, _, by simp, he⟩
  · exact ⟨by rintro _ _ ⟨⟩; rfl, by simp, _, _, by simp, he, by simp [executionError]⟩

/-- The read-back of a program (R227). -/
theorem State.programVerify_ends (a : Nat) (data : List Byte) (s : State) {n : Nat} {A : Nat → Prop}
    {P : Event → Prop} (hP : ∀ a m b, P (.memRead a m b)) :
    (s.programVerify a data).Flashy ∧ (s.programVerify a data).Ends n A P .after s := by
  by_cases hm : mapped s.cfg a data.length = true
  · have he : ∀ b, Effect A P .after .after [.memRead a data.length b] s (s.log (.memRead a data.length b)) :=
      fun b => .of_reads rfl rfl rfl (fun e he => by
        rw [List.mem_singleton] at he; subst he; exact ⟨hP _ _ _, rfl⟩) (by simp) rfl
    rw [State.programVerify_eq hm]
    split
    · exact ⟨by rintro _ _ ⟨⟩, by simp, _, _, by simp, he _⟩
    · exact ⟨by rintro _ _ ⟨⟩; rfl, by simp, _, _, by simp, he _, by simp [executionError]⟩
  · rw [State.programVerify_none (by simpa using hm)]
    exact ⟨by rintro _ _ ⟨⟩, trivial⟩

/-- The unit calls, the owed lock, and the verification or the error (R223, R226, R229). -/
theorem State.afterUnits_ends {s : State} {r : Option Err × State} {verify : State → Ran} {n : Nat}
    {A : Nat → Prop} {P : Event → Prop} {es : List Event} (hu : Touches A es s r.2)
    (hes : ∀ e ∈ es, P e ∧
      ((∃ k ans, e = .flashEraseSector k ans) ∨ ∃ a w ans, e = .flashProgramWord a w ans))
    (hr : ∀ e, r.1 = some e → e = .hardwareFault ∨ e = .flashTimeout) (hl : P .flashLock)
    (hv : ∀ u : State, u.cfg = s.cfg → (verify u).Flashy ∧ (verify u).Ends n A P .after u) :
    (State.afterUnits r verify).Flashy ∧ (State.afterUnits r verify).Ends n A P .unlocked s := by
  have h := State.endUnits_effect hu hes hl
  obtain ⟨_ | e, t⟩ := r
  · obtain ⟨v1, v2⟩ := hv (t.endUnits.setSeq .verify) (by simpa using hu.cfg)
    have h' : Effect A P .unlocked .after (es ++ [.flashLock] ++ []) s (t.endUnits.setSeq .verify) :=
      h.trans (.of_regs rfl rfl rfl)
    exact ⟨v1, .after h' (.inr v1) v2⟩
  · have he : executionError e = true := by rcases hr e rfl with rfl | rfl <;> rfl
    refine ⟨by rintro _ _ ⟨⟩; exact he, Ran.Flashy.ne_timeout he, _, _, by simp, h, fun hx => ?_⟩
    rw [he] at hx; cases hx

/-- An erase from one of its units on, over sectors that exist and hold no bootloader. -/
theorem State.eraseFrom_ends (s : State) {n : Nat} {P : Event → Prop}
    (hP : ∀ e : Event, (∀ k ans, e = .flashEraseSector k ans → k ∈ s.regs.seqList) →
      (∀ a w ans, e ≠ .flashProgramWord a w ans) → P e) :
    s.eraseFrom.Flashy ∧
      s.eraseFrom.Ends n (fun a => ∃ k ∈ s.regs.seqList, inSector s.cfg k a = true) P .unlocked s := by
  obtain ⟨es, h1, h2, _, _, h5⟩ := eraseUnits_touches (s.regs.seqList.drop s.regs.seqIdx) s
  refine State.afterUnits_ends (h1.mono fun a ⟨k, h, ha⟩ => ⟨k, List.mem_of_mem_drop h, ha⟩)
    (fun e he => ?_) h5 (hP _ (by simp) (by simp))
    fun u _ => u.eraseVerify_ends fun _ _ _ => hP _ (by simp) (by simp)
  obtain ⟨k, hm, ans, rfl⟩ := h2 e he
  exact ⟨hP _ (fun k' ans' heq => by cases heq; exact List.mem_of_mem_drop hm) (by simp), .inl ⟨_, _, rfl⟩⟩

/-- The erase sequence. -/
theorem State.eraseSequence_ends (s : State) {n : Nat} {P : Event → Prop}
    (hP : ∀ e : Event, (∀ k ans, e = .flashEraseSector k ans → k ∈ s.regs.seqList) →
      (∀ a w ans, e ≠ .flashProgramWord a w ans) → P e) :
    s.eraseSequence.Ends n (fun a => ∃ k ∈ s.regs.seqList, inSector s.cfg k a = true) P .before s := by
  obtain ⟨h1, h2⟩ := s.beginUnits.eraseFrom_ends (n := n) (P := P) (by simpa using hP)
  simp only [State.beginUnits_regs, State.beginUnits_cfg] at h2
  exact .after (s.beginUnits_effect (hP _ (by simp) (by simp))) (.inr h1) h2

/-- A program from one of its units on. -/
theorem State.programFrom_ends (a : Nat) (data : List Byte) (s : State) {n : Nat} {P : Event → Prop}
    (hP : ∀ e : Event, (∀ k ans, e ≠ .flashEraseSector k ans) →
      (∀ x w ans, e = .flashProgramWord x w ans → ∃ i < data.length / s.cfg.wordBytes, x = a + i * s.cfg.wordBytes) →
      P e) :
    (s.programFrom a data).Flashy ∧
      (s.programFrom a data).Ends n (Memory.Covers a data.length) P .unlocked s := by
  obtain ⟨es, h1, h2, _, _, h5⟩ :=
    programWords_touches ((programUnits s.cfg.wordBytes a data).drop s.regs.seqIdx) s
  refine State.afterUnits_ends (h1.mono fun x ⟨u, hu, hx⟩ => ?_) (fun e he => ?_) h5
    (hP _ (by simp) (by simp)) fun u _ => u.programVerify_ends a data fun _ _ _ => hP _ (by simp) (by simp)
  · obtain ⟨i, hi, rfl⟩ := mem_programUnits (List.mem_of_mem_drop hu)
    have := word_inside hi
    obtain ⟨h1, h2⟩ := hx
    dsimp only at h1 h2
    exact ⟨by omega, by omega⟩
  · obtain ⟨u, hu, ans, rfl⟩ := h2 e he
    obtain ⟨i, hi, rfl⟩ := mem_programUnits (List.mem_of_mem_drop hu)
    exact ⟨hP _ (by simp) (fun x w ans' heq => by cases heq; exact ⟨i, hi, rfl⟩), .inr ⟨_, _, _, rfl⟩⟩

/-- The program sequence. -/
theorem State.programSequence_ends (s : State) {n : Nat} (a : Nat) (data : List Byte) {P : Event → Prop}
    (hP : ∀ e : Event, (∀ k ans, e ≠ .flashEraseSector k ans) →
      (∀ x w ans, e = .flashProgramWord x w ans → ∃ i < data.length / s.cfg.wordBytes, x = a + i * s.cfg.wordBytes) →
      P e) :
    (s.programSequence a data).Ends n (Memory.Covers a data.length) P .before s := by
  obtain ⟨h1, h2⟩ := s.beginUnits.programFrom_ends a data (n := n) (P := P) (by simpa using hP)
  exact .after (s.beginUnits_effect (hP _ (by simp) (by simp))) (.inr h1) h2

/-- A sequence taken up after its lock (R33; log 31). -/
theorem State.afterLock_ends {m n : Nat} {verify : State → Ran} {A : Nat → Prop} {P : Event → Prop} {s : State}
    (hv : (verify (s.setSeq .verify)).Flashy ∧ (verify (s.setSeq .verify)).Ends n A P .after (s.setSeq .verify)) :
    (s.afterLock m verify).Flashy ∧ (s.afterLock m verify).Ends n A P .after s := by
  rcases s.afterLock_cases m verify with ⟨_, h⟩ | ⟨_, h⟩ <;> rw [h]
  · have he : executionError (Config.drawFault s.env.draws).err = true := by
      cases Config.drawFault s.env.draws <;> rfl
    refine ⟨by rintro _ _ ⟨⟩; exact he, Ran.Flashy.ne_timeout he, .after, [], by simp, ?_, fun hx => by simp⟩
    constructor <;> simp +contextual
  · have h' : Effect A P .after .after [] s (s.setSeq .verify) := .of_regs rfl rfl rfl
    exact ⟨hv.1, .after h' (.inl (by simp)) hv.2⟩

/-- Everything a sequence that is taken up can do, whatever its position (R33). -/
theorem State.continueSequence_ends {m n : Nat} {units verify : State → Ran} {A : Nat → Prop}
    {P : Event → Prop} {s : State} (hs : s.regs.pstate = .executing)
    (ho : s.regs.seqState = .idle → s.regs.flashOpen = false) (hP1 : P .flashUnlock) (hP2 : P .flashLock)
    (hu : ∀ u : State, (units u).Flashy ∧ (units u).Ends n A P .unlocked u)
    (hv : ∀ u : State, (verify u).Flashy ∧ (verify u).Ends n A P .after u) :
    (s.continueSequence m units verify).Ends n A P s.bracket s := by
  have hbegin : (units s.beginUnits).Ends n A P .before s :=
    .after (s.beginUnits_effect hP1) (.inr (hu _).1) (hu _).2
  unfold State.continueSequence State.bracket
  cases hq : s.regs.seqState <;> cases hf : s.regs.flashOpen <;>
    simp only [hs, if_true, if_false, true_and, Bool.false_eq_true, reduceCtorEq, or_self, or_true, true_or]
  · exact hbegin
  · rw [ho hq] at hf; cases hf
  · exact hbegin
  · have h' : Effect A P .unlocked .unlocked [] s s.startUnits := .of_regs rfl rfl rfl
    exact .after h' (.inl (by simp)) (hu _).2
  · trivial
  · exact (hu s).2
  · exact (State.afterLock_ends (hv _)).2
  · have h := State.endUnits_effect (P := P) (Touches.of_env (A := A) (s := s) (t := s) rfl rfl) (by simp) hP2
    have h' := State.afterLock_ends (m := m) (hv (s.endUnits.setSeq .verify))
    exact .after h (.inr h'.1) h'.2
  · exact (hv s).2
  · trivial

/-- A protection-write call. -/
theorem protection_ends (s : State) {n : Nat} {A : Nat → Prop} {P : Event → Prop} (new : DriverStatus)
    (ev : PortAnswer → Event) (hev : ∀ x, (ev x).isProtection = true) (hP : ∀ x, P (ev x)) :
    (ofAnswer ((s.protectionCall new).1, (s.protectionCall new).2.log (ev (s.protectionCall new).1))).Ends
      n A P .before s := by
  have he : Effect A P .before .before [ev (s.protectionCall new).1] s
      ((s.protectionCall new).2.log (ev (s.protectionCall new).1)) := by
    rw [State.protectionCall_eq]
    have hx := hev (protectionResult s new (s.env.protPlan.headD .asReference)).1
    have hy : ∀ x, (ev x).ofCommand = true := fun x => by
      have := hev x; cases hc : ev x <;> rw [hc] at this <;> first | rfl | cases this
    have hz : ∀ x, Bracket.before.run [ev x] = some .before := fun x => by
      have := hev x; cases hc : ev x <;> rw [hc] at this <;> first | rfl | cases this
    constructor
    · rfl
    · rfl
    · rfl
    · rfl
    · intro e he; rw [List.mem_singleton] at he; subst he; exact ⟨hP _, hy _⟩
    · exact hz _
    · intro h; have := h _ (List.mem_singleton.mpr rfl); rw [hx] at this; cases this
    · intro _; rfl
    · intro _ _; rfl
    · exact id
    · intro c hc; exact .inl hc
    · intro _ h; simpa using h
    · intro _ h; simpa using h
  cases ha : (s.protectionCall new).1 <;> rw [ha] at he
  · exact ⟨by simp, _, _, by simp, he⟩
  · exact ⟨by simp, _, _, by simp, he, fun hx => by simp [executionError] at hx⟩
  · exact ⟨by simp, _, _, by simp, he, fun hx => by simp [executionError] at hx⟩

/-- A command whose check and execution end as they should does so as a whole. -/
theorem runCommand_ends {n : CmdName} {args : Regs → Regs} {check run : State → Ran} {s t : State}
    {A : Nat → Prop} {P : Event → Prop} {m : Nat} (hargs : (args s.regs).flashOpen = s.regs.flashOpen)
    (hcheck : ∀ e u, check (s.accept n args) = .raised e u → executionError e = false ∧ e ≠ .timeout ∧
      ∃ q es, q ≠ .unlocked ∧ Effect A P .before q es (s.accept n args) u ∧ ∀ x ∈ es, x.isFlash = false ∧ x.isProtection = false)
    (hrun : ∀ d u, check (s.accept n args) = .done d u →
      ∃ q es, Effect A P .before q es (s.accept n args) u ∧ (∀ x ∈ es, x.isFlash = false ∧ x.isProtection = false) ∧
        (run u.enterExecuting).Ends m A P q u.enterExecuting)
    (h : runCommand n args check run s = .next t) :
    ∃ r : Ran, r.Ends m A P .before s ∧ r.finish = .next t := by
  have h0 : Effect A P .before .before [] s (s.accept n args) := .of_regs rfl rfl hargs
  rcases runCommand_next h with ⟨e, u, hc, rfl⟩ | ⟨d, u, hc, hr⟩
  · obtain ⟨h1, h2, q, es, hq, h3, h4⟩ := hcheck e u hc
    exact ⟨.raised e u, ⟨h2, q, _, hq, h0.trans h3, fun _ => by simpa using h4⟩, rfl⟩
  · obtain ⟨q, es, h1, h2, h3⟩ := hrun d u hc
    have h4 : Effect A P .before q ([] ++ es ++ []) s u.enterExecuting :=
      (h0.trans h1).trans (.of_regs rfl rfl rfl)
    refine ⟨run u.enterExecuting, .after h4 (.inl (by simpa using h2)) h3, ?_⟩
    rcases hr with ⟨d', v, hd, rfl⟩ | ⟨e, v, hd, rfl⟩ <;> rw [hd] <;> rfl

/-- The execution of a read (R228). -/
theorem runRead_ends (address : Word) (count : Byte) (s : State) {n : Nat} {A : Nat → Prop} {P : Event → Prop}
    (hn : count.toNat ≤ n) (hP : ∀ a n b, P (.memRead a n b)) : (runRead address count s).Ends n A P .before s := by
  unfold runRead
  cases h : s.portMemRead address.toNat count.toNat with
  | none => trivial
  | some r =>
    obtain ⟨b, u⟩ := r
    obtain ⟨_, rfl, rfl⟩ := State.portMemRead_some h
    refine ⟨by simpa using hn, .reading, [_], by simp, .of_reads rfl rfl rfl (fun e he => ?_) (by simp) rfl⟩
    rw [List.mem_singleton] at he; subst he; exact ⟨hP _ _ _, rfl⟩

/-- Both read commands. -/
theorem runRead_command_ends {n : CmdName} {address : Word} {count : Byte} {args : Regs → Regs}
    {check : State → Ran} {s t : State} {A : Nat → Prop}
    (hargs : (args s.regs).flashOpen = s.regs.flashOpen)
    (hc : ∃ b, check (s.accept n args) = checkRead b address.toNat count.toNat (s.accept n args))
    (h : runCommand n args check (runRead address count) s = .next t) :
    ∃ r : Ran, r.Ends 253 A (Asked s.cfg) .before s ∧ r.finish = .next t := by
  obtain ⟨b, hb⟩ := hc
  have hlog : ∀ x, Effect A (Asked s.cfg) .before .before [.isReadProtected address.toNat count.toNat x] (s.accept n args)
      ((s.accept n args).log (.isReadProtected address.toNat count.toNat x)) := fun x =>
    .of_reads rfl rfl rfl (fun e he => by
      rw [List.mem_singleton] at he; subst he; exact ⟨asked_of_read (by simp) (by simp), rfl⟩) (by simp) rfl
  refine runCommand_ends hargs (fun e u he => ?_) (fun d u he => ?_) h
  · rw [hb] at he
    rcases checkRead_cases b address.toNat count.toNat (s.accept n args) with ⟨h1, _⟩ | ⟨h1, _⟩ | ⟨h1, _⟩ <;>
      rw [h1] at he <;> cases he
    · exact ⟨rfl, by simp, .before, [], by simp, .of_regs rfl rfl rfl, by simp⟩
    · exact ⟨rfl, by simp, _, _, by simp, hlog true, by simp [Event.isFlash, Event.isProtection]⟩
  · rw [hb] at he
    rcases checkRead_cases b address.toNat count.toNat (s.accept n args) with ⟨h1, _⟩ | ⟨h1, _⟩ | ⟨h1, _, h2, _⟩ <;>
      rw [h1] at he <;> cases he
    refine ⟨_, _, hlog false, by simp [Event.isFlash, Event.isProtection], runRead_ends _ _ _ h2 fun a n b => ?_⟩
    exact asked_of_read (by simp) (by simp)

/-- A command without a check whose execution ends as it should. -/
theorem runCommand_noCheck_ends {n : CmdName} {run : State → Ran} {s t : State}
    {A : Nat → Prop} {P : Event → Prop} {m : Nat}
    (hrun : ∀ u : State, u.cfg = s.cfg → (run u).Ends m A P .before u)
    (h : runCommand n id noCheck run s = .next t) : ∃ r : Ran, r.Ends m A P .before s ∧ r.finish = .next t := by
  refine runCommand_ends rfl (fun e u he => by cases he) (fun d u he => ?_) h
  cases he
  exact ⟨_, [], .of_regs rfl rfl rfl, by simp, hrun _ rfl⟩

@[simp] theorem fieldBytes16_length (o : FieldOrder) (v : Half) : (fieldBytes16 o v).length = 2 := by
  cases o <;> rfl

@[simp] theorem fieldBytes32_length (o : FieldOrder) (v : Word) : (fieldBytes32 o v).length = 4 := by
  cases o <;> rfl

/-- Every command that completes ends with an effect inside its own area. -/
theorem exec_command_ends {i : Instr} (hi : i.isCommand = true) {s t : State} (h : exec i s = .next t) :
    ∃ r : Ran, r.Ends 253 (commandArea s.cfg i) (Asked s.cfg) .before s ∧ r.finish = .next t := by
  have hread : ∀ {e : Event}, (∀ k ans, e ≠ .flashEraseSector k ans) →
      (∀ a w ans, e ≠ .flashProgramWord a w ans) → Asked s.cfg e := asked_of_read
  have hone : ∀ {A : Nat → Prop} (u : State) (e : Event) (d : List Byte), d.length ≤ 253 → Asked s.cfg e →
      e.ofCommand = true → Bracket.before.run [e] = some .before →
      (Ran.done d (u.log e)).Ends 253 A (Asked s.cfg) .before u :=
    fun u e d h1 h2 h3 h4 => ⟨h1, _, [e], by simp, .of_reads rfl rfl rfl
      (fun x hx => by rw [List.mem_singleton] at hx; subst hx; exact ⟨h2, h3⟩) (by simp) h4⟩
  cases i with
  | getVersion =>
    exact runCommand_noCheck_ends (run := runGetVersion)
      (fun u _ => ⟨by simp, .before, [], by simp, .of_regs rfl rfl rfl⟩) h
  | getHelp =>
    exact runCommand_noCheck_ends (run := runGetHelp)
      (fun u _ => ⟨by simp [Cfg.codes, CmdName.all], .before, [], by simp, .of_regs rfl rfl rfl⟩) h
  | getChipId =>
    exact runCommand_noCheck_ends (run := runGetChipId)
      (fun u _ => hone u _ _ (by simp) (hread (by simp) (by simp)) rfl rfl) h
  | getReadProtectionStatus =>
    exact runCommand_noCheck_ends (run := runGetReadProtectionStatus)
      (fun u _ => hone u _ _ (by simp) (hread (by simp) (by simp)) rfl rfl) h
  | readSectorProtectionStatus =>
    exact runCommand_noCheck_ends (run := runReadSectorProtectionStatus)
      (fun u _ => hone u _ _ (by simp) (hread (by simp) (by simp)) rfl rfl) h
  | goToAddress address =>
    refine runCommand_ends (args := fun r => { r with argAddr := address }) rfl (fun e u he => ?_)
      (fun d u he => ?_) h
    all_goals
      rcases checkGoToAddress_cases address (s.accept .goToAddress fun r => { r with argAddr := address }) with
        ⟨h1, _⟩ | h1 | ⟨b0, b1, v, _, _, _, h2, h3, h4, h1⟩ <;> rw [h1] at he
    · cases he; exact ⟨rfl, by simp, .before, [], by simp, .of_regs rfl rfl rfl, by simp⟩
    · cases he
    · split at he <;> cases he
      refine ⟨rfl, by simp, .reading, _, by simp, .of_reads h2 h4 (by rw [h3]) (fun e he => ?_) (by simp) rfl, ?_⟩
      · simp only [List.mem_cons, List.not_mem_nil, or_false] at he
        rcases he with rfl | rfl <;> exact ⟨hread (by simp) (by simp), rfl⟩
      · simp [Event.isFlash, Event.isProtection]
    · cases he
    · cases he
    · split at he <;> cases he
      refine ⟨.reading, _, .of_reads h2 h4 (by rw [h3]) (fun e he => ?_) (by simp) rfl, ?_, by simp, _, [],
        by simp, .of_regs rfl rfl rfl⟩
      · simp only [List.mem_cons, List.not_mem_nil, or_false] at he
        rcases he with rfl | rfl <;> exact ⟨hread (by simp) (by simp), rfl⟩
      · simp [Event.isFlash, Event.isProtection]
  | flashErase sector count =>
    refine runCommand_ends (args := fun r => { r with argSector := sector, argNsec := count }) rfl
      (fun e u he => ?_) (fun d u he => ?_) h
    all_goals
      rcases checkFlashErase_cases sector count
        (s.accept .flashErase fun r => { r with argSector := sector, argNsec := count }) with
        ⟨h1, _⟩ | ⟨h1, _⟩ | ⟨ha, h1⟩ <;> rw [h1] at he <;> cases he
    · exact ⟨rfl, by simp, .before, [], by simp, .of_regs rfl rfl rfl, by simp⟩
    · exact ⟨rfl, by simp, .before, [], by simp, .of_regs rfl rfl rfl, by simp⟩
    · refine ⟨_, [], .of_regs rfl rfl rfl, by simp, ?_⟩
      refine Ran.Ends.mono (State.eraseSequence_ends _ (P := Asked s.cfg) fun e he1 he2 => ?_)
        (fun a hx => ⟨ha, hx⟩) fun _ => id
      intro hw
      cases e <;> try rfl
      · next k ans =>
        obtain ⟨h1, h2⟩ := ha.sector (he1 k ans rfl)
        have h1 : k < s.cfg.nsectors := h1
        have h2 : k ∉ s.cfg.reserved := h2
        simp [Event.permitted, h1, h2]
      · exact absurd rfl (he2 _ _ _)
  | memWrite address data =>
    refine runCommand_ends
      (args := fun r => { r with argAddr := address, argCount := BitVec.ofNat 8 data.length }) rfl
      (fun e u he => ?_) (fun d u he => ?_) h
    all_goals
      rcases checkMemWrite_cases address.toNat data.length
        (s.accept .memWrite fun r => { r with argAddr := address, argCount := BitVec.ofNat 8 data.length }) with
        ⟨h1, _⟩ | ⟨h1, _⟩ | ⟨h1, _⟩ | ⟨h1, ha⟩ <;> rw [h1] at he <;> cases he
    · exact ⟨rfl, by simp, .before, [], by simp, .of_regs rfl rfl rfl, by simp⟩
    · exact ⟨rfl, by simp, .before, [], by simp, .of_regs rfl rfl rfl, by simp⟩
    · exact ⟨rfl, by simp, .before, [], by simp, .of_regs rfl rfl rfl, by simp⟩
    · refine ⟨_, [], .of_regs rfl rfl rfl, by simp, ?_⟩
      refine Ran.Ends.mono (State.programSequence_ends _ address.toNat data (P := Asked s.cfg)
        fun e he1 he2 => ?_) (fun a hx => ⟨ha, hx⟩) fun _ => id
      intro hw
      cases e <;> try rfl
      · exact absurd rfl (he1 _ _)
      · next x w ans =>
        obtain ⟨i, hi, hx⟩ := he2 x w ans rfl
        have hi : i < data.length / s.cfg.wordBytes := hi
        have hx : x = address.toNat + i * s.cfg.wordBytes := hx
        obtain ⟨g1, g2, g3, g4, g5, g6⟩ : ProgramAllowed s.cfg address.toNat data.length := ha
        have hin := word_inside hi
        have hpos := (cfgFacts hw).wordBytes_pos
        simp only [Event.permitted, Bool.and_eq_true, beq_iff_eq, Bool.not_eq_true', inFlash_iff,
          touchesReserved_false_iff]
        refine ⟨⟨by rw [hx, Nat.add_mul_mod_self_right]; exact g1, hpos, by omega, by omega⟩, ?_⟩
        intro j hj
        have := g3 (i * s.cfg.wordBytes + j) (by omega)
        rw [hx, Nat.add_assoc]; exact this
  | enableRwProtect mask mode =>
    refine runCommand_ends (args := fun r => { r with argMask := mask, argMode := mode }) rfl
      (fun e u he => ?_) (fun d u he => ?_) h
    all_goals
      rcases checkEnableRwProtect_cases mask mode
        (s.accept .enableRwProtect fun r => { r with argMask := mask, argMode := mode }) with
        ⟨h1, _⟩ | ⟨h1, _⟩ <;> rw [h1] at he <;> cases he
    · exact ⟨rfl, by simp, .before, [], by simp, .of_regs rfl rfl rfl, by simp⟩
    · exact ⟨_, [], .of_regs rfl rfl rfl, by simp,
        protection_ends _ _ (fun x => .flashEnableProtection mask mode x) (fun _ => rfl)
          fun _ => hread (by simp) (by simp)⟩
  | memRead address count => exact runRead_command_ends rfl ⟨_, rfl⟩ h
  | otpRead address count => exact runRead_command_ends rfl ⟨_, rfl⟩ h
  | disableRwProtect =>
    exact runCommand_noCheck_ends (run := runDisableRwProtect) (fun u _ => protection_ends u _ (fun x => .flashDisableProtection x)
      (fun _ => rfl) fun _ => hread (by simp) (by simp)) h
  | ack _ _ => cases hi
  | nack _ => cases hi

/-- Every execution that is taken up (T11 of R184) ends with an effect, on whatever the registers ask for. -/
theorem execution_ends (i : Instr) (s : State) :
    (execution i s).Ends 255 (fun _ => True) (fun _ => True) .before s := by
  have hone : ∀ (u : State) (e : Event) (d : List Byte), d.length ≤ 255 →
      e.ofCommand = true → Bracket.before.run [e] = some .before →
      (Ran.done d (u.log e)).Ends 255 (fun _ => True) (fun _ => True) .before u :=
    fun u e d h1 h3 h4 => ⟨h1, _, [e], by simp, .of_reads rfl rfl rfl
      (fun x hx => by rw [List.mem_singleton] at hx; subst hx; exact ⟨trivial, h3⟩) (by simp) h4⟩
  cases i with
  | getVersion => exact ⟨by simp, .before, [], by simp, .of_regs rfl rfl rfl⟩
  | getHelp => exact ⟨by simp [Cfg.codes, CmdName.all], .before, [], by simp, .of_regs rfl rfl rfl⟩
  | getChipId => exact hone _ _ _ (by simp) rfl rfl
  | getReadProtectionStatus => exact hone _ _ _ (by simp) rfl rfl
  | readSectorProtectionStatus => exact hone _ _ _ (by simp) rfl rfl
  | goToAddress _ => exact ⟨by simp, .before, [], by simp, .of_regs rfl rfl rfl⟩
  | flashErase _ _ =>
    exact (s.eraseSequence_ends (P := fun _ => True) fun _ _ _ => trivial).mono
      (fun _ _ => trivial) fun _ => id
  | memWrite address data =>
    exact (s.programSequence_ends address.toNat data (P := fun _ => True)
      fun _ _ _ => trivial).mono (fun _ _ => trivial) fun _ => id
  | enableRwProtect mask mode =>
    exact protection_ends s _ (fun x => .flashEnableProtection mask mode x) (fun _ => rfl) fun _ => trivial
  | memRead address count =>
    exact runRead_ends _ _ _ (by have := count.isLt; omega) fun _ _ _ => trivial
  | otpRead address count =>
    exact runRead_ends _ _ _ (by have := count.isLt; omega) fun _ _ _ => trivial
  | disableRwProtect =>
    exact protection_ends s _ (fun x => .flashDisableProtection x) (fun _ => rfl) fun _ => trivial
  | ack _ _ => exact ⟨by simp, .before, [], by simp, .of_regs rfl rfl rfl, by simp⟩
  | nack _ => exact ⟨by simp, .before, [], by simp, .of_regs rfl rfl rfl, by simp⟩

/-- Every sequence that is taken up ends with an effect, from whatever position (R33). -/
theorem continuation_ends (i : Instr) {s : State} (hs : s.regs.pstate = .executing)
    (ho : s.regs.seqState = .idle → s.regs.flashOpen = false) :
    (continuation i s).Ends 255 (fun _ => True) (fun _ => True) s.bracket s := by
  cases i with
  | flashErase _ _ =>
    exact State.continueSequence_ends hs ho trivial trivial
      (fun u => (u.eraseFrom_ends (P := fun _ => True) fun _ _ _ => trivial).imp_right fun h =>
        h.mono (fun _ _ => trivial) fun _ => id)
      fun u => u.eraseVerify_ends fun _ _ _ => trivial
  | memWrite address data =>
    exact State.continueSequence_ends hs ho trivial trivial
      (fun u => (u.programFrom_ends address.toNat data (P := fun _ => True) fun _ _ _ => trivial).imp_right fun h =>
        h.mono (fun _ _ => trivial) fun _ => id)
      fun u => u.programVerify_ends address.toNat data fun _ _ _ => trivial
  | _ => trivial

/-- The step in `Executing` (T11 of R184), from wherever it is taken up. -/
theorem takenUp_ends (i : Instr) {s : State} (hs : s.regs.pstate = .executing) :
    (if s.regs.seqState = .idle then execution i s else continuation i s).Ends 255 (fun _ => True) (fun _ => True)
      (if s.regs.seqState = .idle then .before else s.bracket) s := by
  split
  · exact execution_ends i s
  · next h => exact continuation_ends i hs fun h' => absurd h' h

end Sys2Proof.Machine
end

