-- ==== Sys2Proof/Laws/PerInstr.lean ====
section
/-! SUPPORT. Families of statements about every instruction, one lemma per constructor. -/

namespace Sys2Proof.Laws.PayloadFits

open Sys2Proof Sys2Proof.Machine

/-- The payload of a well-formed instruction fits the length byte: at most 254 bytes, as `write_frame` asks
(`30_encoding.md` R91, `41_frame_codec.md` R148). -/
def Statement (i : Instr) : Prop := ∀ c : Cfg, i.WellFormed c → (payloadOf c i).length ≤ 254

theorem getVersion : Statement .getVersion := fun _ _ => by simp [payloadOf]
theorem getHelp : Statement .getHelp := fun _ _ => by simp [payloadOf]
theorem getChipId : Statement .getChipId := fun _ _ => by simp [payloadOf]
theorem getReadProtectionStatus : Statement .getReadProtectionStatus := fun _ _ => by simp [payloadOf]
theorem goToAddress (address : Word) : Statement (.goToAddress address) := fun _ _ => by simp [payloadOf]
theorem flashErase (sectorNumber sectorCount : Byte) : Statement (.flashErase sectorNumber sectorCount) :=
  fun _ _ => by simp [payloadOf]
theorem memWrite (baseAddress : Word) (data : List Byte) : Statement (.memWrite baseAddress data) := by
  intro c h
  have hl : data.length ≤ 249 := of_decide_eq_true h
  simp only [payloadOf, List.length_append, fieldBytes32_length, List.length_cons]; omega
theorem enableRwProtect (sectorMask : Half) (mode : Byte) : Statement (.enableRwProtect sectorMask mode) :=
  fun _ _ => by simp [payloadOf]
theorem memRead (baseAddress : Word) (byteCount : Byte) : Statement (.memRead baseAddress byteCount) :=
  fun _ _ => by simp [payloadOf]
theorem readSectorProtectionStatus : Statement .readSectorProtectionStatus := fun _ _ => by simp [payloadOf]
theorem otpRead (baseAddress : Word) (byteCount : Byte) : Statement (.otpRead baseAddress byteCount) :=
  fun _ _ => by simp [payloadOf]
theorem disableRwProtect : Statement .disableRwProtect := fun _ _ => by simp [payloadOf]
theorem ack (status : Byte) (data : List Byte) : Statement (.ack status data) := by
  intro c h
  have h' : (status == c.stOk && decide (data.length ≤ 253)) = true := h
  simp only [Bool.and_eq_true, decide_eq_true_eq] at h'
  simp only [payloadOf, List.length_cons]; omega
theorem nack (status : Byte) : Statement (.nack status) := fun _ _ => by simp [payloadOf]

end Sys2Proof.Laws.PayloadFits
end

