-- ==== Sys2Proof/Laws/Step.lean ====
section
/-! SUPPORT. Everything one step can do (`42_dispatch.md` R171, R184), for the whole-machine statements. -/

namespace Sys2Proof.Machine

/-- A frame in the receive registers is a command, or is refused by one of two errors (R173, R174). -/
theorem decodeBody_cases (c : Cfg) (len : Byte) (body : List Byte) :
    (∃ n, decodeCode c (payloadByte body 0) = some n ∧ sizeOk n len (body.drop 1) = true ∧
        decodeBody c len body = .ok (extract c n (body.drop 1))) ∨
      (decodeCode c (payloadByte body 0) = none ∧ decodeBody c len body = .error .unsupportedCode) ∨
      ∃ n, decodeCode c (payloadByte body 0) = some n ∧ sizeOk n len (body.drop 1) = false ∧
        decodeBody c len body = .error .sizeMismatch := by
  unfold decodeBody
  cases decodeCode c (payloadByte body 0) with
  | none => simp
  | some n => cases sizeOk n len (body.drop 1) <;> simp

@[simp] theorem extract_name (c : Cfg) (n : CmdName) (p : List Byte) : (extract c n p).name? = some n := by
  cases n <;> rfl

@[simp] theorem extract_isCommand (c : Cfg) (n : CmdName) (p : List Byte) : (extract c n p).isCommand = true := by
  simp [Instr.isCommand]

/-- A response in the `TX_` registers is an ACK or a NACK (R100). -/
theorem decodeResponseBody_ok {c : Cfg} {code : Byte} {payload : List Byte} {i : Instr}
    (h : decodeResponseBody c code payload = .ok i) :
    (∃ status data, payload = status :: data ∧ code = c.rcAck ∧ i = .ack status data) ∨
      ∃ status, payload = [status] ∧ code ≠ c.rcAck ∧ code = c.rcNack ∧ i = .nack status := by
  unfold decodeResponseBody at h
  match payload with
  | [] => cases h
  | status :: data =>
    simp only at h
    by_cases h1 : code = c.rcAck
    · simp [h1] at h; exact .inl ⟨status, data, rfl, h1, h.symm⟩
    · by_cases h2 : code = c.rcNack
      · match data with
        | [] =>
          have h3 : (code == c.rcAck) = false := by simpa using h1
          have h4 : (code == c.rcNack) = true := by simpa using h2
          simp [h3, h4] at h; exact .inr ⟨status, rfl, h1, h2, h.symm⟩
        | _ :: _ =>
          have h3 : (code == c.rcAck) = false := by simpa using h1
          have h4 : (code == c.rcNack) = true := by simpa using h2
          simp [h3, h4] at h
      · simp [h1, h2] at h

/-- The response of the step in `Responding` is an ACK or a NACK: the frame in the `TX_` registers, or where they
hold none the one `STATUS` asks for (R100, R178). -/
theorem State.response_cases (s : State) :
    (∃ status data, s.regs.txPayload = status :: data ∧ s.regs.txCode = s.cfg.rcAck ∧
        s.response = .ack status data) ∨
      (∃ status, s.regs.txPayload = [status] ∧ s.regs.txCode ≠ s.cfg.rcAck ∧ s.regs.txCode = s.cfg.rcNack ∧
        s.response = .nack status) ∨
      s.fetchResponse.toOption = none ∧ s.regs.status = s.cfg.stOk ∧
        s.response = .ack s.cfg.stOk (s.regs.txPayload.drop 1) ∨
      s.fetchResponse.toOption = none ∧ s.regs.status ≠ s.cfg.stOk ∧ s.response = .nack s.regs.status := by
  unfold State.response
  cases hd : s.fetchResponse with
  | ok i =>
    rcases decodeResponseBody_ok hd with ⟨st, data, h1, h2, rfl⟩ | ⟨st, h1, h2, h3, rfl⟩
    · exact .inl ⟨st, data, h1, h2, rfl⟩
    · exact .inr (.inl ⟨st, h1, h2, h3, rfl⟩)
  | error e =>
    by_cases hs : s.regs.status = s.cfg.stOk
    · exact .inr (.inr (.inl ⟨rfl, hs, by simp [builtResponse, hs]⟩))
    · exact .inr (.inr (.inr ⟨rfl, hs, by simp [builtResponse, hs]⟩))

/-- Where the `TX_` registers hold a frame of R100, it is the response. -/
theorem State.response_of_ok {s : State} {i : Instr} (h : s.fetchResponse = .ok i) : s.response = i := by
  simp only [State.response, h]

/-- The end of `read_frame` (T1 to T6 of R184). -/
theorem State.endFrame_cases (u : State) :
    (u.regs.ferr = .none ∧ u.endFrame = u.setPstate .validating) ∨
      (u.regs.ferr = .timeout ∧ u.endFrame = u.raise .timeout) ∨
      (u.regs.ferr = .malformedLength ∧ u.endFrame = u.raise .malformedLength) ∨
      (u.regs.ferr = .checksumMismatch ∧ u.endFrame = u.raise .checksumMismatch) := by
  unfold State.endFrame
  cases h : u.regs.ferr <;> simp [FrameErr.err]

/-- From the start of a frame (R24, R33). -/
theorem State.receive_of_start {s : State} (h : s.regs.rxIdx = 0) :
    s.receive = .next s.readFrame.endFrame := by
  simp only [State.receive, State.continueFrame_of_start h]

/-- Everything the receiving can do (T1 to T6 of R184), from its position (R33). -/
theorem State.receive_next {s t : State} (h : s.receive = .next t) :
    ∃ u, ReadsFrame (s.regs.rxIdx = 0) s u ∧
      ((u.regs.ferr = .none ∧ t = u.setPstate .validating) ∨
        (u.regs.ferr = .timeout ∧ t = u.raise .timeout) ∨
        (u.regs.ferr = .malformedLength ∧ t = u.raise .malformedLength) ∨
        (u.regs.ferr = .checksumMismatch ∧ t = u.raise .checksumMismatch)) := by
  unfold State.receive at h
  cases hc : s.continueFrame with
  | none => rw [hc] at h; cases h
  | some u =>
    rw [hc] at h
    cases h
    exact ⟨u, State.continueFrame_spec hc, u.endFrame_cases⟩

/-- Everything a step can do. -/
theorem step_next {s t : State} (h : step s = .next t) :
    (s.env.resetPending = true ∧ t = s.deviceReset) ∨
      s.env.resetPending = false ∧
        ((s.regs.pstate = .awaitingFrame ∧ s.receive = .next t) ∨
          (s.regs.pstate = .validating ∧
            ((∃ i, s.fetchCommand = .ok i ∧ i.isCommand = true ∧ exec i s = .next t) ∨
              ∃ e, (e = .unsupportedCommand ∨ e = .malformedLength) ∧ t = s.setCmd.raise e)) ∨
          (s.regs.pstate = .executing ∧
            ((∃ i, s.fetchCommand = .ok i ∧
                (if s.regs.seqState = .idle then execution i s else continuation i s).finish = .next t) ∨
              ∃ e, (e = .unsupportedCommand ∨ e = .malformedLength) ∧ t = s.raise e)) ∨
          (s.regs.pstate = .responding ∧ exec s.response s = .next t)) := by
  unfold step at h
  by_cases hr : s.env.resetPending = true
  · rw [if_pos hr] at h; cases h; exact .inl ⟨hr, rfl⟩
  · rw [if_neg hr] at h
    refine .inr ⟨by simpa using hr, ?_⟩
    cases hp : s.regs.pstate <;> rw [hp] at h <;> dsimp only at h
    · exact .inl ⟨rfl, h⟩
    · refine .inr (.inl ⟨rfl, ?_⟩)
      rw [State.validate, State.fetchCommand] at h
      rcases decodeBody_cases s.cfg s.regs.rxLen s.regs.rxBody with ⟨n, _, _, hd⟩ | ⟨_, hd⟩ | ⟨n, _, _, hd⟩ <;>
        rw [hd] at h <;> dsimp only at h
      · exact .inl ⟨_, hd, by simp, h⟩
      · cases h; exact .inr ⟨_, .inl rfl, rfl⟩
      · cases h; exact .inr ⟨_, .inr rfl, rfl⟩
    · refine .inr (.inr (.inl ⟨rfl, ?_⟩))
      rw [State.resume, State.fetchCommand] at h
      rcases decodeBody_cases s.cfg s.regs.rxLen s.regs.rxBody with
        ⟨n, _, _, hd⟩ | ⟨_, hd⟩ | ⟨n, _, _, hd⟩ <;> rw [hd] at h <;> dsimp only at h
      · exact .inl ⟨_, hd, h⟩
      · cases h; exact .inr ⟨_, .inl rfl, rfl⟩
      · cases h; exact .inr ⟨_, .inr rfl, rfl⟩
    · exact .inr (.inr (.inr ⟨rfl, h⟩))
    · cases h

/-- The three ways a response ends (T12, T13 of R184). -/
theorem execAck_next {status : Byte} {data : List Byte} {s t : State} (h : exec (.ack status data) s = .next t) :
    (s.regs.cmd = some .goToAddress ∧ status = s.cfg.stOk ∧
        t = (s.sendResponse s.cfg.rcAck status data).handOff) ∨
      (¬ (s.regs.cmd = some .goToAddress ∧ status = s.cfg.stOk) ∧
        t = (s.sendResponse s.cfg.rcAck status data).newCycle) := by
  change execAck status data s = .next t at h
  by_cases hc : s.regs.cmd = some .goToAddress ∧ status = s.cfg.stOk
  · have he : execAck status data s = .next (s.sendResponse s.cfg.rcAck status data).handOff := if_pos hc
    rw [he] at h; cases h; exact .inl ⟨hc.1, hc.2, rfl⟩
  · have he : execAck status data s = .next (s.sendResponse s.cfg.rcAck status data).newCycle := if_neg hc
    rw [he] at h; cases h; exact .inr ⟨hc, rfl⟩

theorem execNack_next {status : Byte} {s t : State} (h : exec (.nack status) s = .next t) :
    t = (s.sendResponse s.cfg.rcNack status []).newCycle := by
  simp only [exec, execNack] at h
  cases h; rfl

/-- What the step in `Responding` does in every case: one response is sent, then the hand-off or the next cycle
(T12, T13 of R184). -/
theorem State.answer_next {s t : State} (h : exec s.response s = .next t) :
    ∃ code status data, t = (s.sendResponse code status data).handOff ∨ t = (s.sendResponse code status data).newCycle := by
  have hack : ∀ {status data}, exec (.ack status data) s = .next t →
      ∃ code status data, t = (s.sendResponse code status data).handOff ∨
        t = (s.sendResponse code status data).newCycle := fun h =>
    (execAck_next h).elim (fun h => ⟨_, _, _, .inl h.2.2⟩) fun h => ⟨_, _, _, .inr h.2⟩
  rcases s.response_cases with ⟨_, _, _, _, hr⟩ | ⟨_, _, _, _, hr⟩ | ⟨_, _, hr⟩ | ⟨_, _, hr⟩ <;> rw [hr] at h
  · exact hack h
  · exact ⟨_, _, _, .inr (execNack_next h)⟩
  · exact hack h
  · exact ⟨_, _, _, .inr (execNack_next h)⟩

end Sys2Proof.Machine
end

