-- ==== Sys2Proof/Tests/Slice0.lean ====
section
/-! SUPPORT. Tests of the model. Expected values are those of `spec/95_test_vectors.md` (the vector is named),
of the layouts of `spec/30_encoding.md` R97 and R100, or of the rule cited. Last, one state for each
obligation that meets its hypotheses together. -/

open Sys2Proof Sys2Proof.Machine

namespace Sys2Proof.Tests

/-! Well-formedness refuses what it should. -/

/-- R97: 249 data bytes are the most a MEM_WRITE frame can hold. -/
theorem test_wellFormed_memWrite_too_long :
    Instr.wellFormed cfgRef (.memWrite 0x08008000 (List.replicate 250 0)) = false ∧
    Instr.wellFormed cfgRef (.memWrite 0x08008000 (List.replicate 249 0)) = true := by decide +kernel

/-- R100: 253 data bytes are the most an ACK can hold. -/
theorem test_wellFormed_ack_too_long :
    Instr.wellFormed cfgRef (.ack 0x00 (List.replicate 254 0)) = false ∧
    Instr.wellFormed cfgRef (.ack 0x00 (List.replicate 253 0)) = true := by decide +kernel

/-- R100: ACK goes with `ST_OK` only. -/
theorem test_wellFormed_ack_status : Instr.wellFormed cfgRef (.ack 0x22 []) = false := by decide

/-- R100: NACK never carries `ST_OK`. -/
theorem test_wellFormed_nack_ok : Instr.wellFormed cfgRef (.nack 0x00) = false := by decide

/-- R291: NACK carries one of the eleven error codes. -/
theorem test_wellFormed_nack_unknown : Instr.wellFormed cfgRef (.nack 0x99) = false := by decide

/-- R12 holds of `CFG_REF`. -/
theorem test_cfgRef_wellFormed : cfgRef.WellFormed := by decide +kernel

/-- R12: two commands never share a code. -/
theorem test_cfg_shared_code : Cfg.wellFormed { cfgRef with ccGetHelp := 0x51 } = false := by decide +kernel

/-- R12: the sectors leave no gap. -/
theorem test_cfg_gap :
    Cfg.wellFormed { cfgRef with sectors := cfgRef.sectors.eraseIdx 3 } = false := by decide +kernel

/-- R12: the application region holds no reserved byte. -/
theorem test_cfg_app_reserved : Cfg.wellFormed { cfgRef with appBase := 0x08007FFF } = false := by
  decide +kernel

/-- R12: the mass-erase number is no sector's. -/
theorem test_cfg_mass_is_sector : Cfg.wellFormed { cfgRef with massErase := some 11 } = false := by
  decide +kernel

/-- R12: the implausible stack pointer `0xFFFFFFFF` lies outside the RAM. -/
theorem test_cfg_ram_end : Cfg.wellFormed { cfgRef with ramEnd := 0xFFFFFFFF } = false := by decide +kernel

/-- R11: `APP_END` and `OTP_END` are u32; only a space's own end may be `0x100000000`. -/
theorem test_cfg_u32_ends :
    Cfg.wellFormed { cfgRef with otpEnd := 0x100000000 } = false ∧
    Cfg.wellFormed { cfgRef with appEnd := 0x100000000 } = false := by decide +kernel

/-- R12: an OTP space without a byte overlaps nothing, wherever its bounds stand. -/
theorem test_cfg_empty_otp :
    Cfg.wellFormed { cfgRef with otpBase := 0x08000010, otpEnd := 0x08000010 } = true ∧
    Cfg.wellFormed { cfgRef with otpBase := 0x1FFF7A10, otpEnd := 0x1FFF7800 } = true := by decide +kernel

/-! Decoding, on frames written out from R97, R100 with the crc bytes of `95_test_vectors.md`. -/

/-- V-INT-1 to V-INT-5a and V-PRT-4: the commands without operands. -/
theorem test_decode_no_operands :
    [[0x01, 0x51, 0x11, 0x13, 0xF8, 0xAE], [0x01, 0x52, 0xC8, 0x35, 0xBB, 0xA3],
      [0x01, 0x53, 0x7F, 0x28, 0x7A, 0xA7], [0x01, 0x54, 0x7A, 0x78, 0x3D, 0xB9],
      [0x01, 0x5A, 0x70, 0xD8, 0xB3, 0x85], [0x01, 0x5C, 0xC2, 0x95, 0x35, 0x9F]].map
        (fun f => (decodeFrame cfgRef f).toOption)
    = [some (.getVersion, []), some (.getHelp, []), some (.getChipId, []),
      some (.getReadProtectionStatus, []), some (.readSectorProtectionStatus, []),
      some (.disableRwProtect, [])] := by decide +kernel

/-- S6: GO_TO_ADDRESS of `0x08008000`, least significant byte first. -/
theorem test_decode_goToAddress :
    (decodeFrame cfgRef [0x05, 0x55, 0x00, 0x80, 0x00, 0x08, 0x8E, 0xC3, 0x4D, 0x6B]).toOption
    = some (.goToAddress 0x08008000, []) := by decide +kernel

/-- V-ERS-4: sector number first, then the count; the byte after the frame is left. -/
theorem test_decode_flashErase :
    (decodeFrame cfgRef [0x03, 0x56, 0x0B, 0x02, 0x58, 0x4A, 0x20, 0x39, 0x77]).toOption
    = some (.flashErase 11 2, [0x77]) := by decide +kernel

/-- V-PRG-11. -/
theorem test_decode_memWrite :
    (decodeFrame cfgRef [0x0E, 0x57, 0x00, 0x80, 0x00, 0x08, 0x08, 0x00, 0x00, 0x02, 0x20, 0xC1, 0x81, 0x00,
      0x08, 0xD8, 0x6A, 0xE3, 0x1D]).toOption
    = some (.memWrite 0x08008000 [0x00, 0x00, 0x02, 0x20, 0xC1, 0x81, 0x00, 0x08], []) := by decide +kernel

/-- V-PRT-3: the mask `0x1000`. -/
theorem test_decode_enableRwProtect :
    (decodeFrame cfgRef [0x04, 0x58, 0x00, 0x10, 0x01, 0x47, 0x9B, 0x99, 0xAC]).toOption
    = some (.enableRwProtect 0x1000 1, []) := by decide +kernel

/-- V-RD-7. -/
theorem test_decode_memRead :
    (decodeFrame cfgRef [0x06, 0x59, 0x04, 0x80, 0x00, 0x08, 0x04, 0xBA, 0x90, 0xC4, 0x9D]).toOption
    = some (.memRead 0x08008004 4, []) := by decide +kernel

/-- V-OTP-2. -/
theorem test_decode_otpRead :
    (decodeFrame cfgRef [0x06, 0x5B, 0x0E, 0x7A, 0xFF, 0x1F, 0x04, 0x8B, 0xC8, 0x2D, 0xC7]).toOption
    = some (.otpRead 0x1FFF7A0E 4, []) := by decide +kernel

/-- V-RD-7's response. -/
theorem test_decode_ack :
    (decodeResponseFrame cfgRef [0x06, 0xA5, 0x00, 0xC1, 0x81, 0x00, 0x08, 0x45, 0x1A, 0x29, 0xFC]).toOption
    = some (.ack 0x00 [0xC1, 0x81, 0x00, 0x08], []) := by decide +kernel

/-- The response to a wrong crc. -/
theorem test_decode_nack :
    (decodeResponseFrame cfgRef [0x02, 0x7F, 0x12, 0x41, 0x38, 0x75, 0x3D]).toOption
    = some (.nack 0x12, []) := by decide +kernel

/-- V-FRM-3, V-FRM-4, V-FRM-5d, V-FRM-7b, V-FRM-8: what is refused, and why. -/
theorem test_decode_refuses :
    decodeFrame cfgRef [0x00] = .error .zeroLength ∧
    decodeFrame cfgRef [0x01, 0x51, 0x11, 0x13, 0xF8, 0xAF] = .error .checksumMismatch ∧
    decodeFrame cfgRef [0x03, 0x56, 0x02, 0x01, 0x0F, 0xEE] = .error .truncated ∧
    decodeFrame cfgRef [0x07, 0x57, 0x00, 0x80, 0x00, 0x08, 0x04, 0x01, 0xE7, 0xE5, 0x8B, 0x37]
      = .error .sizeMismatch ∧
    decodeFrame cfgRef [0x03, 0x5D, 0x01, 0x02, 0xB4, 0x06, 0x36, 0x1F] = .error .unsupportedCode := by
  decide +kernel

/-- V-CRC-8: the same command under the other crc conventions. -/
theorem test_encode_conventions :
    encode { cfgRef with crcWireOrder := .msbFirst } .getVersion = [0x01, 0x51, 0xAE, 0xF8, 0x13, 0x11] ∧
    encode { cfgRef with crcFeed := .bits32 } .getVersion = [0x01, 0x51, 0x64, 0x6A, 0x5F, 0x5C] ∧
    encode { cfgRef with crcRefIn := true, crcRefOut := true, crcXorOut := 0xFFFFFFFF } .getVersion
      = [0x01, 0x51, 0xDC, 0x42, 0xAE, 0x44] := by decide +kernel

/-- The rows of `opcode_table.json` in their order, by their `match` words. -/
theorem test_table_words :
    [0x0151, 0x0152, 0x0153, 0x0154, 0x0555, 0x0356, 0x0057, 0x0458, 0x0659, 0x015A, 0x065B, 0x015C, 0x00A5,
      0x007F].map (decodeTableWord 16)
    = [some .getVersion, some .getHelp, some .getChipId, some .getReadProtectionStatus,
      some (.goToAddress 0), some (.flashErase 0 0), some (.memWrite 0 []), some (.enableRwProtect 0 0),
      some (.memRead 0 0), some .readSectorProtectionStatus, some (.otpRead 0 0), some .disableRwProtect,
      some (.ack 0 []), some (.nack 0)] := by decide +kernel

/-! The CRC. -/

/-- V-CRC-1 to V-CRC-3c, over `123456789`. -/
theorem test_crc_check_values :
    let m : List Byte := [0x31, 0x32, 0x33, 0x34, 0x35, 0x36, 0x37, 0x38, 0x39]
    crc cfgRef m = 0x0376E6E7 ∧ crc { cfgRef with crcFeed := .bits32 } m = 0x1556F485 ∧
    crc { cfgRef with crcRefIn := true, crcRefOut := true, crcXorOut := 0xFFFFFFFF } m = 0xCBF43926 ∧
    crc { cfgRef with crcXorOut := 0xFFFFFFFF } m = 0xFC891918 ∧
    crc { cfgRef with crcInit := 0 } m = 0x89A1897F := by decide +kernel

/-- V-CRC-5: the accumulator after each byte. -/
theorem test_crc_accumulator :
    crcUpdate cfgRef 0xFFFFFFFF 0x01 = 0x4AC9A203 ∧ crcUpdate cfgRef 0x4AC9A203 0x51 = 0xAEF81311 ∧
    crcRemainder { cfgRef with crcFeed := .bits32 } [0x01] = 0xC3C5C0CC := by decide +kernel

/-! Steps. -/

/-- The outcome is a next state with the property. -/
def ends (o : Out) (p : State → Bool) : Bool :=
  match o with
  | .next t => p t
  | _ => false

/-- The reset state with bytes and silences on the way to the device. -/
def hears (rx : List RxItem) : State := { State.reset with env := { Env.initial with rx := rx } }

/-- The reset state with flash content. -/
def holding (m : Memory) : State := { State.reset with env := { Env.initial with mem := m } }

/-- The reset state with the driver's answers to the next unit calls. -/
def driven (plan : List UnitPlan) : State := { State.reset with env := { Env.initial with unitPlan := plan } }

/-- The reset state with a driver's status. -/
def statusOf (d : DriverStatus) : State := { State.reset with env := { Env.initial with driver := d } }

/-- V-FRM-1. -/
theorem test_step_receives :
    ends (step (hears ([0x01, 0x51, 0x11, 0x13, 0xF8, 0xAE].map RxItem.byte))) (fun t =>
      t.regs.pstate == .validating && t.regs.rxLen == 1 && t.regs.rxBody == [0x51]
        && t.regs.rxCrc == 0xAEF81311 && t.regs.rxIdx == 6 && t.regs.crcOk && t.regs.ferr == .none
        && t.env.trace == [.rx 1 (some [0x01]), .rx 1 (some [0x51]), .rx 4 (some [0x11, 0x13, 0xF8, 0xAE])]) := by
  decide +kernel

/-- V-FRM-4. -/
theorem test_step_wrong_crc :
    ends (step (hears ([0x01, 0x51, 0x11, 0x13, 0xF8, 0xAF].map RxItem.byte))) (fun t =>
      t.regs.pstate == .responding && t.regs.rxCrc == 0xAFF81311 && !t.regs.crcOk
        && t.regs.ferr == .checksumMismatch && t.regs.txPayload == [0x12]) := by decide +kernel

/-- V-FRM-5c: the two body bytes are lost; nothing is sent. -/
theorem test_step_short_body :
    ends (step (hears ([0x03, 0x56, 0x02].map RxItem.byte ++ [.gap, .byte 0x01]))) (fun t =>
      t.regs.pstate == .awaitingFrame && t.env.rx == [.byte 0x01]
        && t.env.trace == [.rx 1 (some [0x03]), .rx 3 none]) := by decide +kernel

/-- V-FRM-6: an unknown code. -/
theorem test_step_unknown_code :
    ends (step (State.reset.loadCommand 1 [0x5D])) (fun t =>
      t.regs.txCode == 0x7F && t.regs.txPayload == [0x13] && t.regs.cmd == none) := by decide +kernel

/-- A table word is fetched and run by the very next step (log 1, 2). -/
theorem test_step_table_word :
    ends (step (State.reset.withFetchWord 16 0x0152)) (fun t => t.regs.cmd == some .getHelp) ∧
    ends (step (State.reset.withFetchWord 16 0x007F)) (fun t => t.regs.pstate == .awaitingFrame) := by
  decide +kernel

/-- R42, R330: reset leaves the flash. -/
theorem test_step_reset :
    ends (step { holding [(0x08008000, 7)] with
        regs := { Regs.reset cfgRef with pstate := .handedOff }
        env := { (holding [(0x08008000, 7)]).env with resetPending := true } }) (fun t =>
      t.regs == Regs.reset cfgRef && t.env.mem == [(0x08008000, 7)] && !t.env.resetPending) := by
  decide +kernel

/-- V-INT-1. -/
theorem test_getVersion :
    ends (exec .getVersion State.reset) (fun t =>
      t.regs.txCode == 0xA5 && t.regs.txPayload == [0x00, 0x10] && t.regs.txLen == 3) := by decide +kernel

/-- V-INT-2. -/
theorem test_getHelp :
    ends (exec .getHelp State.reset) (fun t => t.regs.txLen == 0x0E && t.regs.txPayload ==
      [0x00, 0x51, 0x52, 0x53, 0x54, 0x55, 0x56, 0x57, 0x58, 0x59, 0x5A, 0x5B, 0x5C]) := by decide +kernel

/-- V-INT-3. -/
theorem test_getChipId :
    ends (exec .getChipId State.reset) (fun t =>
      t.regs.txPayload == [0x00, 0x13, 0x04] && t.env.trace == [.chipId 0x0413]) := by decide +kernel

/-- V-INT-4. -/
theorem test_getReadProtectionStatus :
    ends (exec .getReadProtectionStatus State.reset) (fun t =>
      t.regs.txPayload == [0x00, 0xAA] && t.env.trace == [.rdpStatus 0xAA]) := by decide +kernel

/-- V-INT-5b. -/
theorem test_readSectorProtectionStatus :
    ends (exec .readSectorProtectionStatus (statusOf { DriverStatus.initial with sectorProt := 0x000C }))
      (fun t => t.regs.txPayload == [0x00, 0x0C, 0x00]) := by decide +kernel

/-- V-HO-4: the last place that fits, erased. -/
theorem test_goToAddress_erased :
    ends (exec (.goToAddress 0x080FFFF8) State.reset) (fun t =>
      t.regs.hoSp == 0xFFFFFFFF && t.regs.txCode == 0x7F && t.regs.txPayload == [0x25]) := by decide +kernel

/-- V-HO-5 with the stack pointer at `RAM_END`. -/
theorem test_goToAddress_ram_end :
    ends (exec (.goToAddress 0x08008000) (holding
        (Memory.cellsAt 0x08008000 [0x00, 0x00, 0x02, 0x20, 0xC1, 0x81, 0x00, 0x08]))) (fun t =>
      t.regs.hoSp == 0x20020000 && t.regs.hoEntry == 0x080081C1 && t.regs.txCode == 0xA5
        && t.regs.txPayload == [0x00]) := by decide +kernel

/-- V-ERS-3: protection is tested before range. -/
theorem test_flashErase_protection_first :
    ends (exec (.flashErase 0 200) State.reset) (fun t =>
      t.regs.txPayload == [0x21] && t.env.trace == []) := by decide +kernel

/-- V-ERS-9: the mass erase spares the stale byte of a reserved sector. -/
theorem test_flashErase_mass :
    ends (exec (.flashErase 0xFF 7) (holding [(0x08007FFF, 1), (0x08008000, 2), (0x080FFFFF, 3)])) (fun t =>
      t.regs.txPayload == [0x00] && t.regs.seqList == [2, 3, 4, 5, 6, 7, 8, 9, 10, 11]
        && t.env.mem == [(0x08007FFF, 1)]) := by decide +kernel

/-- V-PRG-11. -/
theorem test_memWrite :
    ends (exec (.memWrite 0x08008000 [0x00, 0x00, 0x02, 0x20, 0xC1, 0x81, 0x00, 0x08]) State.reset) (fun t =>
      t.regs.txPayload == [0x00] && t.env.trace ==
        [.flashUnlock, .flashProgramWord 0x08008000 0x20020000 .ok,
          .flashProgramWord 0x08008004 0x080081C1 .ok, .flashLock,
          .memRead 0x08008000 8 [0x00, 0x00, 0x02, 0x20, 0xC1, 0x81, 0x00, 0x08]]) := by decide +kernel

/-- V-PRG-12: a fault in the middle. -/
theorem test_memWrite_fault :
    ends (exec (.memWrite 0x08008000 [1, 2, 3, 4, 5, 6, 7, 8, 9, 10, 11, 12])
        (driven [.asReference, .fails .timeout])) (fun t =>
      t.regs.txPayload == [0x33] && t.regs.seqIdx == 1 && t.env.trace ==
        [.flashUnlock, .flashProgramWord 0x08008000 0x04030201 .ok,
          .flashProgramWord 0x08008004 0x08070605 .timeout, .flashLock]) := by decide +kernel

/-- V-RD-1: two of the four bytes are read-protected. -/
theorem test_memRead_protected :
    ends (exec (.memRead 0x08008000 4)
        (statusOf { DriverStatus.initial with rprotRanges := [(0x08008002, 0xFFFFFFFF)] })) (fun t =>
      t.regs.txPayload == [0x24]) := by decide +kernel

/-- V-RD-7: lowest address first. -/
theorem test_memRead :
    ends (exec (.memRead 0x08008004 4) (holding
        (Memory.cellsAt 0x08008000 [0x00, 0x00, 0x02, 0x20, 0xC1, 0x81, 0x00, 0x08]))) (fun t =>
      t.regs.txPayload == [0x00, 0xC1, 0x81, 0x00, 0x08]) := by decide +kernel

/-- V-OTP-1. -/
theorem test_otpRead :
    ends (exec (.otpRead 0x1FFF7800 4) State.reset) (fun t =>
      t.regs.txPayload == [0x00, 0xFF, 0xFF, 0xFF, 0xFF]) := by decide +kernel

/-- V-OTP-2. -/
theorem test_otpRead_past_end :
    ends (exec (.otpRead 0x1FFF7A0E 4) State.reset) (fun t =>
      t.regs.txPayload == [0x22] && t.env.trace == []) := by decide +kernel

/-- V-PRT-2. -/
theorem test_enableRwProtect :
    ends (exec (.enableRwProtect 0x0008 1) State.reset) (fun t =>
      t.regs.txPayload == [0x00] && t.env.driver.wprot == [3] && t.env.driver.sectorProt == 0x0008
        && t.env.trace == [.flashEnableProtection 0x0008 1 .ok]) := by decide +kernel

/-- V-PRT-3: mode 3. -/
theorem test_enableRwProtect_mode :
    ends (exec (.enableRwProtect 0x0003 3) State.reset) (fun t =>
      t.regs.txPayload == [0x22] && t.env.trace == []) := by decide +kernel

/-- V-PRT-4. -/
theorem test_disableRwProtect :
    ends (exec .disableRwProtect (statusOf { DriverStatus.initial with wprot := [3], sectorProt := 8 }))
      (fun t => t.regs.txPayload == [0x00] && t.env.driver.wprot == []
        && t.env.trace == [.flashDisableProtection .ok]) := by decide +kernel

/-- V-INT-1's response frame, and R181. -/
theorem test_ack :
    ends (exec (.ack 0x00 [0x10]) (State.reset.loadCommand 1 [0x51])) (fun t =>
      t.env.trace == [.tx [0x03, 0xA5, 0x00, 0x10, 0x9E, 0x79, 0x9B, 0x3A]] && t.regs.lastCmd == 0x51
        && t.regs.pstate == .awaitingFrame) := by decide +kernel

/-- V-HO-5: the hand-off. -/
theorem test_ack_handOff :
    ends (exec (.ack 0x00 []) { State.reset with regs := { Regs.reset cfgRef with
        cmd := some .goToAddress, argAddr := 0x08008000, hoSp := 0x20000000, hoEntry := 0x080081C1 } }) (fun t =>
      t.regs.pstate == .handedOff && t.env.trace ==
        [.tx [0x02, 0xA5, 0x00, 0xC5, 0x2A, 0xC7, 0x81], .cpuDisableInterrupts,
          .cpuRelocateVectorTable 0x08008000, .cpuSetStackPointer 0x20000000, .cpuJump 0x080081C1]) := by
  decide +kernel

/-- V-FRM-4's response frame: `LAST_CMD` is kept when the frame was not valid. -/
theorem test_nack :
    ends (exec (.nack 0x12) { State.reset with regs := { Regs.reset cfgRef with
        ferr := .checksumMismatch, rxBody := [0x51], lastCmd := 0x5A } }) (fun t =>
      t.env.trace == [.tx [0x02, 0x7F, 0x12, 0x41, 0x38, 0x75, 0x3D]] && t.regs.lastCmd == 0x5A
        && t.regs.lastStatus == 0x12) := by decide +kernel

/-! For each obligation with hypotheses, states and operands that meet all of them together; a suffix names
the clause, and the values stand at the clause's bounds. -/

/-- A test that holds gives the next state it speaks of. -/
theorem ends_next {o : Out} {p : State → Bool} (h : ends o p = true) : ∃ t, o = .next t ∧ p t = true := by
  cases o with
  | next t => exact ⟨t, rfl, h⟩
  | fault f => cases h
  | refused r => cases h

/-- A byte string on the way to the device. -/
def onTheWire (bytes : List Byte) : State := hears (bytes.map RxItem.byte)

/-- A frame `len ‖ body` received. -/
def received (len : Byte) (body : List Byte) : State := State.reset.loadCommand len body

/-- The registers in `Executing` at a position of a flash sequence; the flash is locked unless open. -/
def atPosition (s : State) (q : SeqState) (isOpen : Bool) (idx : Nat) (sectors : List Nat) : State :=
  { s with
    regs := { s.regs with
      pstate := .executing, seqState := q, flashOpen := isOpen, seqIdx := idx, seqList := sectors }
    env := { s.env with locked := !isOpen } }

/-- A FLASH_ERASE of the sectors 2 and 3 at a position. -/
def erasing (q : SeqState) (isOpen : Bool) (idx : Nat) : State :=
  atPosition (received 3 [0x56, 0x02, 0x02]) q isOpen idx [2, 3]

/-- A MEM_WRITE of two words at a position. -/
def programming (q : SeqState) (isOpen : Bool) (idx : Nat) : State :=
  atPosition (received 14 [0x57, 0x00, 0x80, 0x00, 0x08, 0x08, 1, 2, 3, 4, 5, 6, 7, 8]) q isOpen idx []

/-- The target words of V-HO-5 with the bytes of a stack-pointer word. -/
def target (sp : List Byte) : State :=
  holding (Memory.write 0xFF [] 0x08008000 (sp ++ [0xC1, 0x81, 0x00, 0x08]))

/-- The word at an address, as the obligations of GO_TO_ADDRESS write it. -/
def wordAt (s : State) (a : Nat) : Word :=
  le32 (s.readByte a) (s.readByte (a + 1)) (s.readByte (a + 2)) (s.readByte (a + 3))

theorem witness_CrcWordFeedIsFourBytes :
    let c := { cfgRef with crcFeed := .bits32 }
    c.crcFeed = .bits32 ∧ c.crcRefIn = false := by decide

theorem witness_CrcSeesEverySingleBit : cfgRef.WellFormed ∧ (0 < 8 ∧ 7 < 8) := by decide +kernel

theorem witness_DecodeOfEncode_command :
    let i : Instr := .memWrite 0x08008000 (List.replicate 249 0x5A)
    cfgRef.WellFormed ∧ i.WellFormed cfgRef ∧ i.isCommand = true := by decide +kernel

theorem witness_DecodeOfEncode_response :
    let i : Instr := .ack 0x00 (List.replicate 253 0x5A)
    cfgRef.WellFormed ∧ i.WellFormed cfgRef ∧ i.isCommand = false := by decide +kernel

theorem witness_EncodeOfDecode :
    decodeFrame cfgRef [0x01, 0x51, 0x11, 0x13, 0xF8, 0xAE, 0x07] = .ok (.getVersion, [0x07]) := by
  decide +kernel

theorem witness_CrcBytesOnTheWire : crcBytes .lsbFirst 0xAEF81311 = [0x11, 0x13, 0xF8, 0xAE] := by decide

theorem witness_SilenceStartsANewCycle_no_byte :
    let s := hears []
    s.env.resetPending = false ∧ s.regs.pstate = .awaitingFrame ∧ s.regs.rxIdx = 0 ∧
      s.env.rx = ([] : List Byte).map RxItem.byte ++ [] := by decide

theorem witness_SilenceStartsANewCycle_one_byte_short :
    let sent : List Byte := [0x01, 0x51, 0x11, 0x13, 0xF8]
    let s := hears (sent.map RxItem.byte ++ [.gap, .byte 0xAE])
    s.env.resetPending = false ∧ s.regs.pstate = .awaitingFrame ∧ s.regs.rxIdx = 0 ∧
      s.env.rx = sent.map RxItem.byte ++ (.gap :: [.byte 0xAE]) ∧
      sent.getD 0 0 ≠ 0 ∧ sent.length < 5 + (sent.getD 0 0).toNat := by decide

theorem witness_ZeroLengthIsMalformed :
    let s := onTheWire [0x00, 0x51]
    s.cfg.WellFormed ∧ s.env.resetPending = false ∧ s.regs.pstate = .awaitingFrame ∧ s.regs.rxIdx = 0 ∧
      s.regs.flashOpen = false ∧ s.env.rx = .byte 0 :: [.byte 0x51] := by decide +kernel

theorem witness_WholeFrameIsReceived :
    let s := onTheWire [0x01, 0x51, 0x11, 0x13, 0xF8, 0xAE]
    s.env.resetPending = false ∧ s.regs.pstate = .awaitingFrame ∧ s.regs.rxIdx = 0 ∧ (1 : Byte) ≠ 0 ∧
      [(0x51 : Byte)].length = (1 : Byte).toNat ∧
      s.env.rx = ([0x01, 0x51] ++ [0x11, 0x13, 0xF8, 0xAE]).map RxItem.byte ++ [] ∧
      crcOfBytes s.cfg.crcWireOrder 0x11 0x13 0xF8 0xAE = crc s.cfg [0x01, 0x51] := by decide +kernel

theorem witness_WrongCrcIsRefused :
    let s := onTheWire [0x01, 0x51, 0x11, 0x13, 0xF8, 0xAF]
    s.cfg.WellFormed ∧ s.env.resetPending = false ∧ s.regs.pstate = .awaitingFrame ∧ s.regs.rxIdx = 0 ∧
      s.regs.flashOpen = false ∧ (1 : Byte) ≠ 0 ∧ [(0x51 : Byte)].length = (1 : Byte).toNat ∧
      s.env.rx = ([0x01, 0x51] ++ [0x11, 0x13, 0xF8, 0xAF]).map RxItem.byte ++ [] ∧
      crcOfBytes s.cfg.crcWireOrder 0x11 0x13 0xF8 0xAF ≠ crc s.cfg [0x01, 0x51] := by decide +kernel

theorem witness_WrittenFrameReadsBack :
    let p : List Byte := List.replicate 254 0x5A
    let bytes := frame cfgRef 0xA5 p
    p.length ≤ 254 ∧ (State.reset.writeFrame 0xA5 p).env.trace = State.reset.env.trace ++ [.tx bytes] ∧
      (onTheWire bytes).cfg = State.reset.cfg ∧ (onTheWire bytes).env.resetPending = false ∧
      (onTheWire bytes).regs.pstate = .awaitingFrame ∧ (onTheWire bytes).regs.rxIdx = 0 ∧
      (onTheWire bytes).env.rx = bytes.map RxItem.byte ++ [] :=
  ⟨by decide +kernel, rfl, rfl, rfl, rfl, rfl, (List.append_nil _).symm⟩

theorem witness_FlippedBitIsChecksumMismatch_code :
    let s := onTheWire [0x01, 0xD1, 0x11, 0x13, 0xF8, 0xAE]
    s.cfg.WellFormed ∧ s.env.resetPending = false ∧ s.regs.pstate = .awaitingFrame ∧ s.regs.rxIdx = 0 ∧
      s.regs.flashOpen = false ∧ ([] : List Byte).length ≤ 254 ∧ 1 ≤ 1 ∧ 1 < (frame s.cfg 0x51 []).length ∧
      7 < 8 ∧ s.env.rx = ((frame s.cfg 0x51 []).set 1
        ((frame s.cfg 0x51 []).getD 1 0 ^^^ (1#8 <<< 7))).map RxItem.byte ++ [] := by decide +kernel

theorem witness_FlippedBitIsChecksumMismatch_crc :
    let s := onTheWire [0x01, 0x51, 0x11, 0x13, 0xF8, 0xAF]
    s.cfg.WellFormed ∧ s.env.resetPending = false ∧ s.regs.pstate = .awaitingFrame ∧ s.regs.rxIdx = 0 ∧
      s.regs.flashOpen = false ∧ ([] : List Byte).length ≤ 254 ∧ 1 ≤ 5 ∧ 5 < (frame s.cfg 0x51 []).length ∧
      0 < 8 ∧ s.env.rx = ((frame s.cfg 0x51 []).set 5
        ((frame s.cfg 0x51 []).getD 5 0 ^^^ (1#8 <<< 0))).map RxItem.byte ++ [] := by decide +kernel

theorem witness_StepRunsTheDecodedCommand :
    let s := received 3 [0x56, 0x02, 0x01]
    s.env.resetPending = false ∧ s.regs.pstate = .validating ∧
      decodeBody s.cfg s.regs.rxLen s.regs.rxBody = .ok (.flashErase 2 1) ∧
      Instr.WellFormed s.cfg (.flashErase 2 1) := by decide +kernel

theorem witness_StepRunsTheResponse :
    let s := State.reset.loadResponse 3 [0xA5, 0x00, 0x10]
    s.env.resetPending = false ∧ s.regs.pstate = .responding ∧
      decodeResponseBody s.cfg s.regs.txCode s.regs.txPayload = .ok (.ack 0x00 [0x10]) ∧
      Instr.WellFormed s.cfg (.ack 0x00 [0x10]) := by decide +kernel

/-- The reset registers in `Responding`, with a status: the `TX_` registers hold no response. -/
def unanswered (status : Byte) : State :=
  { State.reset with regs := { Regs.reset cfgRef with pstate := .responding, status := status } }

theorem witness_StepRunsTheResponse_status :
    (let s := unanswered 0x00;
      s.env.resetPending = false ∧ s.regs.pstate = .responding ∧
      decodeResponseBody s.cfg s.regs.txCode s.regs.txPayload = .error .sizeMismatch ∧
        s.regs.status = s.cfg.stOk) ∧
    (let s := unanswered 0x31;
      s.env.resetPending = false ∧ s.regs.pstate = .responding ∧
      decodeResponseBody s.cfg s.regs.txCode s.regs.txPayload = .error .sizeMismatch ∧
        s.regs.status ≠ s.cfg.stOk) := by decide +kernel

/-- R178, V-FRM-4's response: the failure frame is built from `STATUS` where the `TX_` registers hold none. -/
theorem test_step_responds_from_status :
    ends (step (unanswered 0x12)) (fun t => t.regs.pstate == .awaitingFrame && t.regs.lastStatus == 0x12
      && t.env.trace == [.tx [0x02, 0x7F, 0x12, 0x41, 0x38, 0x75, 0x3D]]) := by decide +kernel

theorem witness_StepTakesUpAnExecution :
    let s := (received 3 [0x56, 0x02, 0x01]).setPstate .executing
    s.env.resetPending = false ∧ s.regs.pstate = .executing ∧ s.regs.seqState = .idle ∧
      decodeBody s.cfg s.regs.rxLen s.regs.rxBody = .ok (.flashErase 2 1) := by decide +kernel

/-- `read_frame` at a position: `len` and what follows of the frame are still on the way. -/
def midFrame (len : Byte) (body : List Byte) (idx : Nat) (rx : List Byte) : State :=
  { onTheWire rx with regs := { Regs.reset cfgRef with rxLen := len, rxBody := body, rxIdx := idx } }

theorem witness_StepContinuesFromItsPosition_frame :
    (let s := onTheWire [0x01, 0x51];
      s.env.resetPending = false ∧ s.regs.pstate = .awaitingFrame ∧ s.regs.rxIdx = 0 ∧
        s.env.rx = .byte 0x01 :: [.byte 0x51]) ∧
    (let s := midFrame 0x01 [] 1 [0x51, 0x11];
      s.env.resetPending = false ∧ s.regs.pstate = .awaitingFrame ∧ s.regs.rxIdx = 1 ∧ s.regs.ferr = .none ∧
        s.regs.rxLen ≠ 0 ∧ [(0x51 : Byte)].length = s.regs.rxLen.toNat ∧
        s.env.rx = [(0x51 : Byte)].map RxItem.byte ++ [.byte 0x11]) ∧
    (let s := midFrame 0xFF (List.replicate 255 0) 256 [0x11, 0x13, 0xF8, 0xAE];
      s.env.resetPending = false ∧ s.regs.pstate = .awaitingFrame ∧
        s.regs.rxIdx = 1 + s.regs.rxLen.toNat ∧ s.regs.ferr = .none ∧ s.regs.rxLen ≠ 0 ∧
        s.env.rx = [(0x11 : Byte), 0x13, 0xF8, 0xAE].map RxItem.byte ++ []) := by decide

theorem witness_StepContinuesFromItsPosition_validating :
    let s := received 3 [0x56, 0x02, 0x02]
    s.env.resetPending = false ∧ s.regs.pstate = .validating ∧ s.regs.seqState = .idle ∧
      decodeBody s.cfg s.regs.rxLen s.regs.rxBody = .ok (.flashErase 2 2) ∧ EraseAllowed s.cfg 2 2 := by
  refine ⟨rfl, rfl, rfl, by decide +kernel, ?_⟩
  unfold EraseAllowed
  decide +kernel

/-- Both commands at any position, with as many units as they have; the positions of the clauses follow from the
arguments. -/
theorem witness_StepContinuesFromItsPosition_executing (q : SeqState) (isOpen : Bool) (idx : Nat) :
    (let s := erasing q isOpen idx;
      s.env.resetPending = false ∧ s.regs.pstate = .executing ∧
        (s.regs.seqState = q ∧ s.regs.flashOpen = isOpen ∧ s.regs.seqIdx = idx ∧ 2 = s.regs.seqList.length) ∧
        decodeBody s.cfg s.regs.rxLen s.regs.rxBody = .ok (.flashErase 2 2)) ∧
    (let s := programming q isOpen idx;
      s.env.resetPending = false ∧ s.regs.pstate = .executing ∧
        (s.regs.seqState = q ∧ s.regs.flashOpen = isOpen ∧ s.regs.seqIdx = idx ∧ 2 = 8 / s.cfg.wordBytes) ∧
        decodeBody s.cfg s.regs.rxLen s.regs.rxBody = .ok (.memWrite 0x08008000 [1, 2, 3, 4, 5, 6, 7, 8])) := by
  refine ⟨⟨rfl, rfl, ⟨rfl, rfl, rfl, rfl⟩, ?_⟩, rfl, rfl, ⟨rfl, rfl, rfl, ?_⟩, ?_⟩
  · change decodeBody cfgRef 3 [0x56, 0x02, 0x02] = .ok (.flashErase 2 2)
    decide +kernel
  · change 2 = 8 / cfgRef.wordBytes
    decide
  · change decodeBody cfgRef 14 [0x57, 0x00, 0x80, 0x00, 0x08, 0x08, 1, 2, 3, 4, 5, 6, 7, 8]
      = .ok (.memWrite 0x08008000 [1, 2, 3, 4, 5, 6, 7, 8])
    decide +kernel

theorem witness_StepContinuesFromItsPosition_units :
    (let s := erasing .units true 1;
      s.regs.seqList[s.regs.seqIdx]? = some 3 ∧ ∃ u, s.portFlashEraseSector 3 = (.ok, u)) ∧
    (let s := programming .units true 1;
      s.regs.seqIdx < 2 ∧ ∃ u, s.portFlashProgramWord ((0x08008000 : Word).toNat + s.regs.seqIdx * s.cfg.wordBytes)
        (leValue ((([1, 2, 3, 4, 5, 6, 7, 8] : List Byte).drop (s.regs.seqIdx * s.cfg.wordBytes)).take
          s.cfg.wordBytes)) = (.ok, u)) :=
  ⟨⟨by decide, _, Prod.ext (by decide +kernel) rfl⟩, by decide, _, Prod.ext (by decide +kernel) rfl⟩

/-- R33: `Units` goes on with the unit `SEQ_IDX` names, and what follows comes after it. -/
theorem test_step_goes_on_with_the_next_unit :
    ends (step (erasing .units true 1)) (fun t => t.regs.txPayload == [0x00] && t.regs.seqIdx == 2
      && t.env.trace == [.flashEraseSector 3 .ok, .flashLock, .verifyErased 0x08008000 0x4000 true,
        .verifyErased 0x0800C000 0x4000 true]) ∧
    ends (step (programming .units true 1)) (fun t => t.env.mem == Memory.cellsAt 0x08008004 [5, 6, 7, 8]
      && t.env.trace.take 2 == [.flashProgramWord 0x08008004 0x08070605 .ok, .flashLock]) := by decide +kernel

/-- R24: a body read goes on after the length byte; `RX_IDX = 3` is inside the body of four bytes, where no
`Rx` begins. -/
theorem test_step_goes_on_after_the_length :
    ends (step (midFrame 0x01 [] 1 [0x51, 0x11, 0x13, 0xF8, 0xAE])) (fun t =>
      t.regs.pstate == .validating && t.regs.rxIdx == 6
        && t.env.trace == [.rx 1 (some [0x51]), .rx 4 (some [0x11, 0x13, 0xF8, 0xAE])]) ∧
    step (midFrame 0x04 [] 3 []) = .fault .noPosition := by
  refine ⟨by decide +kernel, rfl⟩

theorem witness_SentCommandIsReceivedAndRun :
    let i : Instr := .otpRead 0x1FFF7800 4
    let s := onTheWire [0x06, 0x5B, 0x00, 0x78, 0xFF, 0x1F, 0x04, 0xCD, 0xAB, 0x30, 0x88]
    s.cfg.WellFormed ∧ i.WellFormed s.cfg ∧ i.isCommand = true ∧ s.env.resetPending = false ∧
      s.regs.pstate = .awaitingFrame ∧ s.regs.rxIdx = 0 ∧ s.env.rx = (encode s.cfg i).map RxItem.byte ++ [] := by decide +kernel

theorem witness_UnknownCodeIsUnsupported :
    let s := received 1 [0x5D]
    s.cfg.WellFormed ∧ s.env.resetPending = false ∧ s.regs.pstate = .validating ∧
      s.regs.flashOpen = false ∧ ∀ n : CmdName, s.cfg.code n ≠ s.regs.rxBody.getD 0 0 := by
  refine ⟨by decide +kernel, rfl, rfl, rfl, ?_⟩
  intro n
  cases n <;> decide

theorem witness_MisfitLengthIsMalformed_fixed :
    let s := received 4 [0x55, 0x00, 0x80, 0x00]
    s.cfg.WellFormed ∧ s.env.resetPending = false ∧ s.regs.pstate = .validating ∧
      s.regs.flashOpen = false ∧ s.cfg.code .goToAddress = s.regs.rxBody.getD 0 0 ∧
      (∀ l, fixedLength .goToAddress = some l → s.regs.rxLen.toNat ≠ l) ∧
      CmdName.goToAddress ≠ .memWrite := by
  refine ⟨by decide +kernel, rfl, rfl, rfl, rfl, ?_, by decide⟩
  intro l h
  cases h
  decide

theorem witness_MisfitLengthIsMalformed_memWrite_short :
    let s := received 5 [0x57, 0x00, 0x80, 0x00, 0x08]
    s.cfg.WellFormed ∧ s.env.resetPending = false ∧ s.regs.pstate = .validating ∧
      s.regs.flashOpen = false ∧ s.cfg.code .memWrite = s.regs.rxBody.getD 0 0 ∧
      (∀ l, fixedLength .memWrite = some l → s.regs.rxLen.toNat ≠ l) ∧
      ¬ (6 ≤ s.regs.rxLen.toNat ∧ s.regs.rxLen.toNat = 6 + (s.regs.rxBody.getD 5 0).toNat) := by
  refine ⟨by decide +kernel, rfl, rfl, rfl, rfl, ?_, by decide⟩
  intro l h
  cases h

theorem witness_MisfitLengthIsMalformed_memWrite_count :
    let s := received 7 [0x57, 0x00, 0x80, 0x00, 0x08, 0x02, 0x01]
    s.cfg.WellFormed ∧ s.env.resetPending = false ∧ s.regs.pstate = .validating ∧
      s.regs.flashOpen = false ∧ s.cfg.code .memWrite = s.regs.rxBody.getD 0 0 ∧
      (∀ l, fixedLength .memWrite = some l → s.regs.rxLen.toNat ≠ l) ∧
      ¬ (6 ≤ s.regs.rxLen.toNat ∧ s.regs.rxLen.toNat = 6 + (s.regs.rxBody.getD 5 0).toNat) := by
  refine ⟨by decide +kernel, rfl, rfl, rfl, rfl, ?_, by decide⟩
  intro l h
  cases h

theorem witness_HandedOffIsTerminal :
    let s := State.reset.setPstate .handedOff
    s.env.resetPending = false ∧ s.regs.pstate = .handedOff := by decide

theorem witness_ResetRestoresTheTable :
    let s : State := { State.reset with env := { Env.initial with resetPending := true, locked := false } }
    s.env.resetPending = true := by decide

theorem witness_RaiseTakesTheError_lock_owed :
    let s := State.reset.openFlash
    s.cfg.WellFormed ∧ s.regs.flashOpen = true ∧ s.cfg.status .hardwareFault = some 0x31 := by decide +kernel

theorem witness_RaiseTakesTheError_nothing_owed :
    State.reset.cfg.WellFormed ∧ State.reset.regs.flashOpen = false ∧ State.reset.cfg.status .timeout = none := by
  decide +kernel

theorem witness_NackIsSentAndTheCycleEnds :
    (0x11 : Byte) ∈ State.reset.cfg.errorCodes ∧ (0x33 : Byte) ∈ State.reset.cfg.errorCodes := by decide

theorem witness_AckIsSentAndTheCycleEnds :
    (List.replicate 253 (0xFF : Byte)).length ≤ 253 ∧ State.reset.regs.cmd ≠ some .goToAddress := by
  decide +kernel

theorem witness_AckOfGoToAddressHandsOver :
    let s : State := { State.reset with regs := { Regs.reset cfgRef with cmd := some .goToAddress } }
    (List.replicate 253 (0xFF : Byte)).length ≤ 253 ∧ s.regs.cmd = some .goToAddress := by decide +kernel

theorem witness_StatusCommandsAnswerThePort :
    ∃ bytes16 : Half → List Byte,
      bytes16 = fun v => if State.reset.cfg.fieldOrder = .little then [v.extractLsb' 0 8, v.extractLsb' 8 8]
        else [v.extractLsb' 8 8, v.extractLsb' 0 8] := ⟨_, rfl⟩

theorem witness_EraseChecksDecide_protected :
    let s := State.reset
    s.cfg.WellFormed ∧ s.regs.flashOpen = false ∧ s.cfg.massErase ≠ some 1 ∧
      (∃ k ∈ s.cfg.reserved, (1 : Byte).toNat ≤ k ∧ k < (1 : Byte).toNat + (255 : Byte).toNat) ∧
      (0x21 : Byte) = s.cfg.stAddressProtected := by decide +kernel

theorem witness_EraseChecksDecide_range :
    let s := State.reset
    s.cfg.WellFormed ∧ s.regs.flashOpen = false ∧ s.cfg.massErase ≠ some 11 ∧
      (¬ ∃ k ∈ s.cfg.reserved, (11 : Byte).toNat ≤ k ∧ k < (11 : Byte).toNat + (2 : Byte).toNat) ∧
      s.cfg.nsectors < (11 : Byte).toNat + (2 : Byte).toNat ∧ (0x22 : Byte) = s.cfg.stOutOfRange := by
  decide +kernel

theorem witness_EraseChecksDecide_no_sector :
    let s := State.reset
    s.cfg.WellFormed ∧ s.regs.flashOpen = false ∧ s.cfg.massErase ≠ some 0 ∧
      (¬ ∃ k ∈ s.cfg.reserved, (0 : Byte).toNat ≤ k ∧ k < (0 : Byte).toNat + (0 : Byte).toNat) ∧
      (0 : Byte) = 0 ∧ (0x22 : Byte) = s.cfg.stOutOfRange := by decide +kernel

/-- An erase of one sector is allowed at both ends of what is not reserved. -/
theorem eraseAllowed_ref : EraseAllowed cfgRef 2 1 ∧ EraseAllowed cfgRef 11 1 ∧ EraseAllowed cfgRef 2 10 ∧
    EraseAllowed cfgRef 0xFF 0 := by
  unfold EraseAllowed
  decide +kernel

theorem witness_EraseChecksDecide_pass :
    State.reset.cfg.WellFormed ∧ State.reset.regs.flashOpen = false ∧ EraseAllowed State.reset.cfg 2 10 :=
  ⟨test_cfgRef_wellFormed, rfl, eraseAllowed_ref.2.2.1⟩

theorem witness_EraseSucceeds :
    let s := holding [(0x08008000, 0)]
    EraseAllowed s.cfg 2 10 ∧ s.env.unitPlan = [] ∧
      ∀ k, Requested s.cfg 2 10 k → k ∉ s.env.driver.wprot :=
  ⟨eraseAllowed_ref.2.2.1, rfl, fun _ _ => List.not_mem_nil⟩

theorem witness_EraseSucceeds_mass :
    let s := holding [(0x08008000, 0)]
    EraseAllowed s.cfg 0xFF 0 ∧ s.env.unitPlan = [] ∧
      ∀ k, Requested s.cfg 0xFF 0 k → k ∉ s.env.driver.wprot :=
  ⟨eraseAllowed_ref.2.2.2, rfl, fun _ _ => List.not_mem_nil⟩

theorem witness_EraseStopsAtTheFault :
    let s := driven (List.replicate 9 .asReference ++ .fails .timeout :: [.asReference])
    s.cfg.WellFormed ∧ EraseAllowed s.cfg 2 10 ∧
      s.env.unitPlan = List.replicate 9 .asReference ++ .fails .timeout :: [.asReference] ∧
      (∀ k, Requested s.cfg 2 10 k → k ∉ s.env.driver.wprot) ∧
      (eraseRequest s.cfg 2 10)[9]? = some 11 :=
  ⟨test_cfgRef_wellFormed, eraseAllowed_ref.2.2.1, rfl, fun _ _ => List.not_mem_nil, by decide +kernel⟩

theorem witness_EraseVerifyFails :
    let s := driven (List.replicate 9 .asReference ++ [.okLeaving [(0x080FFFFF, 0x7F)]])
    s.cfg.WellFormed ∧ EraseAllowed s.cfg 2 10 ∧ s.NoFailure (eraseRequest s.cfg 2 10).length ∧
      (∀ k, Requested s.cfg 2 10 k → k ∉ s.env.driver.wprot) ∧
      (eraseRequest s.cfg 2 10)[9]? = some 11 ∧ inSector s.cfg 11 0x080FFFFF = true ∧
      s.unitLeaves 9 0x080FFFFF s.cfg.erasedByte ≠ s.cfg.erasedByte :=
  ⟨test_cfgRef_wellFormed, eraseAllowed_ref.2.2.1, fun e => by cases e <;> decide +kernel,
    fun _ _ => List.not_mem_nil, by decide +kernel, by decide +kernel, by decide +kernel⟩

theorem witness_EraseVerifyFails_mass :
    let s := driven [.okLeaving [(0x08008000, 0)]]
    s.cfg.WellFormed ∧ EraseAllowed s.cfg 0xFF 0 ∧ s.NoFailure (eraseRequest s.cfg 0xFF 0).length ∧
      (∀ k, Requested s.cfg 0xFF 0 k → k ∉ s.env.driver.wprot) ∧
      (eraseRequest s.cfg 0xFF 0)[0]? = some 2 ∧ inSector s.cfg 2 0x08008000 = true ∧
      s.unitLeaves 0 0x08008000 s.cfg.erasedByte ≠ s.cfg.erasedByte :=
  ⟨test_cfgRef_wellFormed, eraseAllowed_ref.2.2.2, fun e => by cases e <;> decide +kernel,
    fun _ _ => List.not_mem_nil, by decide +kernel, by decide +kernel, by decide +kernel⟩

theorem witness_MassEraseSparesTheBootloader :
    State.reset.cfg.WellFormed ∧ State.reset.cfg.massErase = some 0xFF ∧
      reservedAddr State.reset.cfg 0x08007FFF = true := by decide +kernel

theorem witness_EraseIsIdempotent :
    let s := holding [(0x08008000, 0)]
    EraseAllowed s.cfg 11 1 ∧ s.env.unitPlan = [] ∧
      (∀ k, Requested s.cfg 11 1 k → k ∉ s.env.driver.wprot) ∧
      ∃ t, exec (.flashErase 11 1) s = .next t ∧ t.cfg = s.cfg :=
  ⟨eraseAllowed_ref.2.1, rfl, fun _ _ => List.not_mem_nil, by
    obtain ⟨t, h, h'⟩ := ends_next (o := exec (.flashErase 11 1) (holding [(0x08008000, 0)]))
      (p := fun t => t.cfg == cfgRef) (by decide +kernel)
    exact ⟨t, h, eq_of_beq h'⟩⟩

theorem witness_EraseFrame :
    ∃ t, exec (.flashErase 2 1) State.reset = .next t ∧
      ∀ k ∈ eraseRequest State.reset.cfg 2 1, inSector State.reset.cfg k 0x0800C000 = false := by
  obtain ⟨t, h, -⟩ := ends_next (o := exec (.flashErase 2 1) State.reset) (p := fun _ => true)
    (by decide +kernel)
  exact ⟨t, h, by decide +kernel⟩

theorem witness_ProgramChecksDecide_alignment :
    let s := State.reset
    s.cfg.WellFormed ∧ s.regs.flashOpen = false ∧
      ((0x08007FFD : Word).toNat % s.cfg.wordBytes ≠ 0 ∨ [(1 : Byte)].length % s.cfg.wordBytes ≠ 0) ∧
      (0x23 : Byte) = s.cfg.stAlignmentError := by decide +kernel

theorem witness_ProgramChecksDecide_protected :
    let s := State.reset
    let d : List Byte := List.replicate 8 0x11
    s.cfg.WellFormed ∧ s.regs.flashOpen = false ∧
      ¬ ((0x08007FFC : Word).toNat % s.cfg.wordBytes ≠ 0 ∨ d.length % s.cfg.wordBytes ≠ 0) ∧
      (∃ i < d.length, reservedAddr s.cfg ((0x08007FFC : Word).toNat + i) = true) ∧
      (0x21 : Byte) = s.cfg.stAddressProtected := by decide +kernel

theorem witness_ProgramChecksDecide_range :
    let s := State.reset
    let d : List Byte := List.replicate 8 0x11
    s.cfg.WellFormed ∧ s.regs.flashOpen = false ∧
      ¬ ((0x080FFFFC : Word).toNat % s.cfg.wordBytes ≠ 0 ∨ d.length % s.cfg.wordBytes ≠ 0) ∧
      (¬ ∃ i < d.length, reservedAddr s.cfg ((0x080FFFFC : Word).toNat + i) = true) ∧
      ¬ (1 ≤ d.length ∧ s.cfg.flashBase ≤ (0x080FFFFC : Word).toNat ∧
        (0x080FFFFC : Word).toNat + d.length ≤ s.cfg.flashEnd) ∧
      (0x22 : Byte) = s.cfg.stOutOfRange := by decide +kernel

/-- A word is allowed at both ends of what is not reserved. -/
theorem programAllowed_ref : ProgramAllowed cfgRef 0x08008000 4 ∧ ProgramAllowed cfgRef 0x080FFFFC 4 ∧
    ProgramAllowed cfgRef 0x08008000 12 := by
  unfold ProgramAllowed
  decide +kernel

theorem witness_ProgramChecksDecide_pass :
    State.reset.cfg.WellFormed ∧ State.reset.regs.flashOpen = false ∧
      ProgramAllowed State.reset.cfg (0x080FFFFC : Word).toNat [(1 : Byte), 2, 3, 4].length :=
  ⟨test_cfgRef_wellFormed, rfl, programAllowed_ref.2.1⟩

theorem witness_ProgramSucceeds :
    let s := State.reset
    s.cfg.WellFormed ∧ ProgramAllowed s.cfg (0x080FFFFC : Word).toNat [(1 : Byte), 2, 3, 4].length ∧
      s.env.unitPlan = [] ∧
      (∀ i < 4, s.readByte ((0x080FFFFC : Word).toNat + i) = s.cfg.erasedByte) ∧
      (∀ i < 4, s.writeProtected ((0x080FFFFC : Word).toNat + i) = false) :=
  ⟨test_cfgRef_wellFormed, programAllowed_ref.2.1, rfl, by decide +kernel, by decide +kernel⟩

theorem witness_ProgramStopsAtTheFault :
    let s := driven (List.replicate 2 .asReference ++ .fails .hardwareFault :: [])
    s.cfg.WellFormed ∧ ProgramAllowed s.cfg (0x08008000 : Word).toNat (List.replicate 12 (1 : Byte)).length ∧
      s.env.unitPlan = List.replicate 2 .asReference ++ .fails .hardwareFault :: [] ∧
      (∀ i < 12, s.readByte ((0x08008000 : Word).toNat + i) = s.cfg.erasedByte) ∧
      (∀ i < 12, s.writeProtected ((0x08008000 : Word).toNat + i) = false) ∧
      2 < (List.replicate 12 (1 : Byte)).length / s.cfg.wordBytes :=
  ⟨test_cfgRef_wellFormed, programAllowed_ref.2.2, rfl, by decide +kernel, by decide +kernel, by decide⟩

theorem witness_ProgramOverUnerasedIsJudgedByReadBack :
    let s := holding [(0x08008003, 0)]
    s.cfg.WellFormed ∧ ProgramAllowed s.cfg (0x08008000 : Word).toNat (List.replicate 12 (1 : Byte)).length ∧
      s.NoFailure ((List.replicate 12 (1 : Byte)).length / s.cfg.wordBytes) ∧
      (∀ i < 12, s.writeProtected ((0x08008000 : Word).toNat + i) = false) ∧
      s.readByte ((0x08008000 : Word).toNat + 0 * s.cfg.wordBytes + 3) ≠ s.cfg.erasedByte ∧
      (2 < 12 / s.cfg.wordBytes ∧ 3 < s.cfg.wordBytes ∧
        ∀ l < s.cfg.wordBytes, s.readByte ((0x08008000 : Word).toNat + 2 * s.cfg.wordBytes + l)
          = s.cfg.erasedByte) :=
  ⟨test_cfgRef_wellFormed, programAllowed_ref.2.2, fun e => by cases e <;> decide +kernel, by decide +kernel,
    by decide +kernel, by decide +kernel⟩

theorem witness_ProgramOverUnerasedIsJudgedByReadBack_other_content :
    let s := driven [.asReference, .okLeaving [(0x08008007, 0)]]
    s.cfg.WellFormed ∧ ProgramAllowed s.cfg (0x08008000 : Word).toNat (List.replicate 12 (1 : Byte)).length ∧
      s.NoFailure ((List.replicate 12 (1 : Byte)).length / s.cfg.wordBytes) ∧
      (∀ i < 12, s.writeProtected ((0x08008000 : Word).toNat + i) = false) ∧
      (∃ cells, s.env.unitPlan[1]? = some (.okLeaving cells)) ∧
      s.unitLeaves 1 ((0x08008000 : Word).toNat + 1 * s.cfg.wordBytes + 3) 1 = 0 :=
  ⟨test_cfgRef_wellFormed, programAllowed_ref.2.2, fun e => by cases e <;> decide +kernel, by decide +kernel,
    ⟨_, rfl⟩, by decide +kernel⟩

/-- Both answers of the read-back are met: the driver's `Ok` can leave any content (log 12). -/
theorem test_program_read_back_fails :
    ends (exec (.memWrite 0x08008000 [1, 2, 3, 4, 5, 6, 7, 8]) (driven [.asReference, .okLeaving [(0x08008007, 0)]]))
      (fun t => t.regs.txPayload == [0x32]) ∧
    ends (exec (.memWrite 0x08008000 [1, 2, 3, 4, 5, 6, 7, 8]) (driven [.asReference, .okLeaving []]))
      (fun t => t.regs.txPayload == [0x00]) := by decide +kernel

theorem witness_ProgramFrame :
    State.reset.cfg.WellFormed ∧ ∃ t, exec (.memWrite 0x08008000 [1, 2, 3, 4]) State.reset = .next t := by
  obtain ⟨t, h, -⟩ := ends_next (o := exec (.memWrite 0x08008000 [1, 2, 3, 4]) State.reset)
    (p := fun _ => true) (by decide +kernel)
  exact ⟨test_cfgRef_wellFormed, t, h⟩

theorem witness_ReadChecksRefuse_count :
    let s := State.reset
    s.cfg.WellFormed ∧ s.regs.flashOpen = false ∧
      ((0 : Byte).toNat = 0 ∧ 253 < (254 : Byte).toNat) ∧ (0x22 : Byte) = s.cfg.stOutOfRange := by
  decide +kernel

theorem witness_ReadChecksRefuse_memRead_range :
    let s := State.reset
    s.cfg.WellFormed ∧ s.regs.flashOpen = false ∧
      ¬ (s.cfg.flashBase ≤ (0x080FFFFF : Word).toNat ∧
        (0x080FFFFF : Word).toNat + (2 : Byte).toNat ≤ s.cfg.flashEnd) ∧
      (0x22 : Byte) = s.cfg.stOutOfRange := by decide +kernel

theorem witness_ReadChecksRefuse_otpRead_range :
    let s := State.reset
    s.cfg.WellFormed ∧ s.regs.flashOpen = false ∧
      ¬ (s.cfg.otpBase ≤ (0x1FFF77FF : Word).toNat ∧
        (0x1FFF77FF : Word).toNat + (1 : Byte).toNat ≤ s.cfg.otpEnd) ∧
      (0x22 : Byte) = s.cfg.stOutOfRange := by decide +kernel

theorem witness_ReadChecksRefuse_protected :
    let s := statusOf { DriverStatus.initial with rprotRanges := [(0x080FFFFF, 0x08100000), (0x1FFF7A0F, 0x1FFF7A10)] }
    s.cfg.WellFormed ∧ s.regs.flashOpen = false ∧
      (¬ ((2 : Byte).toNat = 0 ∨ 253 < (2 : Byte).toNat ∨ ¬ (s.cfg.flashBase ≤ (0x080FFFFE : Word).toNat ∧
        (0x080FFFFE : Word).toNat + (2 : Byte).toNat ≤ s.cfg.flashEnd)) ∧
      ∃ j < (2 : Byte).toNat, s.readProtected ((0x080FFFFE : Word).toNat + j) = true) ∧
      (¬ ((2 : Byte).toNat = 0 ∨ 253 < (2 : Byte).toNat ∨ ¬ (s.cfg.otpBase ≤ (0x1FFF7A0E : Word).toNat ∧
        (0x1FFF7A0E : Word).toNat + (2 : Byte).toNat ≤ s.cfg.otpEnd)) ∧
      ∃ j < (2 : Byte).toNat, s.readProtected ((0x1FFF7A0E : Word).toNat + j) = true) ∧
      (0x24 : Byte) = s.cfg.stReadProtected := by decide +kernel

theorem witness_ReadAnswersTheBytes_memRead :
    let s := State.reset
    1 ≤ (253 : Byte).toNat ∧ (253 : Byte).toNat ≤ 253 ∧ s.cfg.flashBase ≤ (0x080FFF03 : Word).toNat ∧
      (0x080FFF03 : Word).toNat + (253 : Byte).toNat ≤ s.cfg.flashEnd ∧
      ∀ j < (253 : Byte).toNat, s.readProtected ((0x080FFF03 : Word).toNat + j) = false := by decide +kernel

theorem witness_ReadAnswersTheBytes_otpRead :
    let s := State.reset
    1 ≤ (1 : Byte).toNat ∧ (1 : Byte).toNat ≤ 253 ∧ s.cfg.otpBase ≤ (0x1FFF7A0F : Word).toNat ∧
      (0x1FFF7A0F : Word).toNat + (1 : Byte).toNat ≤ s.cfg.otpEnd ∧
      ∀ j < (1 : Byte).toNat, s.readProtected ((0x1FFF7A0F : Word).toNat + j) = false := by decide +kernel

theorem witness_ProtectChecksRefuse :
    let s := State.reset
    s.cfg.WellFormed ∧ s.regs.flashOpen = false ∧
      ((0 : Half) = 0 ∧ (s.cfg.nsectors ≤ 12 ∧ (0x1000 : Half).getLsbD 12 = true) ∧
        ¬ ((0 : Byte) = 1 ∨ (0 : Byte) = 2) ∧ ¬ ((3 : Byte) = 1 ∨ (3 : Byte) = 2)) := by decide +kernel

/-- The highest sector alone is in range. -/
theorem maskInRange_ref (k : Nat) (h : State.reset.cfg.nsectors ≤ k) : (0x0800 : Half).getLsbD k = false := by
  by_cases hk : k < 16
  · have h' : 12 ≤ k := h
    interval_cases k <;> decide
  · exact BitVec.getLsbD_of_ge _ _ (by omega)

theorem witness_EnableProtectMapsTheAnswer :
    let s := State.reset
    s.cfg.WellFormed ∧ s.regs.flashOpen = false ∧ (0x0800 : Half) ≠ 0 ∧
      (∀ k, s.cfg.nsectors ≤ k → (0x0800 : Half).getLsbD k = false) ∧ ((2 : Byte) = 1 ∨ (2 : Byte) = 2) :=
  ⟨test_cfgRef_wellFormed, rfl, by decide, maskInRange_ref, by decide⟩

theorem witness_DisableProtectMapsTheAnswer :
    let s : State := { State.reset with env := { Env.initial with protPlan := [.fails .timeout] } }
    s.cfg.WellFormed ∧ s.regs.flashOpen = false := by decide +kernel

theorem witness_ProtectedSectorRefusesErase :
    let s := State.reset
    s.cfg.WellFormed ∧ s.regs.flashOpen = false ∧
      (∀ k, s.cfg.nsectors ≤ k → (0x0800 : Half).getLsbD k = false) ∧ ((1 : Byte) = 1 ∨ (1 : Byte) = 2) ∧
      s.env.protPlan = [] ∧ s.env.unitPlan = [] ∧ (0x0800 : Half).getLsbD (11 : Byte).toNat = true ∧
      (11 : Byte).toNat ∉ s.cfg.reserved ∧ s.cfg.massErase ≠ some 11 :=
  ⟨test_cfgRef_wellFormed, rfl, maskInRange_ref, by decide, rfl, rfl, by decide, by decide, by decide⟩

/-- A write whose last word is the sector's first, and one whose first byte is in it. -/
theorem witness_ProtectedSectorRefusesErase_write :
    let c := State.reset.cfg
    (ProgramAllowed c (0x080DFFF8 : Word).toNat (List.replicate 12 (0 : Byte)).length ∧
      ∃ i < 12, inSector c (11 : Byte).toNat ((0x080DFFF8 : Word).toNat + i) = true) ∧
    ProgramAllowed c (0x080FFFFC : Word).toNat (List.replicate 4 (0 : Byte)).length ∧
      inSector c (11 : Byte).toNat (0x080FFFFC : Word).toNat = true := by
  refine ⟨⟨?_, 8, by decide, by decide +kernel⟩, programAllowed_ref.2.1, by decide +kernel⟩
  unfold ProgramAllowed
  decide +kernel

theorem witness_JumpTargetIsRefused_region :
    let s := State.reset
    s.cfg.WellFormed ∧ s.regs.flashOpen = false ∧
      ¬ (s.cfg.appBase ≤ (0x08007FFF : Word).toNat ∧ (0x08007FFF : Word).toNat + 8 ≤ s.cfg.appEnd) ∧
      ¬ (s.cfg.appBase ≤ (0x080FFFF9 : Word).toNat ∧ (0x080FFFF9 : Word).toNat + 8 ≤ s.cfg.appEnd) := by
  decide +kernel

theorem witness_JumpTargetIsRefused_zero :
    let s := target [0x00, 0x00, 0x00, 0x00]
    s.cfg.WellFormed ∧ s.regs.flashOpen = false ∧ wordAt s (0x08008000 : Word).toNat = 0 ∧
      s.cfg.appBase ≤ (0x08008000 : Word).toNat ∧ (0x08008000 : Word).toNat + 8 ≤ s.cfg.appEnd := by
  decide +kernel

theorem witness_JumpTargetIsRefused_below_ram :
    let s := target [0xFF, 0xFF, 0xFF, 0x1F]
    s.cfg.WellFormed ∧ s.regs.flashOpen = false ∧ wordAt s (0x08008000 : Word).toNat = 0x1FFFFFFF ∧
      s.cfg.appBase ≤ (0x08008000 : Word).toNat ∧ (0x08008000 : Word).toNat + 8 ≤ s.cfg.appEnd ∧
      (0x1FFFFFFF : Word).toNat < s.cfg.ramBase := by decide +kernel

theorem witness_JumpTargetIsRefused_above_ram :
    let s := target [0x01, 0x00, 0x02, 0x20]
    s.cfg.WellFormed ∧ s.regs.flashOpen = false ∧ wordAt s (0x08008000 : Word).toNat = 0x20020001 ∧
      s.cfg.appBase ≤ (0x08008000 : Word).toNat ∧ (0x08008000 : Word).toNat + 8 ≤ s.cfg.appEnd ∧
      s.cfg.ramEnd < (0x20020001 : Word).toNat := by decide +kernel

theorem witness_JumpTargetIsAccepted_ram_base :
    let s := target [0x00, 0x00, 0x00, 0x20]
    s.cfg.WellFormed ∧ s.cfg.appBase ≤ (0x08008000 : Word).toNat ∧
      (0x08008000 : Word).toNat + 8 ≤ s.cfg.appEnd ∧ wordAt s (0x08008000 : Word).toNat = 0x20000000 ∧
      wordAt s ((0x08008000 : Word).toNat + 4) = 0x080081C1 ∧ (0x20000000 : Word) ≠ 0 ∧
      s.cfg.ramBase ≤ (0x20000000 : Word).toNat ∧ (0x20000000 : Word).toNat ≤ s.cfg.ramEnd := by
  decide +kernel

theorem witness_JumpTargetIsAccepted_ram_end :
    let s := target [0x00, 0x00, 0x02, 0x20]
    s.cfg.WellFormed ∧ wordAt s (0x08008000 : Word).toNat = 0x20020000 ∧ (0x20020000 : Word) ≠ 0 ∧
      s.cfg.ramBase ≤ (0x20020000 : Word).toNat ∧ (0x20020000 : Word).toNat ≤ s.cfg.ramEnd := by
  decide +kernel

theorem witness_HandOffSafety_zero :
    let s := target [0x00, 0x00, 0x00, 0x00]
    s.cfg.WellFormed ∧ s.regs.flashOpen = false ∧ s.env.resetPending = false ∧
      wordAt s (0x08008000 : Word).toNat ∈ [(0x00000000 : Word), 0xFFFFFFFF] := by decide +kernel

theorem witness_HandOffSafety_erased :
    let s := State.reset
    s.cfg.WellFormed ∧ s.regs.flashOpen = false ∧ s.env.resetPending = false ∧
      wordAt s (0x080FFFF8 : Word).toNat ∈ [(0x00000000 : Word), 0xFFFFFFFF] := by decide +kernel

theorem witness_NoStepWritesCfg : step State.reset = .next State.reset.readFrame.endFrame := rfl

theorem witness_TransitionsFollowTheTable_awaiting :
    let s := onTheWire [0x00]
    s.env.resetPending = false ∧ s.regs.pstate = .awaitingFrame ∧ ∃ t, step s = .next t :=
  ⟨rfl, rfl, _, rfl⟩

theorem witness_TransitionsFollowTheTable_validating :
    let s := received 1 [0x51]
    s.env.resetPending = false ∧ s.regs.pstate = .validating ∧ ∃ t, step s = .next t := by
  obtain ⟨t, h, -⟩ := ends_next (o := step (received 1 [0x51])) (p := fun _ => true) (by decide +kernel)
  exact ⟨rfl, rfl, t, h⟩

theorem witness_TransitionsFollowTheTable_executing :
    let s := (received 1 [0x51]).setPstate .executing
    s.env.resetPending = false ∧ s.regs.pstate = .executing ∧ ∃ t, step s = .next t := by
  obtain ⟨t, h, -⟩ := ends_next (o := step ((received 1 [0x51]).setPstate .executing)) (p := fun _ => true)
    (by decide +kernel)
  exact ⟨rfl, rfl, t, h⟩

/-- The state in which the response to an accepted GO_TO_ADDRESS stands. -/
def aboutToHandOver : State :=
  (received 5 [0x55, 0x00, 0x80, 0x00, 0x08]).setPstate .responding |>.accept .goToAddress id |>.succeed []

theorem witness_TransitionsFollowTheTable_responding :
    let s := aboutToHandOver
    s.env.resetPending = false ∧ s.regs.pstate = .responding ∧ s.regs.cmd = some .goToAddress ∧
      s.regs.txCode = s.cfg.rcAck ∧ s.regs.txPayload.head? = some s.cfg.stOk ∧ ∃ t, step s = .next t := by
  obtain ⟨t, h, -⟩ := ends_next (o := step aboutToHandOver) (p := fun t => t.regs.pstate == .handedOff)
    (by decide +kernel)
  exact ⟨rfl, rfl, rfl, rfl, rfl, t, h⟩

theorem witness_PortCallsKeepTheirPhase :
    let s := received 3 [0x56, 0x02, 0x01]
    s.env.resetPending = false ∧ s.regs.flashOpen = false ∧ ∃ t, step s = .next t := by
  obtain ⟨t, h, -⟩ := ends_next (o := step (received 3 [0x56, 0x02, 0x01])) (p := fun _ => true)
    (by decide +kernel)
  exact ⟨rfl, rfl, t, h⟩

theorem witness_OneTxPerResponse :
    aboutToHandOver.env.resetPending = false ∧ ∃ t, step aboutToHandOver = .next t :=
  ⟨rfl, witness_TransitionsFollowTheTable_responding.2.2.2.2.2⟩

theorem witness_FlashCallsAreBracketed :
    (received 3 [0x56, 0x02, 0x01]).regs.flashOpen = false ∧ ∃ t, step (received 3 [0x56, 0x02, 0x01]) = .next t :=
  ⟨rfl, witness_PortCallsKeepTheirPhase.2.2⟩

theorem witness_FlashCallsAreBracketed_open :
    let s := erasing .units true 1
    (s.regs.flashOpen = true →
        s.regs.pstate = .executing ∧ s.regs.seqState ≠ .idle ∧ s.env.resetPending = false) ∧
      s.bracket = .unlocked ∧ ∃ t, step s = .next t := by
  obtain ⟨t, h, -⟩ := ends_next (o := step (erasing .units true 1)) (p := fun _ => true) (by decide +kernel)
  exact ⟨by decide, by decide, t, h⟩

/-- R81: a verification between the unlock and the lock, or before the unlock, has no place; nor has a read-back
before the unlock. -/
theorem test_bracket_refuses :
    Bracket.run .before [.flashUnlock, .flashEraseSector 2 .ok, .verifyErased 0 1 true, .flashLock] = none ∧
    Bracket.run .before [.verifyErased 0 1 true, .flashUnlock, .flashEraseSector 2 .ok, .flashLock] = none ∧
    Bracket.run .before [.memRead 0 1 [0], .flashUnlock, .flashProgramWord 0 0 .ok, .flashLock] = none ∧
    Bracket.run .before [.flashUnlock, .flashEraseSector 2 .ok, .flashLock, .verifyErased 0 1 true]
      = some .after := by decide

theorem witness_RefusedRequestChangesNothing :
    let s := received 3 [0x56, 0x01, 0x01]
    s.cfg.WellFormed ∧ s.env.resetPending = false ∧ s.regs.flashOpen = false ∧ s.regs.pstate = .validating ∧
      ∃ t, step s = .next t ∧ t.regs.status ∉
        [s.cfg.stOk, s.cfg.stHardwareFault, s.cfg.stVerifyFailed, s.cfg.stFlashTimeout] := by
  obtain ⟨t, h, h'⟩ := ends_next (o := step (received 3 [0x56, 0x01, 0x01]))
    (p := fun t => t.regs.status == 0x21) (by decide +kernel)
  refine ⟨test_cfgRef_wellFormed, rfl, rfl, rfl, t, h, ?_⟩
  rw [eq_of_beq h']
  decide

theorem witness_RefusedRequestChangesNothing_bare_nack :
    let s := onTheWire [0x00]
    s.cfg.WellFormed ∧ s.env.resetPending = false ∧ s.regs.flashOpen = false ∧ s.regs.pstate = .awaitingFrame ∧
      ∃ t, step s = .next t ∧ t.regs.status ∉
        [s.cfg.stOk, s.cfg.stHardwareFault, s.cfg.stVerifyFailed, s.cfg.stFlashTimeout] := by
  obtain ⟨t, h, h'⟩ := ends_next (o := step (onTheWire [0x00])) (p := fun t => t.regs.status == 0x11)
    (by decide +kernel)
  refine ⟨test_cfgRef_wellFormed, rfl, rfl, rfl, t, h, ?_⟩
  rw [eq_of_beq h']
  decide

/-- A received erase, with a byte of flash content, meets the invariant. -/
theorem inv_received : State.Inv { received 3 [0x56, 0x02, 0x01] with
    env := { Env.initial with mem := [(0x08008000, 0)] } } where
  cfg := test_cfgRef_wellFormed
  mem := by decide +kernel
  spaces := by decide +kernel
  locked := rfl
  live := fun _ =>
    { notExecuting := by decide
      closed := rfl
      waiting := fun h => by cases h
      received := fun _ => by decide +kernel
      answering := fun h => by cases h }

/-- A state with a response meets the invariant. -/
theorem inv_answering : State.Inv aboutToHandOver where
  cfg := test_cfgRef_wellFormed
  mem := by decide +kernel
  spaces := by decide +kernel
  locked := rfl
  live := fun _ =>
    { notExecuting := by decide
      closed := rfl
      waiting := fun h => by cases h
      received := fun h => by cases h
      answering := fun _ => ⟨[], by decide +kernel⟩ }

theorem witness_StepKeepsTheInvariant :
    ∃ s t : State, s.Inv ∧ step s = .next t ∧ t.regs.pstate = .responding := by
  obtain ⟨t, h, h'⟩ := ends_next (o := step { received 3 [0x56, 0x02, 0x01] with
    env := { Env.initial with mem := [(0x08008000, 0)] } }) (p := fun t => t.regs.pstate == .responding)
    (by decide +kernel)
  exact ⟨_, t, inv_received, h, eq_of_beq h'⟩

theorem witness_StepKeepsTheInvariant_answering :
    ∃ t : State, aboutToHandOver.Inv ∧ step aboutToHandOver = .next t :=
  ⟨_, inv_answering, witness_OneTxPerResponse.2.choose_spec⟩

theorem witness_ReservedBytesNeverChange :
    ∃ s t : State, s.Inv ∧ step s = .next t ∧ reservedAddr s.cfg 0x08007FFF = true ∧
      0x07FFFFFF < s.cfg.flashBase ∧ s.cfg.flashEnd ≤ 0x08100000 := by
  obtain ⟨t, h⟩ := witness_StepKeepsTheInvariant_answering
  exact ⟨_, t, h.1, h.2, by decide +kernel, by decide, by decide⟩

theorem witness_DriverCallsArePermitted :
    ∃ s t : State, s.Inv ∧ step s = .next t ∧
      t.env.trace.contains (.flashEraseSector 2 .ok) = true := by
  obtain ⟨t, h, h'⟩ := ends_next (o := step { received 3 [0x56, 0x02, 0x01] with
    env := { Env.initial with mem := [(0x08008000, 0)] } })
    (p := fun t => t.env.trace.contains (.flashEraseSector 2 .ok)) (by decide +kernel)
  exact ⟨_, t, inv_received, h, h'⟩

end Sys2Proof.Tests
end

