-- ==== Sys2Proof/Proofs/Invariant.lean ====
section
/-! PROOFS. Every step keeps the invariant of a run. The invariant has two halves: what it says of `CFG`, the
flash content and the lock (`State.EnvInv`), kept by every part of a step, and what it says of the registers
(`State.Live`), which each of the four ways a step can end establishes anew: a new cycle, a received frame, a
response in the `TX_` registers, the hand-off. -/

namespace Sys2Proof.Machine

/-! The half of the invariant that no register enters. -/

/-- What the invariant says of `CFG` and of the environment (R12, R69, R81). -/
structure State.EnvInv (s : State) : Prop where
  cfg : s.cfg.WellFormed
  mem : Memory.wf s.cfg.erasedByte s.env.mem
  spaces : ∀ c ∈ s.env.mem, mapped s.cfg c.1 1 = true
  locked : s.env.locked = true

theorem State.inv_iff (s : State) : s.Inv ↔ s.EnvInv ∧ (s.regs.pstate ≠ .handedOff → s.Live) :=
  ⟨fun ⟨hc, hm, hs, hl, hv⟩ => ⟨⟨hc, hm, hs, hl⟩, hv⟩, fun ⟨⟨hc, hm, hs, hl⟩, hv⟩ => ⟨hc, hm, hs, hl, hv⟩⟩

/-- Only `CFG`, the flash content and the lock matter to it. -/
theorem State.EnvInv.of_eq {s t : State} (h : s.EnvInv) (hc : t.cfg = s.cfg) (hm : t.env.mem = s.env.mem)
    (hl : t.env.locked = s.env.locked) : t.EnvInv where
  cfg := by rw [hc]; exact h.cfg
  mem := by rw [hc, hm]; exact h.mem
  spaces := by rw [hc, hm]; exact h.spaces
  locked := by rw [hl]; exact h.locked

/-- `read_frame` writes the transport and the trace only (R140). -/
theorem State.EnvInv.of_readsFrame {W : Prop} {s t : State} (h : s.EnvInv) (hr : ReadsFrame W s t) : t.EnvInv := by
  obtain ⟨q, es, he, _⟩ := hr.env
  exact h.of_eq hr.cfg (by rw [he]) (by rw [he])

/-- A part of a command that ends outside the lock bracket and lists bytes of the flash and OTP spaces only
(R69, R81). -/
theorem State.EnvInv.of_effect {A : Nat → Prop} {P : Event → Prop} {p q : Bracket} {es : List Event}
    {s t : State} (h : s.EnvInv) (he : Effect A P p q es s t) (hq : q ≠ .unlocked)
    (hA : ∀ a, A a → mapped s.cfg a 1 = true) : t.EnvInv where
  cfg := by rw [he.cfg]; exact h.cfg
  mem := by rw [he.cfg]; exact he.wf h.mem
  spaces c hc := by rw [he.cfg]; exact (he.keys c hc).elim (h.spaces c) (hA c.1)
  locked := he.locked hq (.inr h.locked)

/-- The lock owed at an error is paid, or none was owed (R304 (1)). -/
theorem State.payLock_locked {s : State} (h : s.env.locked = true) : s.payLock.env.locked = true := by
  unfold State.payLock
  split
  · simp
  · exact h

theorem State.EnvInv.payLock {s : State} (h : s.EnvInv) : s.payLock.EnvInv :=
  h.of_eq (by simp) (by simp) ((State.payLock_locked h.locked).trans h.locked.symm)

/-- Every byte a command can change lies in the flash space (R222, R225). -/
theorem mapped_of_commandArea {c : Cfg} (hc : c.WellFormed) {i : Instr} {a : Nat} (h : commandArea c i a) :
    mapped c a 1 = true := by
  rw [mapped_iff, inFlash_iff]
  left
  cases i with
  | flashErase sector count =>
    obtain ⟨hallowed, k, hk, hin⟩ := h
    have hflash := (cfgFacts hc).inSector_inFlash (hallowed.sector hk).1 hin
    omega
  | memWrite address data =>
    obtain ⟨⟨_, _, _, _, hbase, hend⟩, hlow, hhigh⟩ := h
    omega
  | _ => exact h.elim

/-! The ways a step can end. -/

/-- A new cycle, whatever the registers were (R43). -/
theorem State.EnvInv.newCycle_inv {s : State} (h : s.EnvInv) : s.newCycle.Inv :=
  s.newCycle.inv_iff.mpr ⟨h.of_eq rfl rfl rfl, fun _ =>
    { notExecuting := by simp
      closed := by simp
      waiting := by simp
      received := by simp
      answering := by simp }⟩

/-- A reset leaves the registers of the start of a cycle (R42, R330). -/
theorem State.EnvInv.deviceReset_inv {s : State} (h : s.EnvInv) : s.deviceReset.Inv :=
  s.deviceReset.inv_iff.mpr ⟨h.of_eq rfl rfl rfl, fun _ =>
    { notExecuting := by simp [Regs.reset]
      closed := rfl
      waiting := fun _ => rfl
      received := by simp [Regs.reset]
      answering := by simp [Regs.reset] }⟩

/-- A hand-off leaves no register but `PSTATE` to speak of (R275). -/
theorem State.EnvInv.handOff_inv {s : State} (h : s.EnvInv) : s.handOff.Inv :=
  s.handOff.inv_iff.mpr ⟨h.of_eq rfl rfl rfl, fun hp => absurd rfl hp⟩

/-- A response stands in the `TX_` registers: a success of at most 253 bytes, or the bare status byte of an
error (R100, R178). -/
theorem State.EnvInv.respond_inv {s : State} {st : Byte} {data : List Byte} (h : s.EnvInv)
    (hf : s.regs.flashOpen = false) (hd : data.length ≤ 253)
    (hst : st ≠ s.cfg.stOk → data = [] ∧ st ∈ s.cfg.errorCodes) : (s.respond st data).Inv :=
  (s.respond st data).inv_iff.mpr ⟨h.of_eq rfl rfl rfl, fun _ =>
    { notExecuting := by simp
      closed := hf
      waiting := by simp
      received := by simp
      answering := fun _ => ⟨data, rfl, hd, rfl,
        fun hok => if_pos (beq_iff_eq.mpr hok),
        fun hne => ⟨if_neg fun hok => hne (beq_iff_eq.mp hok), hst hne⟩⟩ }⟩

/-- The successful end of a command (R178). -/
theorem State.EnvInv.succeed_inv {s : State} {data : List Byte} (h : s.EnvInv) (hf : s.regs.flashOpen = false)
    (hd : data.length ≤ 253) : (s.succeed data).Inv :=
  h.respond_inv hf hd fun hne => absurd rfl hne

/-- Taking an error: the next cycle, or the failure frame after the owed lock (R304). -/
theorem State.EnvInv.raise_inv {s : State} (h : s.EnvInv) (e : Err) : (s.raise e).Inv := by
  rcases s.raise_cases e with ⟨_, hr⟩ | ⟨st, hst, hr⟩ <;> rw [hr]
  · exact State.EnvInv.newCycle_inv (s := s.setFerr .timeout) (h.of_eq rfl rfl rfl)
  · refine h.payLock.respond_inv (by simp) (by simp) fun _ => ⟨rfl, ?_⟩
    rw [State.payLock_cfg]
    exact ((cfgFacts h.cfg).status_ne_ok hst).2

/-- A command that ends as `exec_command_ends` says, from a state with no open flash. -/
theorem State.EnvInv.finish_inv {A : Nat → Prop} {P : Event → Prop} {s t : State} {r : Ran} (h : s.EnvInv)
    (hf : s.regs.flashOpen = false) (hA : ∀ a, A a → mapped s.cfg a 1 = true)
    (hr : r.Ends 253 A P .before s) (ht : r.finish = .next t) : t.Inv := by
  match r, hr with
  | .done data u, ⟨hd, q, es, hq, he⟩ =>
    cases ht
    exact (h.of_effect he hq hA).succeed_inv (he.closed hq (.inr hf)) hd
  | .raised e u, ⟨_, q, es, hq, he, _⟩ =>
    cases ht
    exact (h.of_effect he hq hA).raise_inv e
  | .stopped f, _ => cases ht

/-! The step, by protocol state. -/

/-- A frame received whole with a matching CRC waits in `Validating` (T6 of R184). -/
theorem State.EnvInv.validating_inv {s u : State} (h : u.EnvInv) (hu : ReadsFrame True s u)
    (hf : s.regs.flashOpen = false) (hn : u.regs.ferr = .none) : (u.setPstate .validating).Inv :=
  (u.setPstate .validating).inv_iff.mpr ⟨h.of_eq rfl rfl rfl, fun _ =>
    { notExecuting := by simp
      closed := by rw [State.setPstate_regs, hu.regs]; exact hf
      waiting := by simp
      received := fun _ => ⟨hn, hu.whole trivial hn⟩
      answering := by simp }⟩

/-- `AwaitingFrame`: the frame is read from its start, because a cycle starts with `RX_IDX = 0` (R43). -/
theorem State.Inv.receive_inv {s t : State} (h : s.Inv) (hp : s.regs.pstate = .awaitingFrame)
    (ht : s.receive = .next t) : t.Inv := by
  obtain ⟨henv, hlive⟩ := s.inv_iff.mp h
  have hv : s.Live := hlive (by simp [hp])
  have hstart : s.regs.rxIdx = 0 := by rw [hv.waiting hp]; simp
  obtain ⟨u, hu, hend⟩ := State.receive_next ht
  have hue := henv.of_readsFrame hu
  rcases hend with ⟨hn, rfl⟩ | ⟨_, rfl⟩ | ⟨_, rfl⟩ | ⟨_, rfl⟩
  · exact hue.validating_inv (hu.mono fun _ => hstart) hv.closed hn
  · exact hue.raise_inv _
  · exact hue.raise_inv _
  · exact hue.raise_inv _

/-- `Validating`: the command changes bytes of the flash space only, and ends with the flash locked. -/
theorem State.Inv.exec_command_inv {s t : State} {i : Instr} (h : s.Inv) (hp : s.regs.pstate = .validating)
    (hi : i.isCommand = true) (ht : exec i s = .next t) : t.Inv := by
  obtain ⟨henv, hlive⟩ := s.inv_iff.mp h
  obtain ⟨r, hr, hfin⟩ := exec_command_ends hi ht
  exact henv.finish_inv (hlive (by simp [hp])).closed (fun _ ha => mapped_of_commandArea henv.cfg ha) hr hfin

/-- `Responding`: after the `Tx` the processor is handed over or the next cycle starts (T12, T13 of R184). -/
theorem State.EnvInv.answer_inv {s t : State} (h : s.EnvInv) (ht : exec s.response s = .next t) : t.Inv := by
  obtain ⟨code, status, data, hend⟩ := State.answer_next ht
  have hsent : (s.sendResponse code status data).EnvInv := h.of_eq rfl rfl rfl
  rcases hend with rfl | rfl
  · exact hsent.handOff_inv
  · exact hsent.newCycle_inv

/-- Settles O57: one case per protocol state of `step_next`. `Executing` is no state between steps, and from
`HandedOff` only a reset leads on. -/
theorem stepKeepsTheInvariant : Obligations.StepKeepsTheInvariant := by
  intro s t h ht
  obtain ⟨henv, hlive⟩ := s.inv_iff.mp h
  rcases step_next ht with ⟨_, rfl⟩ | ⟨_, ⟨hp, hr⟩ | ⟨hp, ⟨i, _, hi, hx⟩ | ⟨e, _, rfl⟩⟩ | ⟨hp, _⟩ | ⟨_, hx⟩⟩
  · exact henv.deviceReset_inv
  · exact h.receive_inv hp hr
  · exact h.exec_command_inv hp hi hx
  · exact State.EnvInv.raise_inv (s := s.setCmd) (henv.of_eq rfl rfl rfl) e
  · exact absurd hp (hlive (by simp [hp])).notExecuting
  · exact henv.answer_inv hx

end Sys2Proof.Machine
end

section
/-! PROOFS. The state (`10_state.md`): the reset state, `CFG` as no step writes it, and the position registers. A
position is joined to the one after it in two halves: what the reading (`State.continueFrame`) and the sequence
(`State.continueSequence`) do from each position, said once per position, and that the step in `AwaitingFrame` and
in `Executing` is determined by these. -/

namespace Sys2Proof.Machine

/-! The reset state. -/

theorem cfgRef_wellFormed : cfgRef.WellFormed := by decide

/-- Settles O22. -/
theorem resetStateIsTheTable : Obligations.ResetStateIsTheTable :=
  ⟨rfl, rfl, rfl, rfl, rfl, rfl, rfl, rfl, rfl, rfl, rfl, rfl, rfl, cfgRef_wellFormed⟩

/-- Settles O56: the flash content lists nothing, and the registers are those of the start of a cycle. -/
theorem resetMeetsTheInvariant : Obligations.ResetMeetsTheInvariant :=
  State.reset.inv_iff.mpr
    ⟨{ cfg := cfgRef_wellFormed
       mem := reset_memory_wf
       spaces := fun _ hc => absurd hc List.not_mem_nil
       locked := rfl },
     fun _ =>
      { notExecuting := by simp [State.reset, Regs.reset]
        closed := rfl
        waiting := fun _ => rfl
        received := by simp [State.reset, Regs.reset]
        answering := by simp [State.reset, Regs.reset] }⟩

/-! `CFG`. -/

/-- A command's effect leaves `CFG` alone, and so does the response that ends it (R38). -/
theorem Ran.Ends.finish_cfg {n : Nat} {A : Nat → Prop} {P : Event → Prop} {p : Bracket} {s t : State} {r : Ran}
    (hr : r.Ends n A P p s) (ht : r.finish = .next t) : t.cfg = s.cfg := by
  match r, hr with
  | .done data u, ⟨_, _, _, _, he⟩ => cases ht; exact he.cfg
  | .raised e u, ⟨_, _, _, _, he, _⟩ => cases ht; exact (u.raise_cfg e).trans he.cfg
  | .stopped f, _ => cases ht

theorem State.receive_cfg {s t : State} (h : s.receive = .next t) : t.cfg = s.cfg := by
  obtain ⟨u, hu, hend⟩ := State.receive_next h
  rcases hend with ⟨_, rfl⟩ | ⟨_, rfl⟩ | ⟨_, rfl⟩ | ⟨_, rfl⟩
  · exact hu.cfg
  all_goals exact (u.raise_cfg _).trans hu.cfg

/-- Settles O50: one case per protocol state of `step_next`. -/
theorem noStepWritesCfg : Obligations.NoStepWritesCfg := by
  intro s t ht
  rcases step_next ht with ⟨_, rfl⟩ | ⟨_, ⟨_, hr⟩ | ⟨_, ⟨i, _, hi, hx⟩ | ⟨e, _, rfl⟩⟩ |
    ⟨hp, ⟨i, _, hx⟩ | ⟨e, _, rfl⟩⟩ | ⟨_, hx⟩⟩
  · exact s.deviceReset_cfg
  · exact State.receive_cfg hr
  · obtain ⟨r, hr, hfin⟩ := exec_command_ends hi hx
    exact hr.finish_cfg hfin
  · exact s.setCmd.raise_cfg e
  · exact (takenUp_ends i hp).finish_cfg hx
  · exact s.raise_cfg e
  · obtain ⟨code, status, data, rfl | rfl⟩ := State.answer_next hx <;> rfl

/-! The step, by protocol state. -/

theorem step_of_awaitingFrame {s : State} (hr : s.env.resetPending = false) (hp : s.regs.pstate = .awaitingFrame) :
    step s = s.receive := by simp [step, hr, hp]

theorem step_of_validating {s : State} {i : Instr} (hr : s.env.resetPending = false)
    (hp : s.regs.pstate = .validating) (hd : decodeBody s.cfg s.regs.rxLen s.regs.rxBody = .ok i) :
    step s = exec i s := by simp [step, hr, hp, State.validate, State.fetchCommand, hd]

theorem step_of_executing {s : State} {i : Instr} (hr : s.env.resetPending = false)
    (hp : s.regs.pstate = .executing) (hd : decodeBody s.cfg s.regs.rxLen s.regs.rxBody = .ok i) :
    step s = (if s.regs.seqState = .idle then execution i s else continuation i s).finish := by
  simp [step, hr, hp, State.resume, State.fetchCommand, hd]

/-- Settles O16. -/
theorem stepTakesUpAnExecution : Obligations.StepTakesUpAnExecution := by
  intro s i hr hp hq hd
  rw [step_of_executing hr hp hd, if_pos hq]

/-! The positions of `read_frame` (R24, R33), and the `Rx` that leads to each. -/

theorem State.continueFrame_afterLength {s : State} (hi : s.regs.rxIdx = 1) (hf : s.regs.ferr = .none) :
    s.continueFrame = some s.afterLength := by simp [State.continueFrame, hi, hf]

theorem State.continueFrame_afterBody {s : State} (hi : s.regs.rxIdx = 1 + s.regs.rxLen.toNat)
    (hf : s.regs.ferr = .none) (hl : s.regs.rxLen ≠ 0) : s.continueFrame = some s.readCrc := by
  have hl' : s.regs.rxLen.toNat ≠ 0 := fun h => hl (BitVec.eq_of_toNat_eq h)
  simp [State.continueFrame, hi, hf, hl']

theorem State.continueFrame_afterCrc {s : State} (hi : s.regs.rxIdx = 5 + s.regs.rxLen.toNat)
    (hf : s.regs.ferr = .none) : s.continueFrame = some s.judgeCrc := by
  have h1 : 5 + s.regs.rxLen.toNat ≠ 1 := by omega
  simp [State.continueFrame, hi, hf, h1]

/-- The bytes `bs` came in by `Rx(n)`, and `rest` is still on the way. -/
def State.heard (s : State) (n : Nat) (bs : List Byte) (rest : List RxItem) : State :=
  { s with env := { s.env with rx := rest, trace := s.env.trace ++ [.rx n (some bs)] } }

theorem State.portRx_bytes {s : State} {n : Nat} {bs : List Byte} {rest : List RxItem}
    (hrx : s.env.rx = bs.map RxItem.byte ++ rest) (hn : bs.length = n) :
    s.portRx n = (some bs, s.heard n bs rest) := by
  have ht : takeBytes n s.env.rx = (some bs, rest) := by rw [hrx]; exact takeBytes_bytes_of_length rest hn
  simp only [State.portRx, ht]
  rfl

theorem State.readFrame_of_length {s : State} {len : Byte} {rest : List RxItem}
    (hrx : s.env.rx = .byte len :: rest) :
    s.readFrame = ((s.startFrame.heard 1 [len] rest).storeLength len).afterLength := by
  have hp : s.startFrame.portRx 1 = (some [len], s.startFrame.heard 1 [len] rest) := State.portRx_bytes hrx rfl
  simp only [State.readFrame, hp]
  rfl

theorem State.afterLength_of_body {s : State} {body : List Byte} {rest : List RxItem} (hl : s.regs.rxLen ≠ 0)
    (hb : body.length = s.regs.rxLen.toNat) (hrx : s.env.rx = body.map RxItem.byte ++ rest) :
    s.afterLength = ((s.heard s.regs.rxLen.toNat body rest).storeBody body).readCrc := by
  simp only [State.afterLength, if_neg hl, State.readBody, State.portRx_bytes hrx hb]

theorem State.readCrc_of_bytes {s : State} {b0 b1 b2 b3 : Byte} {rest : List RxItem}
    (hrx : s.env.rx = [b0, b1, b2, b3].map RxItem.byte ++ rest) :
    s.readCrc = ((s.heard 4 [b0, b1, b2, b3] rest).storeCrc b0 b1 b2 b3).judgeCrc := by
  have hp : s.portRx 4 = (some [b0, b1, b2, b3], s.heard 4 [b0, b1, b2, b3] rest) := State.portRx_bytes hrx rfl
  simp only [State.readCrc, hp]
  rfl

/-- In `AwaitingFrame` the rest of the reading is all the step depends on. -/
theorem step_eq_of_continueFrame {s t u : State} (hr : s.env.resetPending = false)
    (hp : s.regs.pstate = .awaitingFrame) (hs : s.continueFrame = some u) (ht : t.continueFrame = some u)
    (hr' : t.env.resetPending = s.env.resetPending) (hp' : t.regs.pstate = s.regs.pstate) : step s = step t := by
  rw [step_of_awaitingFrame hr hp, step_of_awaitingFrame (hr'.trans hr) (hp'.trans hp), State.receive, State.receive,
    hs, ht]

section
variable {s : State} {rest : List RxItem} (hr : s.env.resetPending = false) (hp : s.regs.pstate = .awaitingFrame)
include hr hp

/-- The `Rx` of the length byte leads to the position after it (R141). -/
theorem step_of_length_heard {len : Byte} (hi : s.regs.rxIdx = 0) (hrx : s.env.rx = .byte len :: rest) :
    step s = step ((s.startFrame.heard 1 [len] rest).storeLength len) := by
  refine step_eq_of_continueFrame hr hp ?_ (State.continueFrame_afterLength rfl rfl) rfl rfl
  rw [State.continueFrame_of_start hi, State.readFrame_of_length hrx]

/-- The `Rx` of the body leads to the position after it (R143). -/
theorem step_of_body_heard {body : List Byte} (hi : s.regs.rxIdx = 1) (hf : s.regs.ferr = .none)
    (hl : s.regs.rxLen ≠ 0) (hb : body.length = s.regs.rxLen.toNat)
    (hrx : s.env.rx = body.map RxItem.byte ++ rest) :
    step s = step ((s.heard s.regs.rxLen.toNat body rest).storeBody body) := by
  refine step_eq_of_continueFrame hr hp ?_ (State.continueFrame_afterBody rfl hf hl) rfl rfl
  rw [State.continueFrame_afterLength hi hf, State.afterLength_of_body hl hb hrx]

/-- The `Rx` of the crc bytes leads to the position after them, where the CRC is judged (R144, R146). -/
theorem step_of_crc_heard {b0 b1 b2 b3 : Byte} (hi : s.regs.rxIdx = 1 + s.regs.rxLen.toNat)
    (hf : s.regs.ferr = .none) (hl : s.regs.rxLen ≠ 0)
    (hrx : s.env.rx = [b0, b1, b2, b3].map RxItem.byte ++ rest) :
    step s = step ((s.heard 4 [b0, b1, b2, b3] rest).storeCrc b0 b1 b2 b3) := by
  refine step_eq_of_continueFrame hr hp ?_ (State.continueFrame_afterCrc rfl hf) rfl rfl
  rw [State.continueFrame_afterBody hi hf hl, State.readCrc_of_bytes hrx]

end

/-! The erase checks lead into `Executing` (T10 of R184). -/

theorem checkFlashErase_of_allowed {s : State} {sector count : Byte} (h : EraseAllowed s.cfg sector count) :
    checkFlashErase sector count s
      = .done [] { s with regs := { s.regs with seqList := eraseRequest s.cfg sector count } } := by
  rcases checkFlashErase_cases sector count s with ⟨_, hm, k, hk, hin⟩ | ⟨_, hm, _, hrange⟩ | ⟨_, hdone⟩
  · exact absurd hin ((h.resolve_left hm).1 k hk)
  · obtain ⟨_, hcount, hend⟩ := h.resolve_left hm
    rcases hrange with hzero | hlate
    · exact absurd hzero hcount
    · omega
  · exact hdone

/-- The step of an allowed erase in `Validating` is the step in `Executing` that its checks lead to. -/
theorem step_of_allowed_erase {s : State} {sector count : Byte} (hr : s.env.resetPending = false)
    (hp : s.regs.pstate = .validating) (hq : s.regs.seqState = .idle)
    (hd : decodeBody s.cfg s.regs.rxLen s.regs.rxBody = .ok (.flashErase sector count))
    (ha : EraseAllowed s.cfg sector count) :
    step s = step { s with regs := { s.regs with
      pstate := .executing, cmd := some .flashErase, argSector := sector, argNsec := count
      seqList := eraseRequest s.cfg sector count } } := by
  have hexec : exec (.flashErase sector count) s = (runFlashErase _).finish :=
    runCommand_of_done (checkFlashErase_of_allowed ha)
  refine ((step_of_validating hr hp hd).trans hexec).trans (Eq.symm ?_)
  exact stepTakesUpAnExecution _ (.flashErase sector count) hr rfl hq hd

/-! The positions of a flash sequence (R33, R37). -/

section
variable {n : Nat} {units verify : State → Ran} {s : State}

theorem State.continueSequence_idle (hq : s.regs.seqState = .idle) :
    s.continueSequence n units verify = units s.beginUnits := by simp only [State.continueSequence, hq]

theorem State.continueSequence_unlock_closed (hq : s.regs.seqState = .unlock) (ho : s.regs.flashOpen = false) :
    s.continueSequence n units verify = units s.beginUnits := by simp only [State.continueSequence, hq, ho]

theorem State.continueSequence_unlock_open (hq : s.regs.seqState = .unlock) (ho : s.regs.flashOpen = true) :
    s.continueSequence n units verify = units s.startUnits := by simp only [State.continueSequence, hq, ho]

theorem State.continueSequence_units (hq : s.regs.seqState = .units) (ho : s.regs.flashOpen = true) :
    s.continueSequence n units verify = units s := by simp only [State.continueSequence, hq, ho]

theorem State.continueSequence_lock_open (hq : s.regs.seqState = .lock) (ho : s.regs.flashOpen = true) :
    s.continueSequence n units verify = s.endUnits.afterLock n verify := by simp only [State.continueSequence, hq, ho]

theorem State.continueSequence_lock_closed (hq : s.regs.seqState = .lock) (ho : s.regs.flashOpen = false) :
    s.continueSequence n units verify = s.afterLock n verify := by simp only [State.continueSequence, hq, ho]

theorem State.continueSequence_verify (hq : s.regs.seqState = .verify) (ho : s.regs.flashOpen = false) :
    s.continueSequence n units verify = verify s := by simp only [State.continueSequence, hq, ho]

end

/-- Where `SEQ_STATE` is `Unlock` already, the rest of the beginning is left. -/
theorem State.beginUnits_of_unlock {s : State} (hq : s.regs.seqState = .unlock) :
    s.beginUnits = s.openFlash.startUnits := by
  rw [State.beginUnits, ← hq]; rfl

/-- Where `SEQ_STATE` is `Lock` already, the rest of the end is left. -/
theorem State.endUnits_of_lock {s : State} (hq : s.regs.seqState = .lock) : s.endUnits = s.closeFlash := by
  rw [State.endUnits, ← hq]; rfl

theorem State.afterLock_of_done {n : Nat} {verify : State → Ran} {s : State} (h : n ≤ s.regs.seqIdx) :
    s.afterLock n verify = verify (s.setSeq .verify) := if_neg (Nat.not_lt.mpr h)

theorem State.afterLock_of_left {n : Nat} {verify : State → Ran} {s : State} (h : s.regs.seqIdx < n) :
    s.afterLock n verify = .raised (Config.drawFault s.env.draws).err s.countDraw := if_pos h

/-- With units left after the `FlashLock`, the sequence ends in one of the two errors of a unit (R229; log 31). -/
theorem State.afterLock_finish_of_left {n : Nat} {verify : State → Ran} {s : State} (h : s.regs.seqIdx < n)
    (ho : s.regs.flashOpen = false) :
    ∃ st ∈ [s.cfg.stHardwareFault, s.cfg.stFlashTimeout],
      (s.afterLock n verify).finish = .next (s.countDraw.respond st []) := by
  rw [State.afterLock_of_left h]
  have ho' : s.countDraw.regs.flashOpen = false := ho
  cases Config.drawFault s.env.draws with
  | hardwareFault => exact ⟨s.cfg.stHardwareFault, by simp, congrArg _ (State.raise_of_closed rfl ho')⟩
  | timeout => exact ⟨s.cfg.stFlashTimeout, by simp, congrArg _ (State.raise_of_closed rfl ho')⟩

/-! The unit calls that are left (R223, R226). -/

/-- A sector that answered `Ok` is done, and the erase goes on with the next one. -/
theorem State.eraseFrom_of_ok {s u : State} {k : Nat} (hk : s.regs.seqList[s.regs.seqIdx]? = some k)
    (hu : s.portFlashEraseSector k = (.ok, u)) : s.eraseFrom = u.nextUnit.eraseFrom := by
  have hregs : u.regs = s.regs := by rw [← s.portFlashEraseSector_regs k, hu]
  have hdrop : s.regs.seqList.drop s.regs.seqIdx = k :: s.regs.seqList.drop (s.regs.seqIdx + 1) := by
    obtain ⟨hlt, rfl⟩ := List.getElem?_eq_some_iff.mp hk
    exact List.drop_eq_getElem_cons hlt
  rw [State.eraseFrom, State.eraseFrom, State.nextUnit_regs, hregs, hdrop, eraseUnits_cons, hu]
  rfl

/-- The words of a request from one of them on (R226). -/
theorem programUnits_drop {w a i : Nat} {data : List Byte} (h : i < data.length / w) :
    (programUnits w a data).drop i
      = (a + i * w, (data.drop (i * w)).take w) :: (programUnits w a data).drop (i + 1) := by
  rw [List.drop_eq_getElem_cons (by rwa [programUnits_length])]
  simp [programUnits]

/-- A word that answered `Ok` is done, and the program request goes on with the next one. -/
theorem State.programFrom_of_ok {s u : State} {a : Nat} {data : List Byte}
    (hi : s.regs.seqIdx < data.length / s.cfg.wordBytes)
    (hu : s.portFlashProgramWord (a + s.regs.seqIdx * s.cfg.wordBytes)
      (leValue ((data.drop (s.regs.seqIdx * s.cfg.wordBytes)).take s.cfg.wordBytes)) = (.ok, u)) :
    s.programFrom a data = u.nextUnit.programFrom a data := by
  have hregs : u.regs = s.regs := by rw [← s.portFlashProgramWord_regs _ _, hu]
  have hcfg : u.cfg = s.cfg := by rw [← (s.portFlashProgramWord_touches _ _).cfg, hu]
  rw [State.programFrom, State.programFrom, State.nextUnit_regs, State.nextUnit_cfg, hregs, hcfg,
    programUnits_drop hi, programWords_cons, hu]
  rfl

/-- The two commands that have a sequence: its units, how it goes on from one, and its verification. -/
inductive FlashSequence (c : Cfg) (sectors : List Nat) : Instr → Nat → (State → Ran) → (State → Ran) → Prop
  | erase (sector count : Byte) :
    FlashSequence c sectors (.flashErase sector count) sectors.length State.eraseFrom State.eraseVerify
  | program (address : Word) (data : List Byte) :
    FlashSequence c sectors (.memWrite address data) (data.length / c.wordBytes)
      (State.programFrom address.toNat data) (State.programVerify address.toNat data)

/-- The state is in `Executing`, and the command in the receive registers has the flash sequence given. -/
structure State.InSequence (s : State) (i : Instr) (n : Nat) (units verify : State → Ran) : Prop where
  noReset : s.env.resetPending = false
  executing : s.regs.pstate = .executing
  command : decodeBody s.cfg s.regs.rxLen s.regs.rxBody = .ok i
  sequence : FlashSequence s.cfg s.regs.seqList i n units verify

namespace State.InSequence
variable {s t : State} {i : Instr} {n : Nat} {units verify : State → Ran}

/-- The step is the sequence from its position on, its beginning among the positions. -/
theorem step_eq (h : s.InSequence i n units verify) : step s = (s.continueSequence n units verify).finish := by
  obtain ⟨hr, hp, hd, hseq⟩ := h
  rw [step_of_executing hr hp hd]
  by_cases hq : s.regs.seqState = .idle
  · rw [if_pos hq, State.continueSequence_idle hq]
    cases hseq <;> rfl
  · rw [if_neg hq]
    cases hseq <;> rfl

/-- No part of a sequence leaves it: only `SEQ_STATE`, `SEQ_IDX`, `FLASH_OPEN` and the environment change. -/
theorem move (h : s.InSequence i n units verify) {q : SeqState} {m : Nat} {o : Bool} (hc : t.cfg = s.cfg)
    (hregs : t.regs = s.regs.seqAt q m o) (hr : t.env.resetPending = s.env.resetPending) :
    t.InSequence i n units verify := by
  obtain ⟨hr0, hp, hd, hseq⟩ := h
  exact ⟨hr.trans hr0, by rw [hregs]; exact hp, by rw [hc, hregs]; exact hd, by rw [hc, hregs]; exact hseq⟩

/-- Two positions of one sequence with the same rest have the same step. -/
theorem step_eq_step {r : Ran} (h : s.InSequence i n units verify) (h' : t.InSequence i n units verify)
    (hs : s.continueSequence n units verify = r) (ht : t.continueSequence n units verify = r) : step s = step t := by
  rw [h.step_eq, h'.step_eq, hs, ht]

/-- After the last unit the owed lock and the verification are left (R223, R226). -/
theorem units_of_done (h : s.InSequence i n units verify) (hi : s.regs.seqIdx = n) :
    units s = verify (s.endUnits.setSeq .verify) := by
  cases h.sequence with
  | erase sector count => simp [State.eraseFrom, hi, State.afterUnits_none]
  | program address data =>
    have hdone : (programUnits s.cfg.wordBytes address.toNat data).drop s.regs.seqIdx = [] :=
      List.drop_eq_nil_of_le (by rw [programUnits_length, hi])
    simp [State.programFrom, hdone, State.afterUnits_none]

/-! The joins: one per position of R33. -/

theorem step_idle (h : s.InSequence i n units verify) (hq : s.regs.seqState = .idle) (ho : s.regs.flashOpen = false) :
    step s = step (s.setSeq .unlock) :=
  h.step_eq_step (h.move rfl (s.setSeq_seqAt _) rfl) (State.continueSequence_idle hq)
    (State.continueSequence_unlock_closed rfl ho)

theorem step_unlock_closed (h : s.InSequence i n units verify) (hq : s.regs.seqState = .unlock)
    (ho : s.regs.flashOpen = false) : step s = step s.openFlash :=
  h.step_eq_step (h.move (q := s.regs.seqState) (m := s.regs.seqIdx) (o := true) rfl rfl rfl)
    ((State.continueSequence_unlock_closed hq ho).trans (congrArg units (State.beginUnits_of_unlock hq)))
    (State.continueSequence_unlock_open hq rfl)

theorem step_unlock_open (h : s.InSequence i n units verify) (hq : s.regs.seqState = .unlock)
    (ho : s.regs.flashOpen = true) : step s = step s.startUnits :=
  h.step_eq_step (h.move (q := .units) (m := 0) (o := s.regs.flashOpen) rfl rfl rfl)
    (State.continueSequence_unlock_open hq ho) (State.continueSequence_units rfl ho)

/-- A unit that leaves the same rest of the units is joined to the position after it. -/
theorem step_unit {u : State} (h : s.InSequence i n units verify) (hq : s.regs.seqState = .units)
    (ho : s.regs.flashOpen = true) (hc : u.cfg = s.cfg) (hregs : u.regs = s.regs)
    (hr : u.env.resetPending = s.env.resetPending) (hunits : units s = units u.nextUnit) :
    step s = step { u with regs := { u.regs with seqIdx := s.regs.seqIdx + 1 } } := by
  have hnext : u.nextUnit = { u with regs := { u.regs with seqIdx := s.regs.seqIdx + 1 } } := by
    rw [State.nextUnit, hregs]
  rw [← hnext]
  exact h.step_eq_step (h.move hc (u.nextUnit_seqAt.trans (by rw [hregs])) hr)
    ((State.continueSequence_units hq ho).trans hunits)
    (State.continueSequence_units (by rw [State.nextUnit_regs, hregs]; exact hq)
      (by rw [State.nextUnit_regs, hregs]; exact ho))

theorem step_sector {sector count : Byte} {k : Nat} {u : State} (h : s.InSequence i n units verify)
    (hi : i = .flashErase sector count) (hq : s.regs.seqState = .units) (ho : s.regs.flashOpen = true)
    (hk : s.regs.seqList[s.regs.seqIdx]? = some k) (hu : s.portFlashEraseSector k = (.ok, u)) :
    step s = step { u with regs := { u.regs with seqIdx := s.regs.seqIdx + 1 } } := by
  subst hi
  have htouch := s.portFlashEraseSector_touches k
  rw [hu] at htouch
  have hregs : u.regs = s.regs := by rw [← s.portFlashEraseSector_regs k, hu]
  have hunits : units s = units u.nextUnit := by
    cases h.sequence
    exact State.eraseFrom_of_ok hk hu
  exact h.step_unit hq ho htouch.cfg hregs htouch.resetPending hunits

theorem step_word {address : Word} {data : List Byte} {u : State} (h : s.InSequence i n units verify)
    (hi : i = .memWrite address data) (hq : s.regs.seqState = .units) (ho : s.regs.flashOpen = true)
    (hk : s.regs.seqIdx < n)
    (hu : s.portFlashProgramWord (address.toNat + s.regs.seqIdx * s.cfg.wordBytes)
      (leValue ((data.drop (s.regs.seqIdx * s.cfg.wordBytes)).take s.cfg.wordBytes)) = (.ok, u)) :
    step s = step { u with regs := { u.regs with seqIdx := s.regs.seqIdx + 1 } } := by
  subst hi
  have htouch := s.portFlashProgramWord_touches (address.toNat + s.regs.seqIdx * s.cfg.wordBytes)
    (leValue ((data.drop (s.regs.seqIdx * s.cfg.wordBytes)).take s.cfg.wordBytes))
  rw [hu] at htouch
  have hregs : u.regs = s.regs := by rw [← s.portFlashProgramWord_regs _ _, hu]
  have hunits : units s = units u.nextUnit := by
    cases h.sequence
    exact State.programFrom_of_ok hk hu
  exact h.step_unit hq ho htouch.cfg hregs htouch.resetPending hunits

theorem step_units_done (h : s.InSequence i n units verify) (hq : s.regs.seqState = .units)
    (ho : s.regs.flashOpen = true) (hk : s.regs.seqIdx = n) : step s = step (s.setSeq .lock) :=
  h.step_eq_step (h.move rfl (s.setSeq_seqAt _) rfl)
    ((State.continueSequence_units hq ho).trans (h.units_of_done hk))
    ((State.continueSequence_lock_open (s := s.setSeq .lock) rfl ho).trans (State.afterLock_of_done hk.ge))

theorem step_lock_open (h : s.InSequence i n units verify) (hq : s.regs.seqState = .lock)
    (ho : s.regs.flashOpen = true) : step s = step s.closeFlash :=
  h.step_eq_step (h.move (q := s.regs.seqState) (m := s.regs.seqIdx) (o := false) rfl rfl rfl)
    ((State.continueSequence_lock_open hq ho).trans (congrArg _ (State.endUnits_of_lock hq)))
    (State.continueSequence_lock_closed hq rfl)

theorem step_lock_done (h : s.InSequence i n units verify) (hq : s.regs.seqState = .lock)
    (ho : s.regs.flashOpen = false) (hk : n ≤ s.regs.seqIdx) : step s = step (s.setSeq .verify) :=
  h.step_eq_step (h.move rfl (s.setSeq_seqAt _) rfl)
    ((State.continueSequence_lock_closed hq ho).trans (State.afterLock_of_done hk))
    (State.continueSequence_verify rfl ho)

theorem step_lock_left (h : s.InSequence i n units verify) (hq : s.regs.seqState = .lock)
    (ho : s.regs.flashOpen = false) (hk : s.regs.seqIdx < n) :
    ∃ t, step s = .next t ∧ t.regs.pstate = .responding ∧
      t.regs.status ∈ [s.cfg.stHardwareFault, s.cfg.stFlashTimeout] ∧
      t.env.trace = s.env.trace ∧ ∀ a, t.readByte a = s.readByte a := by
  obtain ⟨st, hst, hend⟩ := State.afterLock_finish_of_left (verify := verify) hk ho
  refine ⟨s.countDraw.respond st [], ?_, rfl, hst, rfl, fun _ => rfl⟩
  rw [h.step_eq, State.continueSequence_lock_closed hq ho, hend]

end State.InSequence

/-- Settles O60: each clause is the join of one position to the next; an erase and a program share theirs, as the
two sequences of `FlashSequence`. -/
theorem stepContinuesFromItsPosition : Obligations.StepContinuesFromItsPosition := by
  intro s hr
  refine ⟨fun hp => ⟨fun _ _ => step_of_length_heard hr hp, fun _ _ => step_of_body_heard hr hp,
    fun _ _ _ _ _ => step_of_crc_heard hr hp⟩, fun _ _ => step_of_allowed_erase hr, fun i n hp hd hi => ?_⟩
  obtain ⟨units, verify, h⟩ : ∃ units verify, s.InSequence i n units verify := by
    rcases hi with ⟨sector, count, rfl, rfl⟩ | ⟨address, data, rfl, rfl⟩
    · exact ⟨_, _, hr, hp, hd, .erase sector count⟩
    · exact ⟨_, _, hr, hp, hd, .program address data⟩
  exact ⟨h.step_idle, h.step_unlock_closed, h.step_unlock_open,
    fun hq ho => ⟨fun sector count k u hi hk hu => h.step_sector hi hq ho hk hu,
      fun address data u hi hk hu => h.step_word hi hq ho hk hu, h.step_units_done hq ho⟩,
    h.step_lock_open, fun hq ho => ⟨h.step_lock_done hq ho, h.step_lock_left hq ho⟩⟩

end Sys2Proof.Machine
end

section
/-! PROOFS. What any step does to the flash (`20_memory.md` R64, R65, R73, R81): one relation, `FlashEffect`, says at
once which bytes can change, what is asked of the ports, and that the flash calls lie in the lock bracket. It is
proved once per protocol state. -/

namespace Sys2Proof.Machine

/-! What a step does to the flash. -/

/-- Between `s` and `t` only bytes of `A` changed; every port call made is of the kind `P`, and from bracket `p` they
run to one that is not unlocked. -/
structure FlashEffect (A : Nat → Prop) (P : Event → Prop) (p : Bracket) (s t : State) : Prop where
  outside : ∀ a, ¬ A a → t.readByte a = s.readByte a
  calls : ∃ es q, t.env.trace = s.env.trace ++ es ∧ (∀ e ∈ es, P e) ∧ p.run es = some q ∧ q ≠ .unlocked

theorem FlashEffect.mono {A B : Nat → Prop} {P Q : Event → Prop} {p : Bracket} {s t : State}
    (h : FlashEffect A P p s t) (hA : ∀ a, A a → B a) (hP : ∀ e, P e → Q e) : FlashEffect B Q p s t where
  outside a ha := h.outside a fun hx => ha (hA a hx)
  calls := by
    obtain ⟨es, q, htrace, hes, hq⟩ := h.calls
    exact ⟨es, q, htrace, fun e he => hP e (hes e he), hq⟩

/-- A call of the transport or of the CPU, or a reset, has its place anywhere but in an open flash (R81). -/
theorem Bracket.next_of_not_ofCommand {p : Bracket} {e : Event} (hp : p ≠ .unlocked) (he : e.ofCommand = false) :
    p.next e = some p := by
  cases p with
  | unlocked => exact absurd rfl hp
  | before | after | reading => cases e <;> first | rfl | cases he

/-- Such a call asks nothing of the flash driver. -/
theorem asked_of_not_ofCommand (c : Cfg) {e : Event} (he : e.ofCommand = false) : Asked c e :=
  asked_of_read (fun k ans h => by subst h; cases he) fun a w ans h => by subst h; cases he

/-- Part of a step without a flash call. -/
theorem FlashEffect.of_quiet {A : Nat → Prop} {P : Event → Prop} {p : Bracket} {s t : State} {es : List Event}
    (hc : t.cfg = s.cfg) (hm : t.env.mem = s.env.mem) (htrace : t.env.trace = s.env.trace ++ es)
    (hes : ∀ e ∈ es, e.ofCommand = false) (hP : ∀ e : Event, e.ofCommand = false → P e) (hp : p ≠ .unlocked) :
    FlashEffect A P p s t where
  outside a _ := by rw [State.readByte_eq, State.readByte_eq, hc, hm]
  calls := ⟨es, p, htrace, fun e he => hP e (hes e he),
    Bracket.run_of_next fun e he => Bracket.next_of_not_ofCommand hp (hes e he), hp⟩

/-- Taking an error with no open flash makes no call (R304). -/
theorem State.raise_flashEffect_of_closed {A : Nat → Prop} {P : Event → Prop} {p : Bracket} {s : State} (e : Err)
    (hf : s.regs.flashOpen = false) (hp : p ≠ .unlocked) : FlashEffect A P p s (s.raise e) where
  outside a _ := by rw [State.readByte_eq, State.readByte_eq, State.raise_cfg, State.raise_mem]
  calls := ⟨[], p, by rw [State.raise_env_of_closed e hf, List.append_nil], by simp, rfl, hp⟩

/-- Taking an error with an open flash pays the owed lock (R304 (1)). -/
theorem State.raise_flashEffect_of_open {A : Nat → Prop} {P : Event → Prop} {s : State} {e : Err}
    (he : e ≠ .timeout) (hf : s.regs.flashOpen = true) (hP : P .flashLock) :
    FlashEffect A P .unlocked s (s.raise e) where
  outside a _ := by rw [State.readByte_eq, State.readByte_eq, State.raise_cfg, State.raise_mem]
  calls := by
    obtain ⟨st, hst⟩ := status_of_ne_timeout s.cfg he
    refine ⟨[.flashLock], .after, ?_, by simpa using hP, rfl, by simp⟩
    rw [State.raise_of_status hst, State.payLock_of_open hf]
    simp

/-- The end of a command adds no call: its own effect closed the flash (R229). -/
theorem Ran.Ends.flashEffect {n : Nat} {A : Nat → Prop} {P : Event → Prop} {p : Bracket} {s t : State} {r : Ran}
    (hr : r.Ends n A P p s) (hf : p = .unlocked ∨ s.regs.flashOpen = false) (ht : r.finish = .next t) :
    FlashEffect A P p s t := by
  have hend : ∀ {u q es}, Effect A P p q es s u → q ≠ .unlocked → t.cfg = u.cfg → t.env = u.env →
      FlashEffect A P p s t := fun {u q es} he hq hc henv =>
    { outside := fun a ha => by
        rw [← he.outside a ha, State.readByte_eq, State.readByte_eq, hc, henv]
      calls := ⟨es, q, by rw [henv, he.trace], fun e hm => (he.calls e hm).1, he.bracket, hq⟩ }
  match r, hr with
  | .done data u, ⟨_, q, es, hq, he⟩ =>
    cases ht
    exact hend he hq (u.succeed_cfg data) (by simp)
  | .raised e u, ⟨_, q, es, hq, he, _⟩ =>
    cases ht
    exact hend he hq (u.raise_cfg e) (State.raise_env_of_closed e (he.closed hq hf))
  | .stopped f, _ => cases ht

/-! The step, by protocol state. -/

section
variable {A : Nat → Prop} {P : Event → Prop} {p : Bracket} {s t : State}

/-- A reset is no call of the flash (R330, R332). -/
theorem step_flashEffect_of_reset (ht : step s = .next t) (hr : s.env.resetPending = true)
    (hP : ∀ e : Event, e.ofCommand = false → P e) (hp : p ≠ .unlocked) : FlashEffect A P p s t := by
  have hreset : step s = .next s.deviceReset := if_pos hr
  obtain rfl : s.deviceReset = t := by rw [hreset] at ht; cases ht; rfl
  exact .of_quiet (es := [.deviceReset]) (by simp) (by simp) (by simp) (List.forall_mem_singleton.mpr rfl) hP hp

/-- `AwaitingFrame` calls `Rx` only (R140). -/
theorem State.receive_flashEffect (h : s.receive = .next t) (hf : s.regs.flashOpen = false)
    (hP : ∀ e : Event, e.ofCommand = false → P e) (hp : p ≠ .unlocked) : FlashEffect A P p s t := by
  obtain ⟨u, hu, hend⟩ := State.receive_next h
  obtain ⟨q, es, henv, hrx⟩ := hu.env
  have hrx' : ∀ e ∈ es, e.ofCommand = false := fun e he => by
    have := hrx e he
    cases e <;> first | rfl | cases this
  have hfu : u.regs.flashOpen = false := by rw [hu.regs]; exact hf
  have hquiet : t.cfg = u.cfg → t.env = u.env → FlashEffect A P p s t := fun hc he =>
    .of_quiet (hc.trans hu.cfg) (by rw [he, henv]) (by rw [he, henv]) hrx' hP hp
  rcases hend with ⟨_, rfl⟩ | ⟨_, rfl⟩ | ⟨_, rfl⟩ | ⟨_, rfl⟩
  · exact hquiet rfl rfl
  all_goals exact hquiet (u.raise_cfg _) (State.raise_env_of_closed _ hfu)

/-- `Responding` calls `Tx` and, at the hand-off, the CPU (R178, R274). -/
theorem State.answer_flashEffect (h : exec s.response s = .next t) (hP : ∀ e : Event, e.ofCommand = false → P e)
    (hp : p ≠ .unlocked) : FlashEffect A P p s t := by
  obtain ⟨code, status, data, rfl | rfl⟩ := State.answer_next h
  · exact .of_quiet (es := [.tx (frame s.cfg code (status :: data)), .cpuDisableInterrupts,
        .cpuRelocateVectorTable s.regs.argAddr, .cpuSetStackPointer s.regs.hoSp, .cpuJump s.regs.hoEntry])
      (by simp) (by simp) (by simp) (by simp only [List.forall_mem_cons]; exact ⟨rfl, rfl, rfl, rfl, rfl, by simp⟩)
      hP hp
  · exact .of_quiet (es := [.tx (frame s.cfg code (status :: data))]) (by simp) (by simp) (by simp)
      (List.forall_mem_singleton.mpr rfl) hP hp

end

/-- Between commands, with no open flash, a step changes bytes of the command in the receive registers only, and
asks the driver for what that command asks for only. -/
theorem step_flashEffect_of_closed {s t : State} (ht : step s = .next t) (hr : s.env.resetPending = false)
    (hp : s.regs.pstate ≠ .executing) (hf : s.regs.flashOpen = false) :
    FlashEffect (fun a => ∃ i, commandArea s.cfg i a) (Asked s.cfg) .before s t := by
  have hP : ∀ e : Event, e.ofCommand = false → Asked s.cfg e := fun _ => asked_of_not_ofCommand s.cfg
  rcases step_next ht with ⟨hr', _⟩ | ⟨_, ⟨_, hx⟩ | ⟨_, ⟨i, _, hi, hx⟩ | ⟨e, _, rfl⟩⟩ | ⟨hp', _⟩ | ⟨_, hx⟩⟩
  · rw [hr] at hr'; cases hr'
  · exact State.receive_flashEffect hx hf hP (by simp)
  · obtain ⟨r, hends, hfin⟩ := exec_command_ends hi hx
    exact (hends.flashEffect (.inr hf) hfin).mono (fun a ha => ⟨i, ha⟩) fun _ => id
  · obtain ⟨houtside, hcalls⟩ := s.setCmd.raise_flashEffect_of_closed (p := .before) e hf (by simp)
    exact ⟨houtside, hcalls⟩
  · exact absurd hp' hp
  · exact State.answer_flashEffect hx hP (by simp)

/-- A state of the invariant stands between commands, or its next step is a reset. -/
theorem State.Inv.step_flashEffect {s t : State} (h : s.Inv) (ht : step s = .next t) :
    FlashEffect (fun a => ∃ i, commandArea s.cfg i a) (Asked s.cfg) .before s t := by
  by_cases hr : s.env.resetPending = true
  · exact step_flashEffect_of_reset ht hr (fun _ => asked_of_not_ofCommand s.cfg) (by simp)
  · have hr' : s.env.resetPending = false := by simpa using hr
    have hp : s.regs.pstate ≠ .handedOff := fun hp => by simp [step, hr', hp] at ht
    exact step_flashEffect_of_closed ht hr' (h.live hp).notExecuting (h.live hp).closed

/-! What the bytes of a command are not. -/

/-- No command's bytes are reserved, and all lie in the flash space (R222, R225). -/
theorem commandArea_inside {c : Cfg} (hc : c.WellFormed) {i : Instr} {a : Nat} (h : commandArea c i a) :
    reservedAddr c a = false ∧ c.flashBase ≤ a ∧ a < c.flashEnd := by
  cases i with
  | flashErase sector count =>
    obtain ⟨hallowed, k, hk, hin⟩ := h
    obtain ⟨hlt, hfree⟩ := hallowed.sector hk
    refine ⟨?_, (cfgFacts hc).inSector_inFlash hlt hin⟩
    by_contra hres
    have hout := (cfgFacts hc).reserved_outside hlt hfree (by simpa using hres)
    rw [hin] at hout; cases hout
  | memWrite address data =>
    obtain ⟨⟨_, _, hfree, _, hbase, hend⟩, hlow, hhigh⟩ := h
    have hres := hfree (a - address.toNat) (by omega)
    rw [Nat.add_sub_cancel' hlow] at hres
    exact ⟨hres, by omega, by omega⟩
  | _ => exact h.elim

/-- Settles O58: the bytes a step can change are those of a command that passed its checks. -/
theorem reservedBytesNeverChange : Obligations.ReservedBytesNeverChange := by
  intro s t h ht a ha
  refine (h.step_flashEffect ht).outside a fun ⟨i, hi⟩ => ?_
  obtain ⟨hfree, hbase, hend⟩ := commandArea_inside h.cfg hi
  rcases ha with hres | hlow | hhigh
  · rw [hfree] at hres; cases hres
  · omega
  · omega

/-- Settles O59. -/
theorem driverCallsArePermitted : Obligations.DriverCallsArePermitted := by
  intro s t h ht
  obtain ⟨es, _, htrace, hasked, _⟩ := (h.step_flashEffect ht).calls
  exact ⟨es, htrace, fun e he => hasked e he h.cfg⟩

/-! The bracket of any step, a sequence taken up in the middle included. -/

theorem State.bracket_of_open {s : State} (hf : s.regs.flashOpen = true) : s.bracket = .unlocked := if_pos hf

theorem State.bracket_ne_unlocked {s : State} (hf : s.regs.flashOpen = false) : s.bracket ≠ .unlocked := by
  rw [State.bracket, hf, if_neg (by simp)]
  split <;> simp

/-- Where no sequence has begun, no flash call has been made. -/
theorem State.bracket_of_closed {s : State} (hf : s.regs.flashOpen = false)
    (hp : s.regs.pstate ≠ .executing ∨ s.regs.seqState = .idle) : s.bracket = .before := by
  rw [State.bracket, hf, if_neg (by simp), if_neg]
  rintro ⟨hx, hq⟩
  rcases hp with hp | hp
  · exact hp hx
  · rw [hp] at hq; simp at hq

theorem State.bracket_open_or_closed (s : State) : s.bracket = .unlocked ∨ s.regs.flashOpen = false := by
  cases hf : s.regs.flashOpen
  · exact .inr rfl
  · exact .inl (State.bracket_of_open hf)

/-- `Executing`, from wherever it is taken up (R33): an open flash is locked at the end. -/
theorem step_flashEffect_of_executing {s t : State} (ht : step s = .next t) (hr : s.env.resetPending = false)
    (hp : s.regs.pstate = .executing) (ho : s.regs.flashOpen = true → s.regs.seqState ≠ .idle) :
    FlashEffect (fun _ => True) (fun _ => True) s.bracket s t := by
  have hb : (if s.regs.seqState = .idle then .before else s.bracket) = s.bracket := by
    split
    · next hq => exact (State.bracket_of_closed (by simpa [hq] using ho) (.inr hq)).symm
    · rfl
  rcases step_next ht with ⟨hr', _⟩ | ⟨_, ⟨hp', _⟩ | ⟨hp', _⟩ | ⟨_, ⟨i, _, hx⟩ | ⟨e, he, rfl⟩⟩ | ⟨hp', _⟩⟩
  · rw [hr] at hr'; cases hr'
  · rw [hp] at hp'; cases hp'
  · rw [hp] at hp'; cases hp'
  · have hends := takenUp_ends i hp
    rw [hb] at hends
    exact hends.flashEffect s.bracket_open_or_closed hx
  · cases hf : s.regs.flashOpen
    · exact s.raise_flashEffect_of_closed e hf (State.bracket_ne_unlocked hf)
    · rw [State.bracket_of_open hf]
      exact State.raise_flashEffect_of_open (by rcases he with rfl | rfl <;> simp) hf trivial
  · rw [hp] at hp'; cases hp'

/-- Settles O54: a reset makes no flash call; otherwise the step is one in `Executing`, or one between commands. -/
theorem flashCallsAreBracketed : Obligations.FlashCallsAreBracketed := by
  intro s t ho ht
  suffices h : FlashEffect (fun _ => True) (fun _ => True) s.bracket s t by
    obtain ⟨es, q, htrace, _, hrun, hq⟩ := h.calls
    exact ⟨es, q, htrace, hrun, hq⟩
  by_cases hr : s.env.resetPending = true
  · have hf : s.regs.flashOpen = false := by
      by_contra hf
      obtain ⟨_, _, hr'⟩ := ho (by simpa using hf)
      rw [hr] at hr'; cases hr'
    exact step_flashEffect_of_reset ht hr (fun _ _ => trivial) (State.bracket_ne_unlocked hf)
  · have hr' : s.env.resetPending = false := by simpa using hr
    by_cases hp : s.regs.pstate = .executing
    · exact step_flashEffect_of_executing ht hr' hp fun hf => (ho hf).2.1
    · have hf : s.regs.flashOpen = false := by
        by_contra hf
        exact hp (ho (by simpa using hf)).1
      rw [State.bracket_of_closed hf (.inl hp)]
      exact (step_flashEffect_of_closed ht hr' hp hf).mono (fun _ _ => trivial) fun _ _ => trivial

end Sys2Proof.Machine
end

section
/-! PROOFS. The byte orders of the crc on the wire and of a flash word (`20_memory.md` R74, R75 (b)). -/

namespace Sys2Proof.Machine

/-- Settles O6: the assembly is `crcOfBytes_crcBytes`. -/
theorem crcBytesOnTheWire : Obligations.CrcBytesOnTheWire := by
  intro v
  refine ⟨rfl, rfl, fun o b0 b1 b2 b3 h => ?_⟩
  have hassembled := crcOfBytes_crcBytes o v
  rwa [h] at hassembled

theorem leValue_lt (d : List Byte) : leValue d < 256 ^ d.length := by
  induction d with
  | nil => simp [leValue]
  | cons b d ih =>
    have hb := b.isLt
    rw [leValue, List.length_cons, Nat.pow_succ]
    omega

/-- Storing a word gives its data bytes back (R75 (b)). -/
theorem wordBytesOf_leValue (d : List Byte) : wordBytesOf d.length (leValue d) = d := by
  induction d with
  | nil => rfl
  | cons b d ih =>
    have hhead : BitVec.ofNat 8 (b.toNat + 256 * leValue d) = b := by
      apply BitVec.eq_of_toNat_eq
      have hb := b.isLt
      simp only [BitVec.toNat_ofNat]
      omega
    have htail : (b.toNat + 256 * leValue d) / 256 = leValue d := by
      have hb := b.isLt
      omega
    rw [leValue, List.length_cons, wordBytesOf, hhead, htail, ih]

/-- Settles O7. -/
theorem flashWordHoldsItsBytes : Obligations.FlashWordHoldsItsBytes := fun d =>
  ⟨leValue_lt d, wordBytesOf_leValue d⟩

end Sys2Proof.Machine
end

section
/-! PROOFS. The write protection as the reference driver enforces it (`20_memory.md` R70, R79; log 13): what a
protected unit answers, what that makes of an erase and of a MEM_WRITE, and the two protection commands. A word lies in
one sector whole, because sectors begin at word boundaries (R12). -/

namespace Sys2Proof.Machine

/-! Sectors and words. -/

theorem sectorsFrom_aligned {w limit base : Nat} {l : List Sector} (h : Cfg.sectorsFrom w limit base l = true)
    (hbase : base % w = 0) : ∀ sec ∈ l, sec.base % w = 0 := by
  induction l generalizing base with
  | nil => simp
  | cons first rest ih =>
    simp only [Cfg.sectorsFrom, Bool.and_eq_true, beq_iff_eq, decide_eq_true_eq] at h
    obtain ⟨⟨⟨hfirst, _⟩, hsize⟩, hrest⟩ := h
    have hnext : (base + first.size) % w = 0 := by rw [Nat.add_mod, hbase, hsize]; simp
    exact List.forall_mem_cons.mpr ⟨by rw [hfirst]; exact hbase, ih hrest hnext⟩

/-- Sectors begin at word boundaries (R12). -/
theorem CfgFacts.sectorBase_aligned {c : Cfg} (h : CfgFacts c) {k : Nat} (hk : k < c.nsectors) :
    sectorBase c k % c.wordBytes = 0 := by
  have hk' : k < c.sectors.length := hk
  rw [sectorBase, List.getD_eq_getElem _ _ hk']
  exact sectorsFrom_aligned h.sectors h.baseAligned _ (List.getElem_mem hk')

/-- The word of a byte of a sector begins in that sector. -/
theorem CfgFacts.word_inSector {c : Cfg} (h : CfgFacts c) {k a x : Nat} (hk : k < c.nsectors)
    (ha : a % c.wordBytes = 0) (hx : Memory.Covers a c.wordBytes x) (hin : inSector c k x = true) :
    inSector c k a = true := by
  have hpos := h.wordBytes_pos
  obtain ⟨hlow, hhigh⟩ := (inSector_iff c k x).mp hin
  obtain ⟨p, hp⟩ := Nat.dvd_of_mod_eq_zero (h.sectorBase_aligned hk)
  obtain ⟨q, hq⟩ := Nat.dvd_of_mod_eq_zero ha
  obtain ⟨hax, hxa⟩ := hx
  have hpq : p < q + 1 := by
    have hlt : c.wordBytes * p < c.wordBytes * (q + 1) := by rw [Nat.mul_add]; omega
    exact Nat.lt_of_mul_lt_mul_left hlt
  have hle : c.wordBytes * p ≤ c.wordBytes * q := Nat.mul_le_mul_left _ (by omega)
  exact (inSector_iff c k a).mpr ⟨by omega, by omega⟩

/-- The words of an allowed request are aligned. -/
theorem programUnits_aligned {w a : Nat} {data : List Byte} (ha : a % w = 0) {u : Nat × List Byte}
    (hu : u ∈ programUnits w a data) : u.1 % w = 0 := by
  obtain ⟨i, _, rfl⟩ := mem_programUnits hu
  rw [Nat.add_mul_mod_self_right]; exact ha

/-- Every byte of a request of whole words is in one of them. -/
theorem exists_mem_programUnits_covers {w a i : Nat} {data : List Byte} (hw : 0 < w) (hn : data.length % w = 0)
    (hi : i < data.length) : ∃ u ∈ programUnits w a data, Memory.Covers u.1 w (a + i) := by
  have hlt : i / w < data.length / w := Nat.div_lt_div_of_lt_of_dvd (Nat.dvd_of_mod_eq_zero hn) hi
  have hsplit := Nat.div_add_mod' i w
  have hmod := Nat.mod_lt i hw
  exact ⟨(a + i / w * w, (data.drop (i / w * w)).take w),
    List.mem_map.mpr ⟨i / w, List.mem_range.mpr hlt, rfl⟩, by dsimp only; omega, by dsimp only; omega⟩

/-- The first word of a request begins at its address. -/
theorem programUnits_head {w a : Nat} {data : List Byte} (h : 0 < data.length / w) :
    (programUnits w a data).head? = some (a, data.take w) := by
  have hdrop := programUnits_drop (a := a) h
  rw [List.drop_zero] at hdrop
  rw [hdrop, List.head?_cons, Nat.zero_mul, Nat.add_zero, List.drop_zero]

/-! What a protected unit answers. -/

theorem State.writeProtected_of_eq {s t : State} (hc : t.cfg = s.cfg) (hd : t.env.driver = s.env.driver) (a : Nat) :
    t.writeProtected a = s.writeProtected a := by rw [State.writeProtected, State.writeProtected, hc, hd]

theorem CfgFacts.writeProtected_of_inSector {s : State} (h : CfgFacts s.cfg) {k a : Nat} (hk : k < s.cfg.nsectors)
    (hin : inSector s.cfg k a = true) (hw : k ∈ s.env.driver.wprot) : s.writeProtected a = true := by
  rw [State.writeProtected, h.sectorOf_eq hk hin]
  exact List.contains_iff_mem.mpr hw

/-- A write-protected sector is not erased (R70). -/
theorem State.portFlashEraseSector_of_protected {s : State} {k : Nat} (hp : s.env.unitPlan = [])
    (hw : k ∈ s.env.driver.wprot) :
    s.portFlashEraseSector k = (.hardwareFault, s.log (.flashEraseSector k .hardwareFault)) := by
  rw [State.portFlashEraseSector_eq]
  simp [eraseResult, hp, hw, State.log]

/-- A word in a write-protected sector is not programmed (R70). -/
theorem State.portFlashProgramWord_of_protected {s : State} {a : Nat} (w : Nat) (hp : s.env.unitPlan = [])
    (hw : s.writeProtected a = true) :
    s.portFlashProgramWord a w = (.hardwareFault, s.log (.flashProgramWord a w .hardwareFault)) := by
  rw [State.portFlashProgramWord_eq]
  simp [programResult, hp, hw, State.log]

/-- The reference driver never answers a program call by `Timeout` (R70). -/
theorem State.portFlashProgramWord_ok_or_fault {s : State} (a w : Nat) (hp : s.env.unitPlan = []) :
    (s.portFlashProgramWord a w).1 = .ok ∨ (s.portFlashProgramWord a w).1 = .hardwareFault := by
  rw [State.portFlashProgramWord_eq, hp]
  dsimp only [List.headD_nil, programResult]
  split
  · exact .inr rfl
  · split <;> exact .inl rfl

theorem State.portFlashProgramWord_unitPlan {s : State} (a w : Nat) (hp : s.env.unitPlan = []) :
    (s.portFlashProgramWord a w).2.env.unitPlan = [] := by rw [State.portFlashProgramWord_eq, hp]; rfl

/-- A program request that asks for a protected word ends in HardwareFault (R229). -/
theorem programWords_of_protected {us : List (Nat × List Byte)} {s : State} (hp : s.env.unitPlan = [])
    (hw : ∃ u ∈ us, s.writeProtected u.1 = true) : (programWords us s).1 = some .hardwareFault := by
  induction us generalizing s with
  | nil => obtain ⟨u, hu, _⟩ := hw; cases hu
  | cons u us ih =>
    rw [programWords_cons]
    have htouch := s.portFlashProgramWord_touches u.1 (leValue u.2)
    rcases s.portFlashProgramWord_ok_or_fault u.1 (leValue u.2) hp with hans | hans <;> rw [hans]
    · refine ih (s.portFlashProgramWord_unitPlan u.1 (leValue u.2) hp) ?_
      obtain ⟨v, hv, hvw⟩ := hw
      rcases List.mem_cons.mp hv with rfl | hv
      · rw [State.portFlashProgramWord_of_protected _ hp hvw] at hans; cases hans
      · exact ⟨v, hv, (State.writeProtected_of_eq htouch.cfg htouch.driver v.1).trans hvw⟩
    · rfl

/-- A byte that only protected words of the request cover is kept. -/
theorem programWords_keeps_protected {us : List (Nat × List Byte)} {s : State} {x : Nat} (hp : s.env.unitPlan = [])
    (hw : ∀ u ∈ us, Memory.Covers u.1 s.cfg.wordBytes x → s.writeProtected u.1 = true) :
    (programWords us s).2.readByte x = s.readByte x := by
  induction us generalizing s with
  | nil => rfl
  | cons u us ih =>
    obtain ⟨hu, hus⟩ := List.forall_mem_cons.mp hw
    have htouch := s.portFlashProgramWord_touches u.1 (leValue u.2)
    have hcall : (s.portFlashProgramWord u.1 (leValue u.2)).2.readByte x = s.readByte x := by
      by_cases hx : Memory.Covers u.1 s.cfg.wordBytes x
      · rw [State.portFlashProgramWord_of_protected _ hp (hu hx)]; rfl
      · exact htouch.outside x hx
    rw [programWords_cons]
    cases (s.portFlashProgramWord u.1 (leValue u.2)).1.err with
    | some e => exact hcall
    | none =>
      refine (ih (s := (s.portFlashProgramWord u.1 (leValue u.2)).2.nextUnit)
        (s.portFlashProgramWord_unitPlan u.1 (leValue u.2) hp) fun v hv hx => ?_).trans hcall
      exact (State.writeProtected_of_eq htouch.cfg htouch.driver v.1).trans (hus v hv (by rwa [← htouch.cfg]))

/-- Nothing is programmed when the first word is protected. -/
theorem programWords_of_head_protected {u : Nat × List Byte} {us : List (Nat × List Byte)} {s : State}
    (hhead : us.head? = some u) (hp : s.env.unitPlan = []) (hw : s.writeProtected u.1 = true) (x : Nat) :
    (programWords us s).2.readByte x = s.readByte x := by
  obtain ⟨vs, rfl⟩ := List.head?_eq_some_iff.mp hhead
  rw [programWords_cons, State.portFlashProgramWord_of_protected _ hp hw]
  rfl

/-! The commands that pass their checks. -/

theorem exec_flashErase_of_allowed {s : State} {sector count : Byte} (ha : EraseAllowed s.cfg sector count) :
    ∃ u : State, exec (.flashErase sector count) s = u.eraseSequence.finish ∧ u.cfg = s.cfg ∧ u.env = s.env ∧
      u.regs.seqList = eraseRequest s.cfg sector count :=
  ⟨_, runCommand_of_done (run := runFlashErase) (checkFlashErase_of_allowed ha), rfl, rfl, rfl⟩

theorem checkMemWrite_of_allowed {s : State} {a n : Nat} (ha : ProgramAllowed s.cfg a n) :
    checkMemWrite a n s = .done [] s := by
  obtain ⟨haddr, hlen, hfree, hrange⟩ := ha
  rcases checkMemWrite_cases a n s with ⟨_, hal | hal⟩ | ⟨_, _, _, i, hi, hres⟩ | ⟨_, _, _, _, hout⟩ | ⟨hdone, _⟩
  · exact absurd haddr hal
  · exact absurd hlen hal
  · rw [hfree i hi] at hres; cases hres
  · exact absurd hrange hout
  · exact hdone

theorem exec_memWrite_of_allowed {s : State} {address : Word} {data : List Byte}
    (ha : ProgramAllowed s.cfg address.toNat data.length) :
    ∃ u : State, exec (.memWrite address data) s = (u.programSequence address.toNat data).finish ∧
      u.cfg = s.cfg ∧ u.env = s.env :=
  ⟨_, runCommand_of_done (run := runMemWrite address data) (checkMemWrite_of_allowed ha), rfl, rfl⟩

/-- The response to an error carries its status (R304). -/
theorem State.raise_status {s : State} {e : Err} {st : Byte} (h : s.cfg.status e = some st) :
    (s.raise e).regs.status = st := by rw [State.raise_of_status h, State.respond_regs]

/-- Taking an error changes no byte. -/
theorem State.raise_readByte (s : State) (e : Err) (a : Nat) : (s.raise e).readByte a = s.readByte a := by
  rw [State.readByte_eq, State.readByte_eq, State.raise_cfg, State.raise_mem]

/-! An erase of one sector, and a program, against the protection. -/

theorem eraseRequest_one {c : Cfg} {sector : Byte} (hm : c.massErase ≠ some sector) :
    eraseRequest c sector 1 = [sector.toNat] := by
  rw [eraseRequest, if_neg (by simpa [isMassErase] using hm)]
  rfl

/-- FLASH_ERASE of a protected sector ends in HardwareFault and changes nothing. -/
theorem exec_flashErase_of_protected {s : State} {sector : Byte} (ha : EraseAllowed s.cfg sector 1)
    (hm : s.cfg.massErase ≠ some sector) (hp : s.env.unitPlan = []) (hw : sector.toNat ∈ s.env.driver.wprot) :
    ∃ u, exec (.flashErase sector 1) s = .next u ∧ u.regs.status = s.cfg.stHardwareFault ∧
      ∀ a, u.readByte a = s.readByte a := by
  obtain ⟨v, hexec, hcfg, henv, hlist⟩ := exec_flashErase_of_allowed ha
  have hcall : v.beginUnits.portFlashEraseSector sector.toNat = _ :=
    State.portFlashEraseSector_of_protected (by simpa [henv] using hp) (by simpa [henv] using hw)
  have hunits : eraseUnits v.regs.seqList v.beginUnits
      = (some .hardwareFault, v.beginUnits.log (.flashEraseSector sector.toNat .hardwareFault)) := by
    rw [hlist, eraseRequest_one hm, eraseUnits_cons, hcall]
    rfl
  rw [hexec, State.eraseSequence_of_fault hunits]
  refine ⟨_, rfl, State.raise_status (by simp [hcfg, Cfg.status]), fun a => ?_⟩
  simp [hcfg, henv]

/-- FLASH_ERASE of a sector that is not protected succeeds. -/
theorem exec_flashErase_of_unprotected {s : State} {sector : Byte} (ha : EraseAllowed s.cfg sector 1)
    (hm : s.cfg.massErase ≠ some sector) (hp : s.env.unitPlan = []) (hw : sector.toNat ∉ s.env.driver.wprot) :
    ∃ u, exec (.flashErase sector 1) s = .next u ∧ u.regs.status = s.cfg.stOk := by
  obtain ⟨v, hexec, hcfg, henv, hlist⟩ := exec_flashErase_of_allowed ha
  rw [eraseRequest_one hm] at hlist
  have hunits := eraseUnits_ok v.regs.seqList v.beginUnits (by simp) (by simpa [henv, hlist] using hw)
    (by simp [henv, hp])
  have hverify := (State.eraseSequence_of_units hunits).trans (State.eraseVerify_eq _)
  rw [if_pos] at hverify
  · rw [hexec, hverify]
    exact ⟨_, rfl, by simp [hcfg]⟩
  · refine List.all_eq_true.mpr fun k hk => (Memory.erasedOn_iff _ _ _ _).mpr fun x hx => ?_
    have hk' : k ∈ v.regs.seqList := by simpa using hk
    have hx' : inSector v.cfg k x = true := (inSector_iff _ _ _).mpr (by simpa using hx)
    simp only [State.setSeq_cfg, State.setSeq_env, State.endUnits_cfg, State.endUnits_env, State.beginUnits_cfg,
      read_eraseSectors]
    exact if_pos (List.any_eq_true.mpr ⟨k, hk', hx'⟩)

/-- A program request with a protected word ends in HardwareFault after the owed lock (R229). -/
theorem State.programSequence_of_protected {s : State} {a : Nat} {data : List Byte} (hp : s.env.unitPlan = [])
    (hw : ∃ u ∈ programUnits s.cfg.wordBytes a data, s.writeProtected u.1 = true) :
    s.programSequence a data =
      .raised .hardwareFault (programWords (programUnits s.cfg.wordBytes a data) s.beginUnits).2.endUnits :=
  State.programSequence_of_fault (Prod.ext (programWords_of_protected (s := s.beginUnits) (by simpa using hp) hw) rfl)

/-- An allowed MEM_WRITE with a word in a protected sector ends in HardwareFault; it keeps every byte that only
protected words cover, and all bytes when the first word is protected. -/
theorem exec_memWrite_of_protected {s : State} {address : Word} {data : List Byte}
    (ha : ProgramAllowed s.cfg address.toNat data.length) (hp : s.env.unitPlan = [])
    (hw : ∃ u ∈ programUnits s.cfg.wordBytes address.toNat data, s.writeProtected u.1 = true) :
    ∃ t, exec (.memWrite address data) s = .next t ∧ t.regs.status = s.cfg.stHardwareFault ∧
      (∀ x, (∀ u ∈ programUnits s.cfg.wordBytes address.toNat data,
          Memory.Covers u.1 s.cfg.wordBytes x → s.writeProtected u.1 = true) → t.readByte x = s.readByte x) ∧
      (∀ u, (programUnits s.cfg.wordBytes address.toNat data).head? = some u → s.writeProtected u.1 = true →
        ∀ x, t.readByte x = s.readByte x) := by
  obtain ⟨v, hexec, hcfg, henv⟩ := exec_memWrite_of_allowed ha
  have hprot : ∀ a, v.writeProtected a = s.writeProtected a :=
    State.writeProtected_of_eq hcfg (by rw [henv])
  have hplan : v.beginUnits.env.unitPlan = [] := by simpa [henv] using hp
  rw [← hcfg] at hw ⊢
  simp only [← hprot] at hw ⊢
  rw [hexec, State.programSequence_of_protected (by simpa using hplan) hw]
  obtain ⟨_, htouch, _⟩ := programWords_touches (programUnits v.cfg.wordBytes address.toNat data) v.beginUnits
  have hend : ∀ x, ((programWords (programUnits v.cfg.wordBytes address.toNat data) v.beginUnits).2.endUnits.raise
      .hardwareFault).readByte x
        = (programWords (programUnits v.cfg.wordBytes address.toNat data) v.beginUnits).2.readByte x := fun x => by
    rw [State.raise_readByte]; simp
  have hbegin : ∀ x, v.beginUnits.readByte x = s.readByte x := fun x => by simp [hcfg, henv]
  refine ⟨_, rfl, State.raise_status ?_, fun x hx => ?_, fun u hu hfirst x => ?_⟩
  · rw [State.endUnits_cfg, htouch.cfg, State.beginUnits_cfg]; rfl
  · rw [hend, ← hbegin]
    exact programWords_keeps_protected hplan hx
  · rw [hend, ← hbegin]
    exact programWords_of_head_protected hu hplan hfirst x

/-! The protection commands of the reference driver (R235, R236; log 13). -/

/-- A mask that selects only sectors the flash has is in range (R235). -/
theorem mask_lt_of_getLsbD {mask : Half} {n : Nat} (h : ∀ k, n ≤ k → mask.getLsbD k = false) : mask.toNat < 2 ^ n :=
  Nat.lt_pow_two_of_testBit _ h

theorem checkEnableRwProtect_of_allowed {s : State} {mask : Half} {mode : Byte} (hmask : mask ≠ 0)
    (hrange : mask.toNat < 2 ^ s.cfg.nsectors) (hmode : mode = 1 ∨ mode = 2) :
    checkEnableRwProtect mask mode s = .done [] s := by
  rcases checkEnableRwProtect_cases mask mode s with ⟨_, hbad⟩ | ⟨hdone, _⟩
  · exact absurd hbad (by push Not; exact ⟨hmask, hrange, hmode⟩)
  · exact hdone

theorem State.portFlashEnableProtection_of_reference {s : State} (mask : Half) (mode : Byte)
    (hp : s.env.protPlan = []) :
    s.portFlashEnableProtection mask mode =
      (.ok, (s.setDriver (s.env.driver.enable s.cfg mask mode)).log (.flashEnableProtection mask mode .ok)) := by
  simp only [State.portFlashEnableProtection, State.protectionCall, State.nextProtPlan, hp]

theorem State.portFlashDisableProtection_of_reference {s : State} (hp : s.env.protPlan = []) :
    s.portFlashDisableProtection =
      (.ok, (s.setDriver s.env.driver.disable).log (.flashDisableProtection .ok)) := by
  simp only [State.portFlashDisableProtection, State.protectionCall, State.nextProtPlan, hp]

/-- ENABLE_RW_PROTECT adds the selected sectors to what the driver protects. -/
theorem exec_enableRwProtect_of_reference {s : State} {mask : Half} {mode : Byte} (hp : s.env.protPlan = [])
    (hmask : mask ≠ 0) (hrange : mask.toNat < 2 ^ s.cfg.nsectors) (hmode : mode = 1 ∨ mode = 2) :
    ∃ t, exec (.enableRwProtect mask mode) s = .next t ∧ t.regs.status = s.cfg.stOk ∧ t.cfg = s.cfg ∧
      t.env = { s.env with
        driver := s.env.driver.enable s.cfg mask mode
        trace := s.env.trace ++ [.flashEnableProtection mask mode .ok] } := by
  let u : State := (s.accept .enableRwProtect fun r => { r with argMask := mask, argMode := mode }).enterExecuting
  have hexec : exec (.enableRwProtect mask mode) s = (runEnableRwProtect mask mode u).finish :=
    runCommand_of_done (run := runEnableRwProtect mask mode) (checkEnableRwProtect_of_allowed hmask hrange hmode)
  rw [hexec, runEnableRwProtect, State.portFlashEnableProtection_of_reference (s := u) mask mode hp]
  exact ⟨_, rfl, rfl, rfl, rfl⟩

/-- DISABLE_RW_PROTECT leaves no sector protected. -/
theorem exec_disableRwProtect_of_reference {s : State} (hp : s.env.protPlan = []) :
    ∃ t, exec .disableRwProtect s = .next t ∧ t.cfg = s.cfg ∧
      t.env = { s.env with
        driver := s.env.driver.disable, trace := s.env.trace ++ [.flashDisableProtection .ok] } := by
  let u : State := (s.accept .disableRwProtect id).enterExecuting
  have hexec : exec .disableRwProtect s = (runDisableRwProtect u).finish := runCommand_of_done (noCheck_eq _)
  rw [hexec, runDisableRwProtect, State.portFlashDisableProtection_of_reference (s := u) hp]
  exact ⟨_, rfl, rfl, rfl⟩

theorem DriverStatus.mem_wprot_enable {c : Cfg} {d : DriverStatus} {mask : Half} {mode : Byte} {k : Nat}
    (hk : k < c.nsectors) (hm : mask.getLsbD k = true) : k ∈ (d.enable c mask mode).wprot := by
  simp [DriverStatus.enable, hk, hm]

/-- The erase of one sector that the flash has and that holds no bootloader is allowed (R222). -/
theorem eraseAllowed_one {c : Cfg} {sector : Byte} (hk : sector.toNat < c.nsectors)
    (hfree : sector.toNat ∉ c.reserved) : EraseAllowed c sector 1 := by
  have hone : (1 : Byte).toNat = 1 := rfl
  refine .inr ⟨fun k hk' ⟨hlow, hhigh⟩ => hfree ?_, by decide, by omega⟩
  obtain rfl : sector.toNat = k := by omega
  exact hk'

/-- Settles O46: the sector is in WPROT from the one protection command to the other. -/
theorem protectedSectorRefusesErase : Obligations.ProtectedSectorRefusesErase := by
  intro s mask mode sector hcfg _ hhigh hmode hprot hunit hbit hfree hmass
  have hfacts := cfgFacts hcfg
  have hk : sector.toNat < s.cfg.nsectors := by
    by_contra hk
    rw [hhigh _ (by omega)] at hbit; cases hbit
  have hmask : mask ≠ 0 := by rintro rfl; simp at hbit
  obtain ⟨t, hexec, hstatus, htcfg, htenv⟩ :=
    exec_enableRwProtect_of_reference hprot hmask (mask_lt_of_getLsbD hhigh) hmode
  have hwprot : sector.toNat ∈ t.env.driver.wprot := by rw [htenv]; exact DriverStatus.mem_wprot_enable hk hbit
  have hread : ∀ a, t.readByte a = s.readByte a := fun a => by simp [htcfg, htenv]
  have htunit : t.env.unitPlan = [] := by rw [htenv]; exact hunit
  have hdisable := exec_disableRwProtect_of_reference (s := t) (by rw [htenv]; exact hprot)
  rw [← htcfg] at hfacts hk hfree hmass
  simp only [← hread, ← htcfg] at hstatus ⊢
  have hallowed := eraseAllowed_one hk hfree
  refine ⟨t, hexec, hstatus, exec_flashErase_of_protected hallowed hmass htunit hwprot,
    fun address data ha ⟨i, hi, hin⟩ => ?_, ?_⟩
  · have ⟨haddr, hlen, _⟩ := ha
    have hprotected : ∀ a, inSector t.cfg sector.toNat a = true → t.writeProtected a = true := fun a hina =>
      hfacts.writeProtected_of_inSector hk hina hwprot
    have hword : ∀ x, inSector t.cfg sector.toNat x = true → ∀ u ∈ programUnits t.cfg.wordBytes address.toNat data,
        Memory.Covers u.1 t.cfg.wordBytes x → t.writeProtected u.1 = true := fun x hx u hu hc =>
      hprotected _ (hfacts.word_inSector hk (programUnits_aligned haddr hu) hc hx)
    obtain ⟨u, hu, hcov⟩ := exists_mem_programUnits_covers (a := address.toNat) hfacts.wordBytes_pos hlen hi
    have hpos : 0 < data.length / t.cfg.wordBytes := by
      rw [← programUnits_length _ address.toNat]; exact List.length_pos_of_mem hu
    obtain ⟨v, hv, hfault, hkeeps, hfirst⟩ := exec_memWrite_of_protected ha htunit ⟨u, hu, hword _ hin u hu hcov⟩
    exact ⟨v, hv, hfault, fun a hina => hkeeps a (hword a hina),
      fun hina => hfirst _ (programUnits_head hpos) (hprotected _ hina)⟩
  · obtain ⟨v, hv, hvcfg, hvenv⟩ := hdisable
    rw [← hvcfg] at hallowed hmass ⊢
    obtain ⟨w, hw, hwok⟩ := exec_flashErase_of_unprotected hallowed hmass (by rw [hvenv]; exact htunit)
      (by rw [hvenv]; exact List.not_mem_nil)
    exact ⟨v, w, hv, hw, hwok⟩

end Sys2Proof.Machine
end

section
/-! PROOFS. Encoding and decoding (`30_encoding.md` R90 to R102). Each byte order gives back what it was given, in both
directions; a frame is its length byte, its body, their crc and nothing else (`readEnvelope_ok_iff`); a payload of the
size its command asks for (`payloadSize`) is the layout of its arguments, and the arguments are those of the layout.
The two round trips are these facts put together. -/

namespace Sys2Proof.Machine

/-! The byte orders (R74, R98). -/

theorem le16_byteOf16 (v : Half) : le16 (byteOf16 v 0) (byteOf16 v 1) = v := by
  apply BitVec.eq_of_getLsbD_eq
  intro i hi
  simp only [le16, byteOf16, BitVec.getLsbD_append, BitVec.getLsbD_extractLsb']
  by_cases hlow : i < 8
  · simp [hlow]
  · simp [hlow, show i - 8 < 8 by omega, show 8 + (i - 8) = i by omega]

theorem byteOf16_le16 (b0 b1 : Byte) : byteOf16 (le16 b0 b1) 0 = b0 ∧ byteOf16 (le16 b0 b1) 1 = b1 :=
  ⟨BitVec.extractLsb'_append_eq_right, BitVec.extractLsb'_append_eq_left⟩

theorem byteOf32_le32 (b0 b1 b2 b3 : Byte) :
    byteOf32 (le32 b0 b1 b2 b3) 0 = b0 ∧ byteOf32 (le32 b0 b1 b2 b3) 1 = b1 ∧
      byteOf32 (le32 b0 b1 b2 b3) 2 = b2 ∧ byteOf32 (le32 b0 b1 b2 b3) 3 = b3 :=
  ⟨(BitVec.extractLsb'_append_eq_of_add_le (by decide)).trans BitVec.extractLsb'_append_eq_right,
    (BitVec.extractLsb'_append_eq_of_add_le (by decide)).trans BitVec.extractLsb'_append_eq_left,
    (BitVec.extractLsb'_append_eq_of_le (by decide)).trans BitVec.extractLsb'_append_eq_right,
    (BitVec.extractLsb'_append_eq_of_le (by decide)).trans BitVec.extractLsb'_append_eq_left⟩

/-- The crc at the start of the bytes after a body is read back (R94). -/
theorem crcOfBytes_crcBytes_append (o : WireOrder) (v : Word) (rest : List Byte) :
    crcOfBytes o ((crcBytes o v ++ rest).getD 0 0) ((crcBytes o v ++ rest).getD 1 0)
      ((crcBytes o v ++ rest).getD 2 0) ((crcBytes o v ++ rest).getD 3 0) = v := by
  cases o <;> exact crcOfBytes_crcBytes .lsbFirst v

/-- The crc bytes of the word that the first four bytes assemble to are these bytes (R94). -/
theorem crcBytes_crcOfBytes (o : WireOrder) {w : List Byte} (h : 4 ≤ w.length) :
    crcBytes o (crcOfBytes o (w.getD 0 0) (w.getD 1 0) (w.getD 2 0) (w.getD 3 0)) = w.take 4 := by
  match w, h with
  | b0 :: b1 :: b2 :: b3 :: _, _ => cases o <;> simp [crcBytes, crcOfBytes, byteOf32_le32]

theorem fieldBytes32_field32 (o : FieldOrder) (b0 b1 b2 b3 : Byte) :
    fieldBytes32 o (field32 o b0 b1 b2 b3) = [b0, b1, b2, b3] := by
  cases o <;> simp [fieldBytes32, field32, byteOf32_le32]

theorem fieldBytes16_field16 (o : FieldOrder) (b0 b1 : Byte) :
    fieldBytes16 o (field16 o b0 b1) = [b0, b1] := by
  cases o <;> simp [fieldBytes16, field16, byteOf16_le16]

/-! Fields of a payload. -/

/-- A u32 field at the start of a payload is read back (R98). -/
theorem addressField_fieldBytes32_append (c : Cfg) (a : Word) (tail : List Byte) :
    addressField c (fieldBytes32 c.fieldOrder a ++ tail) = a := by
  unfold addressField
  cases c.fieldOrder <;> exact crcOfBytes_crcBytes .lsbFirst a

theorem payloadByte_fieldBytes32_append (o : FieldOrder) (a : Word) (tail : List Byte) (i : Nat) :
    payloadByte (fieldBytes32 o a ++ tail) (4 + i) = payloadByte tail i := by
  cases o <;> simp [payloadByte, fieldBytes32, Nat.add_comm 4 i]

/-- A u16 field at the start of a payload is read back (R98). -/
theorem field16_fieldBytes16_append (o : FieldOrder) (v : Half) (tail : List Byte) :
    field16 o (payloadByte (fieldBytes16 o v ++ tail) 0) (payloadByte (fieldBytes16 o v ++ tail) 1) = v := by
  cases o <;> exact le16_byteOf16 v

theorem payloadByte_fieldBytes16_append (o : FieldOrder) (v : Half) (b : Byte) :
    payloadByte (fieldBytes16 o v ++ [b]) 2 = b := by
  cases o <;> rfl

/-- The bytes of the field at the start of a payload are the payload's first four. -/
theorem fieldBytes32_addressField (c : Cfg) {p : List Byte} (h : 4 ≤ p.length) :
    fieldBytes32 c.fieldOrder (addressField c p) = p.take 4 := by
  match p, h with
  | b0 :: b1 :: b2 :: b3 :: _, _ => exact fieldBytes32_field32 c.fieldOrder b0 b1 b2 b3

/-- The last `n` bytes of a payload, read one by one. -/
theorem map_payloadByte_range {p : List Byte} {k n : Nat} (h : p.length = k + n) :
    ((List.range n).map fun i => payloadByte p (k + i)) = p.drop k := by
  apply List.ext_getElem
  · simp [h]
  · intro i hi _
    have hi' : k + i < p.length := by simp at hi; omega
    simp [payloadByte, hi']

/-! The envelope (R90). -/

/-- A byte string is read as an envelope exactly when it is a length byte that is not 0, as many bytes of body, the
crc of both, and the rest (R90, R94, R102). -/
theorem readEnvelope_ok_iff {c : Cfg} {bytes body rest : List Byte} {len : Byte} :
    readEnvelope c bytes = .ok (len, body, rest) ↔
      len ≠ 0 ∧ body.length = len.toNat ∧
        bytes = len :: body ++ crcBytes c.crcWireOrder (crc c (len :: body)) ++ rest := by
  constructor
  · intro h
    match bytes with
    | [] => cases h
    | l :: tail =>
      simp only [readEnvelope] at h
      split at h
      · cases h
      next hzero =>
      split at h
      · cases h
      next hlong =>
      split at h
      · next hcrc =>
        cases h
        have hbody : (tail.take len.toNat).length = len.toNat := by simp; omega
        refine ⟨by simpa using hzero, hbody, ?_⟩
        rw [← beq_iff_eq.mp hcrc, crcBytes_crcOfBytes _ (by simp; omega), List.append_assoc,
          List.take_append_drop, List.cons_append, List.take_append_drop]
      · cases h
  · rintro ⟨hzero, hlen, rfl⟩
    have hlong : ¬ (body ++ (crcBytes c.crcWireOrder (crc c (len :: body)) ++ rest)).length < body.length + 4 := by
      simp
    simp only [List.cons_append, List.append_assoc, readEnvelope, beq_iff_eq, hzero, if_false, hlong,
      ← hlen, List.take_left, List.drop_left, crcOfBytes_crcBytes_append, if_true]
    rw [List.drop_left' (crcBytes_length _ _)]

/-- The length byte of a payload that fits (R90, R91). -/
theorem lengthByte_toNat {p : List Byte} (h : p.length ≤ 254) :
    (BitVec.ofNat 8 (1 + p.length)).toNat = 1 + p.length := by
  rw [BitVec.toNat_ofNat]; omega

/-- The envelope of a frame is read back, whatever follows the frame (R90, R94). -/
theorem readEnvelope_frame (c : Cfg) (code : Byte) {p : List Byte} (h : p.length ≤ 254) (rest : List Byte) :
    readEnvelope c (frame c code p ++ rest) = .ok (BitVec.ofNat 8 (1 + p.length), code :: p, rest) := by
  have hlen := lengthByte_toNat h
  refine readEnvelope_ok_iff.mpr ⟨?_, ?_, rfl⟩
  · intro hzero
    have h0 : (0 : Byte).toNat = 0 := rfl
    rw [hzero] at hlen; omega
  · rw [hlen, List.length_cons, Nat.add_comm]

/-! The payload of a command: its size, its layout, its arguments. -/

/-- The payload size the `L` column of R97 asks for; that of MEM_WRITE is given by its `byte_count`. -/
def payloadSize (n : CmdName) (p : List Byte) : Nat :=
  match n with
  | .goToAddress => 4
  | .flashErase => 2
  | .memWrite => 5 + (payloadByte p 4).toNat
  | .enableRwProtect => 3
  | .memRead | .otpRead => 5
  | .getVersion | .getHelp | .getChipId | .getReadProtectionStatus | .readSectorProtectionStatus
  | .disableRwProtect => 0

theorem sizeOk_iff (n : CmdName) (len : Byte) (p : List Byte) :
    sizeOk n len p = true ↔ len.toNat = 1 + payloadSize n p := by
  cases n with
  | memWrite => simp only [sizeOk, payloadSize, Bool.and_eq_true, decide_eq_true_eq, beq_iff_eq]; omega
  | _ => simp [sizeOk, payloadSize, ← BitVec.toNat_inj]

/-- The code field of a command is its `CC_` value (R99). -/
theorem codeOf_of_name {i : Instr} {n : CmdName} (h : i.name? = some n) (c : Cfg) : codeOf c i = c.code n := by
  cases i <;> cases h <;> rfl

theorem memWrite_wellFormed_iff {c : Cfg} {a : Word} {data : List Byte} :
    (Instr.memWrite a data).WellFormed c ↔ data.length ≤ 249 := decide_eq_true_iff

/-- `byte_count` is the number of data bytes (R97). -/
theorem memWrite_byteCount {c : Cfg} {a : Word} {data : List Byte} (h : (Instr.memWrite a data).WellFormed c) :
    (payloadByte (payloadOf c (.memWrite a data)) 4).toNat = data.length := by
  have hle := memWrite_wellFormed_iff.mp h
  have hcount := payloadByte_fieldBytes32_append c.fieldOrder a (BitVec.ofNat 8 data.length :: data) 0
  rw [payloadOf, hcount]
  simp [payloadByte]; omega

/-- A payload has the size its command asks for (R97). -/
theorem payloadOf_size {c : Cfg} {i : Instr} {n : CmdName} (hn : i.name? = some n) (h : i.WellFormed c) :
    (payloadOf c i).length = payloadSize n (payloadOf c i) := by
  cases i with
  | memWrite a data =>
    cases hn
    rw [payloadSize, memWrite_byteCount h]
    simp [payloadOf]; omega
  | _ => cases hn <;> simp [payloadOf, payloadSize]

/-- The arguments are read back from their layout (R97, R175). -/
theorem extract_payloadOf {c : Cfg} {i : Instr} {n : CmdName} (hn : i.name? = some n) (h : i.WellFormed c) :
    extract c n (payloadOf c i) = i := by
  cases i with
  | goToAddress a =>
    cases hn
    have ha := addressField_fieldBytes32_append c a []
    rw [List.append_nil] at ha
    simp [extract, payloadOf, ha]
  | flashErase sector count => cases hn; rfl
  | memWrite a data =>
    cases hn
    have hsize := payloadOf_size rfl h
    have hcount := memWrite_byteCount h
    rw [payloadSize, hcount] at hsize
    rw [extract, hcount, map_payloadByte_range hsize]
    simp only [payloadOf, addressField_fieldBytes32_append, List.drop_append, fieldBytes32_length]
    simp
  | enableRwProtect mask mode =>
    cases hn
    simp only [extract, payloadOf, field16_fieldBytes16_append, payloadByte_fieldBytes16_append]
  | memRead a count | otpRead a count =>
    cases hn
    have hcount := payloadByte_fieldBytes32_append c.fieldOrder a [count] 0
    simp only [Nat.add_zero] at hcount
    simp only [extract, payloadOf, addressField_fieldBytes32_append, hcount]
    rfl
  | _ => cases hn <;> rfl

/-- A payload of the size its command asks for is the layout of its arguments: no byte is dropped (R97, R175). -/
theorem payloadOf_extract (c : Cfg) {n : CmdName} {p : List Byte} (h : p.length = payloadSize n p) :
    payloadOf c (extract c n p) = p := by
  cases n with
  | goToAddress =>
    have hp : p.length = 4 := h
    simp [extract, payloadOf, fieldBytes32_addressField c hp.ge, ← hp]
  | flashErase =>
    match p, h with
    | [_, _], _ => rfl
  | memWrite =>
    have hp : p.length = 5 + (payloadByte p 4).toNat := h
    have hcount : p.drop 4 = payloadByte p 4 :: p.drop 5 := by
      rw [List.drop_eq_getElem_cons (by omega), payloadByte, List.getD_eq_getElem]
    simp only [extract, payloadOf, List.length_map, List.length_range, BitVec.ofNat_toNat, BitVec.setWidth_eq]
    rw [map_payloadByte_range hp, ← hcount, fieldBytes32_addressField c (by omega), List.take_append_drop]
  | enableRwProtect =>
    match p, h with
    | [b0, b1, mode], _ =>
      change fieldBytes16 c.fieldOrder (field16 c.fieldOrder b0 b1) ++ [mode] = _
      rw [fieldBytes16_field16]; rfl
  | memRead | otpRead =>
    match p, h with
    | [b0, b1, b2, b3, count], _ =>
      change fieldBytes32 c.fieldOrder (field32 c.fieldOrder b0 b1 b2 b3) ++ [count] = _
      rw [fieldBytes32_field32]; rfl
  | _ => exact (List.length_eq_zero_iff.mp h).symm

/-- The arguments of a payload that fits its length byte are well formed (R91, R97). -/
theorem extract_wellFormed (c : Cfg) {n : CmdName} {p : List Byte} (h : p.length = payloadSize n p)
    (hfits : p.length ≤ 254) : (extract c n p).WellFormed c := by
  cases n with
  | memWrite =>
    refine memWrite_wellFormed_iff.mpr ?_
    rw [List.length_map, List.length_range]
    have hp : p.length = 5 + (payloadByte p 4).toNat := h
    omega
  | _ => rfl

/-! The frame of an instruction. -/

/-- The payload of a well-formed instruction fits its frame (R91): the laws of `PayloadFits`, for every instruction. -/
theorem payloadOf_length_le {c : Cfg} {i : Instr} (h : i.WellFormed c) : (payloadOf c i).length ≤ 254 := by
  cases i with
  | memWrite a data => exact Laws.PayloadFits.memWrite a data c h
  | ack status data => exact Laws.PayloadFits.ack status data c h
  | _ => simp [payloadOf]

/-- The body of a command's frame decodes to the command (R97, R99, R173 to R175). -/
theorem CfgFacts.decodeBody_payloadOf {c : Cfg} (hc : CfgFacts c) {i : Instr} (hi : i.isCommand = true)
    (h : i.WellFormed c) :
    decodeBody c (BitVec.ofNat 8 (1 + (payloadOf c i).length)) (codeOf c i :: payloadOf c i) = .ok i := by
  obtain ⟨n, hn⟩ := Option.isSome_iff_exists.mp hi
  have hcode : decodeCode c (codeOf c i) = some n := by rw [codeOf_of_name hn, hc.decodeCode_code]
  have hsize : sizeOk n (BitVec.ofNat 8 (1 + (payloadOf c i).length)) (payloadOf c i) = true := by
    rw [sizeOk_iff, lengthByte_toNat (payloadOf_length_le h), ← payloadOf_size hn h]
  simp [decodeBody, payloadByte, hcode, hsize, extract_payloadOf hn h]

/-- The fields of a response's frame decode to the response (R100). -/
theorem CfgFacts.decodeResponseBody_payloadOf {c : Cfg} (hc : CfgFacts c) {i : Instr} (hi : i.isCommand = false) :
    decodeResponseBody c (codeOf c i) (payloadOf c i) = .ok i := by
  cases i with
  | ack status data => simp [decodeResponseBody, codeOf, payloadOf]
  | nack status => simp [decodeResponseBody, codeOf, payloadOf, hc.responses.symm]
  | _ => cases hi

/-- Settles O3: the envelope is read back, and then the body. -/
theorem decodeOfEncode : Obligations.DecodeOfEncode := by
  intro c hc i h rest
  have henvelope := readEnvelope_frame c (codeOf c i) (payloadOf_length_le h) rest
  refine ⟨fun hi => ?_, fun hi => ?_⟩
  · simp only [decodeFrame, encode, henvelope, (cfgFacts hc).decodeBody_payloadOf hi h]
  · have hbody := (cfgFacts hc).decodeResponseBody_payloadOf hi
    simp [decodeResponseFrame, encode, henvelope, payloadByte, hbody]

/-- What a byte string that decodes to a command holds: an envelope whose body does. -/
theorem decodeFrame_ok {c : Cfg} {bytes rest : List Byte} {i : Instr} (h : decodeFrame c bytes = .ok (i, rest)) :
    ∃ len body, readEnvelope c bytes = .ok (len, body, rest) ∧ decodeBody c len body = .ok i := by
  unfold decodeFrame at h
  split at h
  · cases h
  next len body after henvelope =>
  split at h
  · cases h
  next hbody => cases h; exact ⟨len, body, henvelope, hbody⟩

/-- A body that decodes holds the code of a command and the arguments it decodes to, in a payload of the size the
command asks for (R173 to R175). -/
theorem decodeBody_ok {c : Cfg} {len : Byte} {body : List Byte} {i : Instr} (h : decodeBody c len body = .ok i) :
    ∃ n, c.code n = payloadByte body 0 ∧ len.toNat = 1 + payloadSize n (body.drop 1) ∧
      i = extract c n (body.drop 1) := by
  rcases decodeBody_cases c len body with ⟨n, hcode, hsize, hok⟩ | ⟨_, herr⟩ | ⟨_, _, _, herr⟩
  · rw [hok] at h; cases h
    exact ⟨n, decodeCode_some hcode, (sizeOk_iff n len _).mp hsize, rfl⟩
  · rw [herr] at h; cases h
  · rw [herr] at h; cases h

/-- Settles O4: the size rule of R174 ties the payload to the length byte, so the arguments give the payload back. -/
theorem encodeOfDecode : Obligations.EncodeOfDecode := by
  intro c bytes i rest h
  obtain ⟨len, body, henvelope, hbody⟩ := decodeFrame_ok h
  obtain ⟨hzero, hlen, rfl⟩ := readEnvelope_ok_iff.mp henvelope
  obtain ⟨n, hcode, hsize, rfl⟩ := decodeBody_ok hbody
  match body, hlen with
  | [], hlen => rw [← hlen, List.length_nil] at hsize; omega
  | code :: p, hlen =>
    rw [List.length_cons] at hlen
    have hp : p.length = payloadSize n p := by simp only [List.drop_one, List.tail_cons] at hsize; omega
    have hfits : p.length ≤ 254 := by have := len.isLt; omega
    have hlenByte : BitVec.ofNat 8 (1 + p.length) = len := by
      rw [← BitVec.toNat_inj, lengthByte_toNat hfits]; omega
    have hc : c.code n = code := hcode
    refine ⟨extract_isCommand c n p, extract_wellFormed c hp hfits, ?_⟩
    simp only [encode, frame, covered, codeOf_of_name (extract_name c n _), List.drop_one, List.tail_cons,
      payloadOf_extract c hp, hlenByte, hc]

/-- Settles O5: each frame is evaluated. -/
theorem writtenOutFramesDecode : Obligations.WrittenOutFramesDecode := by
  refine ⟨?_, ?_, ?_, ?_, ?_⟩ <;> decide +kernel

end Sys2Proof.Machine
end

section
/-! PROOFS. The CRC of a message is one fold of `crcShift` over the bits fed (`crcRemainder_eq_foldl_bits`). For the
width of the feed (`40_crc.md` R125) the bits fed are compared; for single-bit errors (R129) the two bit sequences part
at one bit, and with a polynomial of odd value a shift loses nothing of the register or of the bit
(`crcShift_acc_injective`, `crcShift_bit_injective`). -/

namespace Sys2Proof.Machine

/-! The bits a message is fed as. -/

/-- The bits of a byte, most significant first. -/
def msbFirstBits (b : Byte) : List Bool := (List.range 8).map fun k => b.getLsbD (7 - k)

theorem feedBits_bits8 {c : Cfg} (hf : c.crcFeed = .bits8) (hr : c.crcRefIn = false) (b : Byte) :
    feedBits c b = msbFirstBits b := by
  simp [feedBits, msbFirstBits, hf, hr]

theorem feedBits_bits32 {c : Cfg} (hf : c.crcFeed = .bits32) (hr : c.crcRefIn = false) (b : Byte) :
    feedBits c b = List.replicate 24 false ++ msbFirstBits b := by
  simp [feedBits, msbFirstBits, hf, hr]

/-- Feeding bytes one by one is feeding their bits (R123, R126). -/
theorem crcRemainder_eq_foldl_bits (c : Cfg) (bytes : List Byte) :
    crcRemainder c bytes = (bytes.flatMap (feedBits c)).foldl (crcShift c.crcPoly) c.crcInit :=
  List.foldl_flatMap.symm

/-! The width of the feed. -/

/-- A byte zero-extended to 32 bits is fed as the same bits as three zero bytes and the byte (R125). -/
theorem feedBits_bits32_eq_flatMap {c : Cfg} (hf : c.crcFeed = .bits32) (hr : c.crcRefIn = false) (b : Byte) :
    feedBits c b = [0, 0, 0, b].flatMap (feedBits { c with crcFeed := .bits8 }) := by
  have hbyte : feedBits { c with crcFeed := .bits8 } = msbFirstBits := funext (feedBits_bits8 rfl hr)
  have hzero : msbFirstBits 0 = List.replicate 8 false := by decide
  rw [feedBits_bits32 hf hr, hbyte]
  simp only [List.flatMap_cons, List.flatMap_nil, List.append_nil, hzero, ← List.append_assoc,
    List.replicate_append_replicate]

/-- Settles O1: both configurations shift the same bits into the same register. -/
theorem crcWordFeedIsFourBytes : Obligations.CrcWordFeedIsFourBytes := by
  intro c bytes hf hr
  have hrem : crcRemainder c bytes =
      crcRemainder { c with crcFeed := .bits8 } (bytes.flatMap fun b => [0, 0, 0, b]) := by
    rw [crcRemainder_eq_foldl_bits, crcRemainder_eq_foldl_bits, List.flatMap_assoc,
      funext (feedBits_bits32_eq_flatMap hf hr)]
  rw [crc, hrem]
  rfl

/-! Sequences that differ in one bit. -/

/-- Two bit sequences that are equal but for one bit, which is flipped. -/
def DifferInOneBit (l l' : List Bool) : Prop :=
  ∃ pre u post, l = pre ++ u :: post ∧ l' = pre ++ (!u) :: post

theorem DifferInOneBit.append_left {l l' : List Bool} (h : DifferInOneBit l l') (front : List Bool) :
    DifferInOneBit (front ++ l) (front ++ l') := by
  obtain ⟨pre, u, post, rfl, rfl⟩ := h
  exact ⟨front ++ pre, u, post, by simp, by simp⟩

theorem DifferInOneBit.append_right {l l' : List Bool} (h : DifferInOneBit l l') (back : List Bool) :
    DifferInOneBit (l ++ back) (l' ++ back) := by
  obtain ⟨pre, u, post, rfl, rfl⟩ := h
  exact ⟨pre, u, post ++ back, by simp, by simp⟩

theorem DifferInOneBit.reverse {l l' : List Bool} (h : DifferInOneBit l l') :
    DifferInOneBit l.reverse l'.reverse := by
  obtain ⟨pre, u, post, rfl, rfl⟩ := h
  exact ⟨post.reverse, u, pre.reverse, by simp, by simp⟩

/-- Images of a list without repetitions under functions that disagree at one of its elements only. -/
theorem DifferInOneBit.map {α : Type} {f f' : α → Bool} {l : List α} {i : α} (hi : i ∈ l) (hl : l.Nodup)
    (hflip : f' i = !f i) (hsame : ∀ j ∈ l, j ≠ i → f' j = f j) : DifferInOneBit (l.map f) (l.map f') := by
  obtain ⟨pre, post, rfl⟩ := List.append_of_mem hi
  have hnot : i ∉ pre ++ post := (List.nodup_cons.mp (List.nodup_middle.mp hl)).1
  have hpre : pre.map f' = pre.map f := List.map_congr_left fun j hj =>
    hsame j (by simp [hj]) fun h => hnot (by simp [← h, hj])
  have hpost : post.map f' = post.map f := List.map_congr_left fun j hj =>
    hsame j (by simp [hj]) fun h => hnot (by simp [← h, hj])
  exact ⟨pre.map f, f i, post.map f, by simp, by simp [hpre, hpost, hflip]⟩

theorem getLsbD_flipBit (b : Byte) {j : Nat} (k : Nat) (hj : j < 8) :
    (b ^^^ (1#8 <<< k)).getLsbD j = (b.getLsbD j ^^ decide (k = j)) := by
  rw [BitVec.getLsbD_xor, ← BitVec.twoPow_eq, BitVec.getLsbD_twoPow]
  by_cases h : k = j <;> simp [h, hj]

theorem msbFirstBits_flipBit (b : Byte) {k : Nat} (hk : k < 8) :
    DifferInOneBit (msbFirstBits b) (msbFirstBits (b ^^^ (1#8 <<< k))) := by
  refine DifferInOneBit.map (i := 7 - k) (List.mem_range.mpr (by omega)) List.nodup_range ?_ fun j hj hne => ?_
  · rw [getLsbD_flipBit b k (by omega), decide_eq_true (by omega), Bool.xor_true]
  · have hj8 : j < 8 := List.mem_range.mp hj
    rw [getLsbD_flipBit b k (by omega), decide_eq_false (by omega), Bool.xor_false]

/-- Neither the width of the feed nor `CRC_REFIN` makes more or less of a flipped bit (R123, R125). -/
theorem feedBits_flipBit (c : Cfg) (b : Byte) {k : Nat} (hk : k < 8) :
    DifferInOneBit (feedBits c b) (feedBits c (b ^^^ (1#8 <<< k))) := by
  have hbyte := msbFirstBits_flipBit b hk
  cases hf : c.crcFeed <;> cases hr : c.crcRefIn <;> simp only [feedBits, hf, hr, if_true]
  · exact hbyte
  · exact hbyte.reverse
  · exact hbyte.append_left _
  · exact (hbyte.append_left _).reverse

/-! What a shift keeps of the register and of the bit. -/

/-- Bit 0 of the shifted register says whether the polynomial was added. -/
theorem crcShift_getLsbD_zero {poly : Word} (hp : poly.getLsbD 0 = true) (acc : Word) (u : Bool) :
    (crcShift poly acc u).getLsbD 0 = (u ^^ acc.getLsbD 31) := by
  unfold crcShift
  split
  next hadded => rw [hadded]; simpa using hp
  next hkept => simpa using hkept

theorem crcShift_bit_injective {poly : Word} (hp : poly.getLsbD 0 = true) {acc : Word} {u u' : Bool}
    (h : crcShift poly acc u = crcShift poly acc u') : u = u' := by
  have hzero := congrArg (·.getLsbD 0) h
  simpa only [crcShift_getLsbD_zero hp, Bool.xor_left_inj] using hzero

theorem crcShift_acc_injective {poly : Word} (hp : poly.getLsbD 0 = true) {acc acc' : Word} {u : Bool}
    (h : crcShift poly acc u = crcShift poly acc' u) : acc = acc' := by
  have hadded : (u ^^ acc.getLsbD 31) = (u ^^ acc'.getLsbD 31) := by
    rw [← crcShift_getLsbD_zero hp, h, crcShift_getLsbD_zero hp]
  have hlow : acc <<< 1 = acc' <<< 1 := by
    unfold crcShift at h
    rw [hadded] at h
    split at h
    · exact (BitVec.xor_left_inj _).mp h
    · exact h
  apply BitVec.eq_of_getLsbD_eq
  intro i hi
  by_cases htop : i = 31
  · simpa [htop] using hadded
  · have hbit := congrArg (·.getLsbD (i + 1)) hlow
    have hi1 : i + 1 < 32 := by omega
    simpa [hi1, BitVec.getLsbD_eq_getElem hi] using hbit

theorem foldl_crcShift_acc_injective {poly : Word} (hp : poly.getLsbD 0 = true) (l : List Bool) {acc acc' : Word}
    (h : l.foldl (crcShift poly) acc = l.foldl (crcShift poly) acc') : acc = acc' := by
  induction l generalizing acc acc' with
  | nil => exact h
  | cons u l ih => exact crcShift_acc_injective hp (ih h)

/-- The registers part at the flipped bit and stay apart. -/
theorem DifferInOneBit.foldl_crcShift_ne {poly : Word} (hp : poly.getLsbD 0 = true) {l l' : List Bool}
    (h : DifferInOneBit l l') (acc : Word) : l.foldl (crcShift poly) acc ≠ l'.foldl (crcShift poly) acc := by
  obtain ⟨pre, u, post, rfl, rfl⟩ := h
  rw [List.foldl_append, List.foldl_append, List.foldl_cons, List.foldl_cons]
  intro heq
  have hbit := crcShift_bit_injective hp (foldl_crcShift_acc_injective hp post heq)
  exact Bool.self_ne_not u hbit

/-! The CRC. -/

theorem rev32_rev32 (v : Word) : rev32 (rev32 v) = v := by
  apply BitVec.eq_of_getLsbD_eq
  intro i hi
  simp [rev32, hi]

theorem crcFinal_injective (c : Cfg) : Function.Injective (crcFinal c) := by
  intro a a' h
  have hout := (BitVec.xor_left_inj _).mp h
  split at hout
  · exact Function.LeftInverse.injective rev32_rev32 hout
  · exact hout

/-- Settles O2: the two messages are fed as bits that differ in one place, so the registers end apart, and what
`CrcFinal` does to them can be undone (R124). -/
theorem crcSeesEverySingleBit : Obligations.CrcSeesEverySingleBit := by
  intro c hc before after b k hk heq
  have hbits : DifferInOneBit ((before ++ b :: after).flatMap (feedBits c))
      ((before ++ (b ^^^ (1#8 <<< k)) :: after).flatMap (feedBits c)) := by
    simp only [List.flatMap_append, List.flatMap_cons]
    exact ((feedBits_flipBit c b hk).append_right _).append_left _
  have hrem := crcFinal_injective c heq
  rw [crcRemainder_eq_foldl_bits, crcRemainder_eq_foldl_bits] at hrem
  exact hbits.foldl_crcShift_ne (cfgFacts hc).poly c.crcInit hrem

end Sys2Proof.Machine
end


section
/-! PROOFS. The frame parser (`41_frame_codec.md` R140 to R150). From the start of a frame the step is `read_frame` and
its end (`step_of_start`). What `read_frame` does is said once per way it can end: it falls silent
(`State.readFrame_of_silence`), the length byte is 0, or the whole frame is heard and its CRC is judged
(`State.readFrame_of_frame`). A frame that `write_frame` sends is heard with its own CRC (`step_of_sent_frame`); with
one bit flipped after the length byte it is heard with another (`flipBit_frame`). -/

namespace Sys2Proof.Machine

/-! The step from the start of a frame. -/

theorem step_of_start {s u : State} (hr : s.env.resetPending = false) (hp : s.regs.pstate = .awaitingFrame)
    (hi : s.regs.rxIdx = 0) (hread : s.readFrame = u) : step s = .next u.endFrame := by
  rw [step_of_awaitingFrame hr hp, State.receive_of_start hi, hread]

theorem State.endFrame_of_none {u : State} (h : u.regs.ferr = .none) : u.endFrame = u.setPstate .validating := by
  simp [State.endFrame, h, FrameErr.err]

theorem State.endFrame_of_err {u : State} {e : Err} (h : u.regs.ferr.err = some e) : u.endFrame = u.raise e := by
  simp [State.endFrame, h]

/-- A reading that ends in an error with a status is answered with its bare NACK (R142, R146, R294); no lock is owed. -/
theorem step_of_refused_frame {s u : State} {e : Err} {st : Byte} (hr : s.env.resetPending = false)
    (hp : s.regs.pstate = .awaitingFrame) (hi : s.regs.rxIdx = 0) (hread : s.readFrame = u) (hc : u.cfg.WellFormed)
    (he : u.regs.ferr.err = some e) (hst : u.cfg.status e = some st) (hf : u.regs.flashOpen = false) :
    step s = .next { u with regs := u.regs.withResponse u.cfg.rcNack st [] } := by
  rw [step_of_start hr hp hi hread, State.endFrame_of_err he, State.raise_of_closed hst hf, State.respond,
    (cfgFacts hc).responseCode_error hst]
  rfl

/-! A silence (R145). -/

/-- The transport has nothing more to deliver, or a silence and then `rest` (R61). -/
def Silence (tail rest : List RxItem) : Prop := (tail = [] ∧ rest = []) ∨ tail = .gap :: rest

/-- The reading ended in Timeout, and `rest` is still on the way. -/
def State.TimedOut (u : State) (rest : List RxItem) : Prop := u.regs.ferr = .timeout ∧ u.env.rx = rest

theorem takeBytes_silence {n : Nat} {bs : List Byte} {tail rest : List RxItem} (hq : Silence tail rest)
    (hn : bs.length < n) : takeBytes n (bs.map RxItem.byte ++ tail) = (none, rest) := by
  obtain ⟨hend, hgap⟩ := takeBytes_short hn
  rcases hq with ⟨rfl, rfl⟩ | rfl
  · rwa [List.append_nil]
  · exact hgap rest

section
variable {s : State} {bs : List Byte} {tail rest : List RxItem} (hq : Silence tail rest)
include hq

/-- Fewer than four crc bytes, and then silence (R144, R145). -/
theorem State.readCrc_of_silence (hrx : s.env.rx = bs.map RxItem.byte ++ tail) (hn : bs.length < 4) :
    s.readCrc.TimedOut rest := by
  have ht : takeBytes 4 s.env.rx = (none, rest) := by rw [hrx]; exact takeBytes_silence hq hn
  simp [State.TimedOut, State.readCrc, ht]

/-- After the length byte: the silence falls in the body or in the crc (R143 to R145). -/
theorem State.afterLength_of_silence (hl : s.regs.rxLen ≠ 0) (hrx : s.env.rx = bs.map RxItem.byte ++ tail)
    (hn : bs.length < s.regs.rxLen.toNat + 4) : s.afterLength.TimedOut rest := by
  by_cases hbody : bs.length < s.regs.rxLen.toNat
  · have ht : takeBytes s.regs.rxLen.toNat s.env.rx = (none, rest) := by rw [hrx]; exact takeBytes_silence hq hbody
    rw [State.afterLength, if_neg hl]
    simp [State.TimedOut, State.readBody, ht]
  · have hsplit : s.env.rx = (bs.take s.regs.rxLen.toNat).map RxItem.byte ++
        ((bs.drop s.regs.rxLen.toNat).map RxItem.byte ++ tail) := by
      rw [← List.append_assoc, ← List.map_append, List.take_append_drop, hrx]
    rw [State.afterLength_of_body hl (by simp; omega) hsplit]
    exact State.readCrc_of_silence hq rfl (by simp; omega)

/-- A frame that falls silent before it is whole ends in Timeout (R145). -/
theorem State.readFrame_of_silence (hrx : s.env.rx = bs.map RxItem.byte ++ tail)
    (hn : bs = [] ∨ (bs.getD 0 0 ≠ 0 ∧ bs.length < 5 + (bs.getD 0 0).toNat)) : s.readFrame.TimedOut rest := by
  match bs with
  | [] =>
    have ht : takeBytes 1 s.env.rx = (none, rest) := by rw [hrx]; exact takeBytes_silence hq Nat.one_pos
    simp [State.TimedOut, State.readFrame, ht]
  | len :: body =>
    obtain ⟨hl, hshort⟩ := hn.resolve_left (List.cons_ne_nil len body)
    rw [State.readFrame_of_length hrx]
    refine State.afterLength_of_silence hq (bs := body) hl rfl ?_
    simp only [List.length_cons, List.getD_cons_zero] at hshort
    change body.length < len.toNat + 4
    omega

end

/-- Settles O8: the reading ends in Timeout, which starts the next cycle; what else the reading leaves alone is
`State.readFrame_spec`. -/
theorem silenceStartsANewCycle : Obligations.SilenceStartsANewCycle := by
  intro s sent tail rest hr hp hi hrx hq hshort
  obtain ⟨hferr, hrest⟩ := State.readFrame_of_silence hq hrx hshort
  have hspec := s.readFrame_spec
  obtain ⟨q, es, henv, hes⟩ := hspec.env
  have hend : s.readFrame.endFrame = (s.readFrame.setFerr .timeout).newCycle :=
    (State.endFrame_of_err (by rw [hferr]; rfl)).trans (State.raise_timeout _)
  have hqueue : q = rest := by rw [← hrest, henv]
  have hstep := step_of_start hr hp hi rfl
  rw [hend] at hstep
  refine ⟨_, es, hstep, hspec.cfg, ?_, ?_, hes, fun a => by simp [hspec.cfg, henv]⟩
  · simp only [State.newCycle_regs, State.setFerr_cfg, State.setFerr_regs, Regs.startCycle, hspec.cfg]
    rw [hspec.regs]
  · rw [State.newCycle_env, State.setFerr_env, henv, hqueue]

/-! A zero length byte (R142). -/

/-- Settles O9: the reading ends after its first byte. -/
theorem zeroLengthIsMalformed : Obligations.ZeroLengthIsMalformed := by
  intro s rest hc hr hp hi hf hrx
  have hread : s.readFrame = ((s.startFrame.heard 1 [0] rest).storeLength 0).setFerr .malformedLength := by
    rw [State.readFrame_of_length hrx]; rfl
  exact ⟨_, step_of_refused_frame hr hp hi hread hc rfl rfl hf, rfl, rfl, rfl, fun _ => rfl⟩

/-! A whole frame (R141, R143, R144, R146). -/

/-- The frame `len ‖ body ‖ w0 w1 w2 w3` came in by three calls of `Rx`, its CRC is not judged, and `rest` is still on
the way. -/
def State.frameHeard (s : State) (len : Byte) (body : List Byte) (w0 w1 w2 w3 : Byte) (rest : List RxItem) : State :=
  { s with
    regs := { s.regs with
      ferr := .none, rxLen := len, rxBody := body, rxCrcb := ⟨w0, w1, w2, w3⟩
      rxCrc := crcOfBytes s.cfg.crcWireOrder w0 w1 w2 w3, rxIdx := 5 + len.toNat }
    env := { s.env with
      rx := rest
      trace := s.env.trace ++ [.rx 1 (some [len]), .rx len.toNat (some body), .rx 4 (some [w0, w1, w2, w3])] } }

theorem State.readFrame_of_frame {s : State} {len w0 w1 w2 w3 : Byte} {body : List Byte} {rest : List RxItem}
    (hl : len ≠ 0) (hb : body.length = len.toNat)
    (hrx : s.env.rx = ((len :: body) ++ [w0, w1, w2, w3]).map RxItem.byte ++ rest) :
    s.readFrame = (s.frameHeard len body w0 w1 w2 w3 rest).judgeCrc := by
  have hrx' : s.env.rx = .byte len ::
      (body.map RxItem.byte ++ ([w0, w1, w2, w3].map RxItem.byte ++ rest)) := by
    rw [hrx, List.cons_append, List.map_cons, List.cons_append, List.map_append, List.append_assoc]
  rw [State.readFrame_of_length hrx', State.afterLength_of_body hl hb rfl, State.readCrc_of_bytes rfl]
  simp [State.frameHeard, State.heard, State.startFrame, State.storeLength, State.storeBody, State.storeCrc]

/-- The computed CRC is the received one: `FERR` stays as it was (R146). -/
theorem State.judgeCrc_of_match {s : State} (h : s.regs.rxCrc = crc s.cfg (s.regs.rxLen :: s.regs.rxBody)) :
    s.judgeCrc = s.crcCheck := by
  have hok : s.crcCheck.regs.crcOk = true := by simp [crcMatches, h]
  exact if_pos hok

/-- The computed CRC is another one (R146). -/
theorem State.judgeCrc_of_mismatch {s : State} (h : s.regs.rxCrc ≠ crc s.cfg (s.regs.rxLen :: s.regs.rxBody)) :
    s.judgeCrc = s.crcCheck.setFerr .checksumMismatch := by
  have hwrong : ¬ s.crcCheck.regs.crcOk = true := by simpa [crcMatches] using h.symm
  exact if_neg hwrong

/-- Settles O10. -/
theorem wholeFrameIsReceived : Obligations.WholeFrameIsReceived := by
  intro s len w0 w1 w2 w3 body rest hr hp hi hl hb hrx hcrc
  have hread : s.readFrame = (s.frameHeard len body w0 w1 w2 w3 rest).crcCheck :=
    (State.readFrame_of_frame hl hb hrx).trans (State.judgeCrc_of_match hcrc)
  have hok : crcMatches s.cfg len body (crcOfBytes s.cfg.crcWireOrder w0 w1 w2 w3) = true :=
    beq_iff_eq.mpr hcrc.symm
  have hstep := step_of_start hr hp hi hread
  rw [State.endFrame_of_none rfl] at hstep
  exact ⟨_, hstep, rfl, by rw [← hok]; rfl, rfl, fun _ => rfl⟩

/-- Settles O11. -/
theorem wrongCrcIsRefused : Obligations.WrongCrcIsRefused := by
  intro s len w0 w1 w2 w3 body rest hc hr hp hi hf hl hb hrx hcrc
  have hread : s.readFrame = (s.frameHeard len body w0 w1 w2 w3 rest).crcCheck.setFerr .checksumMismatch :=
    (State.readFrame_of_frame hl hb hrx).trans (State.judgeCrc_of_mismatch hcrc)
  have hok : crcMatches s.cfg len body (crcOfBytes s.cfg.crcWireOrder w0 w1 w2 w3) = false :=
    beq_eq_false_iff_ne.mpr hcrc.symm
  exact ⟨_, step_of_refused_frame hr hp hi hread hc rfl rfl hf, rfl, by rw [← hok]; rfl, rfl, fun _ => rfl⟩

/-! A frame that was sent (R148, R149). -/

/-- A payload that fits gives a frame with a length byte that is not 0 and counts the body (R90). -/
theorem envelope_of_fits (code : Byte) {p : List Byte} (h : p.length ≤ 254) :
    BitVec.ofNat 8 (1 + p.length) ≠ 0 ∧ (code :: p).length = (BitVec.ofNat 8 (1 + p.length)).toNat := by
  obtain ⟨hl, hb, _⟩ := readEnvelope_ok_iff.mp (readEnvelope_frame cfgRef code h [])
  exact ⟨hl, hb⟩

/-- The crc of a frame is four bytes that assemble to it (R94). -/
theorem crcBytes_eq_four (o : WireOrder) (v : Word) :
    ∃ w0 w1 w2 w3, crcBytes o v = [w0, w1, w2, w3] ∧ crcOfBytes o w0 w1 w2 w3 = v := by
  cases o <;> exact ⟨_, _, _, _, rfl, crcOfBytes_crcBytes .lsbFirst v⟩

/-- The step over the frame of a payload that fits leaves its code and payload in the receive registers. -/
theorem step_of_sent_frame {s : State} {code : Byte} {p : List Byte} {rest : List RxItem} (hfits : p.length ≤ 254)
    (hr : s.env.resetPending = false) (hp : s.regs.pstate = .awaitingFrame) (hi : s.regs.rxIdx = 0)
    (hrx : s.env.rx = (frame s.cfg code p).map RxItem.byte ++ rest) :
    ∃ t es, step s = .next t ∧ t.cfg = s.cfg ∧ t.regs.pstate = .validating ∧ t.regs.ferr = .none ∧
      t.regs.rxLen = BitVec.ofNat 8 (1 + p.length) ∧ t.regs.rxBody = code :: p ∧
      t.env = { s.env with rx := rest, trace := s.env.trace ++ es } := by
  obtain ⟨w0, w1, w2, w3, hbytes, hcrc⟩ := crcBytes_eq_four s.cfg.crcWireOrder (crc s.cfg (covered code p))
  obtain ⟨hl, hb⟩ := envelope_of_fits code hfits
  rw [frame, hbytes] at hrx
  obtain ⟨t, hstep, hcfg, hregs, henv, _⟩ :=
    wholeFrameIsReceived s _ w0 w1 w2 w3 (code :: p) rest hr hp hi hl hb hrx hcrc
  exact ⟨t, _, hstep, hcfg, by rw [hregs], by rw [hregs], by rw [hregs], by rw [hregs], henv⟩

/-- Settles O12: what `write_frame` transmits is the frame, and the parser depends on nothing of the sender's but the
configuration. -/
theorem writtenFrameReadsBack : Obligations.WrittenFrameReadsBack := by
  intro s code p hfits
  refine ⟨frame s.cfg code p, by rw [State.writeFrame_env], ?_⟩
  intro r rest hcfg hr hp hi hrx
  rw [← hcfg] at hrx
  obtain ⟨t, _, hstep, _, hval, hferr, hlen, hbody, henv⟩ := step_of_sent_frame hfits hr hp hi hrx
  exact ⟨t, hstep, hval, hferr, hbody, by rw [hlen, lengthByte_toNat hfits], by rw [henv]⟩

/-- Settles O17: the frame is received, and what the receive registers then hold decodes to the command. -/
theorem sentCommandIsReceivedAndRun : Obligations.SentCommandIsReceivedAndRun := by
  intro s i rest hc hi hcmd hr hp hidx hrx
  obtain ⟨u, _, hstep, hcfg, hval, _, hlen, hbody, henv⟩ :=
    step_of_sent_frame (payloadOf_length_le hi) hr hp hidx hrx
  have hdecode : decodeBody u.cfg u.regs.rxLen u.regs.rxBody = .ok i := by
    rw [hcfg, hlen, hbody, (cfgFacts hc).decodeBody_payloadOf hcmd hi]
  exact ⟨u, hstep, hval, by rw [henv], by rw [henv], step_of_validating (by rw [henv]; exact hr) hval hdecode⟩

/-! A frame with one bit flipped on the way (R150). -/

/-- Bit `k` of byte `j` is flipped. -/
def flipBit (bytes : List Byte) (j k : Nat) : List Byte := bytes.set j (bytes.getD j 0 ^^^ (1#8 <<< k))

@[simp] theorem flipBit_length (bytes : List Byte) (j k : Nat) : (flipBit bytes j k).length = bytes.length :=
  List.length_set

/-- Around the flipped byte nothing changes. -/
theorem flipBit_append_cons (before : List Byte) (b : Byte) (after : List Byte) (k : Nat) :
    flipBit (before ++ b :: after) before.length k = before ++ (b ^^^ (1#8 <<< k)) :: after := by
  simp [flipBit]

theorem flipBit_cons (b : Byte) (bytes : List Byte) (j k : Nat) :
    flipBit (b :: bytes) (j + 1) k = b :: flipBit bytes j k := by
  simp [flipBit]

theorem flipBit_append_left {front : List Byte} (back : List Byte) {j : Nat} (k : Nat) (h : j < front.length) :
    flipBit (front ++ back) j k = flipBit front j k ++ back := by
  rw [flipBit, List.set_append_left _ _ h, List.getD_append _ _ _ _ h, flipBit]

theorem flipBit_append_right {front : List Byte} (back : List Byte) {j : Nat} (k : Nat) (h : front.length ≤ j) :
    flipBit (front ++ back) j k = front ++ flipBit back (j - front.length) k := by
  rw [flipBit, List.set_append_right _ _ h, List.getD_append_right _ _ _ _ h, flipBit]

theorem flipBit_ne {bytes : List Byte} {j k : Nat} (hj : j < bytes.length) (hk : k < 8) :
    flipBit bytes j k ≠ bytes := by
  intro h
  have hbyte : bytes[j] ^^^ (1#8 <<< k) = bytes[j] := by
    have hat := congrArg (·[j]?) h
    simpa [flipBit, hj] using hat
  have hbit := getLsbD_flipBit bytes[j] k hk
  rw [hbyte, decide_eq_true rfl, Bool.xor_true] at hbit
  exact Bool.self_ne_not _ hbit

/-- The CRC sees the flipped bit (R129). -/
theorem crc_flipBit_ne {c : Cfg} (hc : c.WellFormed) {bytes : List Byte} {j k : Nat} (hj : j < bytes.length)
    (hk : k < 8) : crc c bytes ≠ crc c (flipBit bytes j k) := by
  have hsplit : bytes = bytes.take j ++ bytes[j] :: bytes.drop (j + 1) := by simp
  have hlen : (bytes.take j).length = j := by simp; omega
  have hflip := flipBit_append_cons (bytes.take j) bytes[j] (bytes.drop (j + 1)) k
  rw [hlen, ← hsplit] at hflip
  have hne := crcSeesEverySingleBit c hc (bytes.take j) (bytes.drop (j + 1)) bytes[j] k hk
  rwa [← hsplit, ← hflip] at hne

/-- Crc bytes with a flipped bit assemble to another word (R94). -/
theorem crcOfBytes_ne_of_flipBit {o : WireOrder} {v : Word} {w0 w1 w2 w3 : Byte} {j k : Nat} (hj : j < 4)
    (hk : k < 8) (h : flipBit (crcBytes o v) j k = [w0, w1, w2, w3]) : crcOfBytes o w0 w1 w2 w3 ≠ v := by
  intro heq
  have hback : crcBytes o (crcOfBytes o w0 w1 w2 w3) = [w0, w1, w2, w3] :=
    crcBytes_crcOfBytes o (w := [w0, w1, w2, w3]) le_rfl
  rw [heq, ← h] at hback
  exact flipBit_ne (by rwa [crcBytes_length]) hk hback.symm

/-- A frame with a bit flipped after its length byte is a frame of the same length whose crc bytes are not those of
its body: the bit stands in the body, whose CRC it changes, or in the crc bytes. -/
theorem flipBit_frame {c : Cfg} (hc : c.WellFormed) (code : Byte) (p : List Byte) {j k : Nat} (hj : 1 ≤ j)
    (hlt : j < (frame c code p).length) (hk : k < 8) :
    ∃ body w0 w1 w2 w3, body.length = 1 + p.length ∧
      flipBit (frame c code p) j k = (BitVec.ofNat 8 (1 + p.length) :: body) ++ [w0, w1, w2, w3] ∧
      crcOfBytes c.crcWireOrder w0 w1 w2 w3 ≠ crc c (BitVec.ofNat 8 (1 + p.length) :: body) := by
  have hcov : (covered code p).length = 2 + p.length := by simp [covered]; omega
  by_cases hbody : j < (covered code p).length
  · obtain ⟨w0, w1, w2, w3, hbytes, hcrc⟩ := crcBytes_eq_four c.crcWireOrder (crc c (covered code p))
    have hflip : flipBit (covered code p) j k =
        BitVec.ofNat 8 (1 + p.length) :: flipBit (code :: p) (j - 1) k := by
      rw [← flipBit_cons, Nat.sub_add_cancel hj]; rfl
    refine ⟨flipBit (code :: p) (j - 1) k, w0, w1, w2, w3, by simp [Nat.add_comm], ?_, ?_⟩
    · rw [frame, flipBit_append_left _ k hbody, hflip, hbytes]
    · rw [hcrc, ← hflip]
      exact crc_flipBit_ne hc hbody hk
  · rw [frame, List.length_append, crcBytes_length] at hlt
    obtain ⟨w0, w1, w2, w3, hbytes⟩ := List.length_eq_four.mp
      ((flipBit_length (crcBytes c.crcWireOrder (crc c (covered code p))) (j - (covered code p).length) k).trans
        (crcBytes_length _ _))
    refine ⟨code :: p, w0, w1, w2, w3, by simp [Nat.add_comm], ?_, ?_⟩
    · rw [frame, flipBit_append_right _ k (by omega), hbytes]; rfl
    · exact crcOfBytes_ne_of_flipBit (by omega) hk hbytes

/-- Settles O13: what arrives is a frame with a wrong crc. -/
theorem flippedBitIsChecksumMismatch : Obligations.FlippedBitIsChecksumMismatch := by
  intro s code p j k rest hc hr hp hi hf hfits hj hlt hk hrx
  obtain ⟨body, w0, w1, w2, w3, hbody, hflip, hcrc⟩ := flipBit_frame hc code p hj hlt hk
  have hrx' : s.env.rx = ((BitVec.ofNat 8 (1 + p.length) :: body) ++ [w0, w1, w2, w3]).map RxItem.byte ++ rest := by
    rw [← hflip]; exact hrx
  obtain ⟨t, hstep, _, hregs, henv, hread⟩ := wrongCrcIsRefused s _ w0 w1 w2 w3 body rest hc hr hp hi hf
    (envelope_of_fits code hfits).1 (by rw [lengthByte_toNat hfits, hbody]) hrx' hcrc
  exact ⟨t, hstep, by rw [hregs]; rfl, by rw [hregs]; rfl, by rw [hregs]; rfl, by rw [hregs]; rfl,
    by rw [henv], by rw [henv], hread⟩

end Sys2Proof.Machine
end

section
/-! PROOFS. The dispatch (`42_dispatch.md` R171 to R184). A frame that is no command is refused by one lemma
(`step_of_refused_command`), the response of the step in `Responding` is said once (`State.response_of_error`,
`State.response_eq_ack_ok_iff`). The port calls of a step are said once per protocol state (`PState.Calls`): their phase
and the one `Tx` of a response follow from it. -/

namespace Sys2Proof.Machine

/-! A frame that is no command (R173, R174). -/

/-- Settles O14. -/
theorem stepRunsTheDecodedCommand : Obligations.StepRunsTheDecodedCommand :=
  fun _ _ hr hp hd _ => step_of_validating hr hp hd

/-- A frame whose code or size is refused is answered with the bare NACK of that error (T7, T8 of R184); no lock is
owed. -/
theorem step_of_refused_command {s : State} {e : DecodeError} {st : Byte} (hc : s.cfg.WellFormed)
    (hr : s.env.resetPending = false) (hp : s.regs.pstate = .validating) (hf : s.regs.flashOpen = false)
    (hd : decodeBody s.cfg s.regs.rxLen s.regs.rxBody = .error e) (hst : s.cfg.status e.err = some st) :
    step s = .next { s with regs := s.setCmd.regs.withResponse s.cfg.rcNack st [] } := by
  have hstep : step s = .next (s.setCmd.raise e.err) := by
    simp [step, hr, hp, State.validate, State.fetchCommand, hd]
  rw [hstep, State.raise_of_closed (s := s.setCmd) hst hf, State.respond, State.setCmd_cfg,
    (cfgFacts hc).responseCode_error hst]
  rfl

theorem decodeBody_of_unknown {c : Cfg} {body : List Byte} (len : Byte)
    (h : decodeCode c (payloadByte body 0) = none) : decodeBody c len body = .error .unsupportedCode := by
  simp [decodeBody, h]

theorem decodeBody_of_misfit {c : Cfg} {len : Byte} {body : List Byte} {n : CmdName}
    (h : decodeCode c (payloadByte body 0) = some n) (hn : sizeOk n len (body.drop 1) = false) :
    decodeBody c len body = .error .sizeMismatch := by
  simp [decodeBody, h, hn, -List.drop_one]

/-- Settles O18. -/
theorem unknownCodeIsUnsupported : Obligations.UnknownCodeIsUnsupported := by
  intro s hc hr hp hf hcode
  have hnone : decodeCode s.cfg (payloadByte s.regs.rxBody 0) = none := decodeCode_none.mpr hcode
  have hstep := step_of_refused_command hc hr hp hf (decodeBody_of_unknown s.regs.rxLen hnone) rfl
  rw [State.setCmd_regs, hnone] at hstep
  exact ⟨_, hstep, rfl, rfl, rfl, fun _ => rfl⟩

/-- A length that is neither the fixed one of the command nor, for MEM_WRITE, the one its `byte_count` gives is refused
(R174). -/
theorem sizeOk_of_misfit {n : CmdName} {len : Byte} {body : List Byte}
    (hfixed : ∀ l, fixedLength n = some l → len.toNat ≠ l)
    (hwrite : n = .memWrite → ¬ (6 ≤ len.toNat ∧ len.toNat = 6 + (body.getD 5 0).toNat)) :
    sizeOk n len (body.drop 1) = false := by
  rw [← Bool.not_eq_true, sizeOk_iff]
  intro hsize
  cases n with
  | memWrite =>
    have hcount : payloadByte (body.drop 1) 4 = body.getD 5 0 := by simp [payloadByte, List.getD]
    rw [payloadSize, hcount] at hsize
    exact hwrite rfl (by omega)
  | _ => exact hfixed _ rfl hsize

/-- Settles O19. -/
theorem misfitLengthIsMalformed : Obligations.MisfitLengthIsMalformed := by
  intro s n hc hr hp hf hcode hfixed hwrite
  have hsome : decodeCode s.cfg (payloadByte s.regs.rxBody 0) = some n := by
    rw [payloadByte, ← hcode]
    exact (cfgFacts hc).decodeCode_code n
  have hdecode := decodeBody_of_misfit hsome (sizeOk_of_misfit hfixed hwrite)
  have hstep := step_of_refused_command hc hr hp hf hdecode rfl
  rw [State.setCmd_regs, hsome] at hstep
  exact ⟨_, hstep, rfl, rfl, rfl, fun _ => rfl⟩

/-! The response (R178). -/

theorem step_of_responding {s : State} (hr : s.env.resetPending = false) (hp : s.regs.pstate = .responding) :
    step s = exec s.response s := by simp [step, hr, hp, State.answer]

/-- Where the `TX_` registers hold no frame of R100, the response is built from `STATUS` (log 25). -/
theorem State.response_of_error {s : State} {e : DecodeError} (h : s.fetchResponse = .error e) :
    s.response = builtResponse s.cfg s.regs.status s.regs.txPayload := by
  simp only [State.response, h]

/-- Settles O15. -/
theorem stepRunsTheResponse : Obligations.StepRunsTheResponse := by
  intro s hr hp
  rw [step_of_responding hr hp]
  refine ⟨fun i hd _ => by rw [State.response_of_ok hd], fun e hd => ?_⟩
  rw [State.response_of_error hd]
  exact ⟨fun hok => by rw [hok, builtResponse, if_pos rfl], fun hne => by rw [builtResponse, if_neg hne]⟩

theorem exec_ack_of_cycleEnd {s : State} {status : Byte} {data : List Byte}
    (h : ¬ (s.regs.cmd = some .goToAddress ∧ status = s.cfg.stOk)) :
    exec (.ack status data) s = .next (s.sendResponse s.cfg.rcAck status data).newCycle := if_neg h

/-- Settles O25. -/
theorem ackIsSentAndTheCycleEnds : Obligations.AckIsSentAndTheCycleEnds :=
  fun _ _ _ hcmd => ⟨_, exec_ack_of_cycleEnd fun h => hcmd h.1, rfl, rfl, rfl, fun _ => rfl⟩

/-- Settles O20. -/
theorem handedOffIsTerminal : Obligations.HandedOffIsTerminal := by
  intro s hr hp
  simp [step, hr, hp]

/-! The protocol state a step leads to (R184). -/

/-- The response is an ACK of `ST_OK` where the `TX_` registers hold one, or hold no frame and `STATUS` is `ST_OK`
(R100, R178; log 25). -/
theorem State.response_eq_ack_ok_iff (s : State) :
    (∃ data, s.response = .ack s.cfg.stOk data) ↔
      (s.regs.txCode = s.cfg.rcAck ∧ s.regs.txPayload.head? = some s.cfg.stOk) ∨
        (s.fetchResponse.toOption = none ∧ s.regs.status = s.cfg.stOk) := by
  cases hd : s.fetchResponse with
  | ok i =>
    rw [State.response_of_ok hd]
    rcases decodeResponseBody_ok hd with ⟨status, data, hpay, hcode, rfl⟩ | ⟨status, _, hcode, _, rfl⟩
    · simp [hpay, hcode, Except.toOption]
    · simp [hcode, Except.toOption]
  | error e =>
    have hnoframe : ¬ (s.regs.txCode = s.cfg.rcAck ∧ s.regs.txPayload.head? = some s.cfg.stOk) := by
      rintro ⟨hcode, hhead⟩
      obtain ⟨data, hpay⟩ := List.head?_eq_some_iff.mp hhead
      simp [State.fetchResponse, decodeResponseBody, hcode, hpay] at hd
    rw [State.response_of_error hd, builtResponse]
    by_cases hok : s.regs.status = s.cfg.stOk
    · simp [hok, Except.toOption]
    · simpa [hok] using hnoframe

/-- Only the ACK of a GO_TO_ADDRESS with `ST_OK` leads to `HandedOff`, every other response to the next cycle (R182,
T12, T13 of R184). -/
theorem State.answer_pstate {s t : State} (h : exec s.response s = .next t) :
    ((s.regs.cmd = some .goToAddress ∧ ∃ data, s.response = .ack s.cfg.stOk data) ∧
        t.regs.pstate = .handedOff) ∨
      (¬ (s.regs.cmd = some .goToAddress ∧ ∃ data, s.response = .ack s.cfg.stOk data) ∧
        t.regs.pstate = .awaitingFrame) := by
  have hkind : (∃ status data, s.response = .ack status data) ∨ ∃ status, s.response = .nack status := by
    rcases s.response_cases with ⟨_, _, _, _, hr⟩ | ⟨_, _, _, _, hr⟩ | ⟨_, _, hr⟩ | ⟨_, _, hr⟩
    · exact .inl ⟨_, _, hr⟩
    · exact .inr ⟨_, hr⟩
    · exact .inl ⟨_, _, hr⟩
    · exact .inr ⟨_, hr⟩
  rcases hkind with ⟨status, data, hr⟩ | ⟨status, hr⟩ <;> rw [hr] at h ⊢
  · rcases execAck_next h with ⟨hcmd, rfl, rfl⟩ | ⟨hother, rfl⟩
    · exact .inl ⟨⟨hcmd, data, rfl⟩, rfl⟩
    · refine .inr ⟨?_, rfl⟩
      rintro ⟨hcmd, _, hack⟩
      cases hack
      exact hother ⟨hcmd, rfl⟩
  · obtain rfl := execNack_next h
    exact .inr ⟨by simp, rfl⟩

/-- Taking an error that has a status leaves its failure frame to be sent (R304). -/
theorem State.raise_pstate {s : State} {e : Err} (h : e ≠ .timeout) : (s.raise e).regs.pstate = .responding := by
  obtain ⟨st, hst⟩ := status_of_ne_timeout s.cfg h
  rw [State.raise_of_status hst]
  rfl

/-- A command ends in `Responding`, whether it succeeds or fails (T8, T9, T11 of R184). -/
theorem Ran.Ends.finish_pstate {n : Nat} {A : Nat → Prop} {P : Event → Prop} {p : Bracket} {s t : State} {r : Ran}
    (hr : r.Ends n A P p s) (ht : r.finish = .next t) : t.regs.pstate = .responding := by
  match r, hr with
  | .done data u, _ => cases ht; rfl
  | .raised e u, ⟨he, _⟩ => cases ht; exact State.raise_pstate he
  | .stopped f, _ => cases ht

/-- `AwaitingFrame` ends in `Validating`, in the next cycle after a silence, or in the NACK of a frame (T1 to T6 of
R184). -/
theorem State.receive_pstate {s t : State} (h : s.receive = .next t) :
    t.regs.pstate = .awaitingFrame ∨ t.regs.pstate = .validating ∨ t.regs.pstate = .responding := by
  obtain ⟨u, _, hend⟩ := State.receive_next h
  rcases hend with ⟨_, rfl⟩ | ⟨_, rfl⟩ | ⟨_, rfl⟩ | ⟨_, rfl⟩
  · exact .inr (.inl rfl)
  · exact .inl (by rw [State.raise_timeout]; rfl)
  · exact .inr (.inr (State.raise_pstate (by simp)))
  · exact .inr (.inr (State.raise_pstate (by simp)))

/-- Settles O51: one case per protocol state of `step_next`. -/
theorem transitionsFollowTheTable : Obligations.TransitionsFollowTheTable := by
  intro s t hr ht
  have hrefused : ∀ {u : State} {e : Err}, e = .unsupportedCommand ∨ e = .malformedLength →
      (u.raise e).regs.pstate = .responding := fun he =>
    State.raise_pstate (by rcases he with rfl | rfl <;> simp)
  rcases step_next ht with ⟨hr', _⟩ | ⟨_, ⟨hp, hx⟩ | ⟨hp, ⟨i, _, hi, hx⟩ | ⟨e, he, rfl⟩⟩ |
    ⟨hp, ⟨i, _, hx⟩ | ⟨e, he, rfl⟩⟩ | ⟨hp, hx⟩⟩
  · rw [hr] at hr'; cases hr'
  · simpa [hp] using State.receive_pstate hx
  · obtain ⟨r, hends, hfin⟩ := exec_command_ends hi hx
    simpa [hp] using hends.finish_pstate hfin
  · simpa [hp] using hrefused he
  · simpa [hp] using (takenUp_ends i hp).finish_pstate hx
  · simpa [hp] using hrefused he
  · have hto := State.answer_pstate hx
    rw [State.response_eq_ack_ok_iff, State.fetchResponse] at hto
    refine ⟨by simp [hp], by simp [hp], by simp [hp], fun _ => ?_, by simp [hp]⟩
    rcases hto with ⟨hcond, hto⟩ | ⟨hcond, hto⟩
    · rw [if_pos hcond]; exact hto
    · rw [if_neg hcond]; exact hto

/-! The port calls of a step (R179, R180). -/

/-- The port calls a step that starts in a protocol state makes: `Rx` in `AwaitingFrame`, and the lock if one is `owed`
(R140, R304 (1)); those of a command in `Validating` and `Executing` (R176, R177); in `Responding` one `Tx`, and then
the CPU calls of a hand-off (R178, R274). -/
def PState.Calls (owed : Bool) : PState → List Event → Prop
  | .awaitingFrame, es => ∀ e ∈ es, e.isRx = true ∨ (owed = true ∧ e = .flashLock)
  | .validating, es => ∀ e ∈ es, e.ofCommand = true
  | .executing, es => ∀ e ∈ es, e.ofCommand = true
  | .responding, es => ∃ bytes cpu, es = .tx bytes :: cpu ∧ ∀ e ∈ cpu, e.isCpu = true
  | .handedOff, es => es = []

/-- Taking an error makes no call but the lock that is owed (R304 (1)). -/
theorem State.raise_calls (s : State) (e : Err) :
    ∃ es, (s.raise e).env.trace = s.env.trace ++ es ∧ ∀ x ∈ es, s.regs.flashOpen = true ∧ x = .flashLock := by
  cases hf : s.regs.flashOpen with
  | false => exact ⟨[], by rw [State.raise_env_of_closed e hf, List.append_nil], by simp⟩
  | true =>
    rcases s.raise_cases e with ⟨_, h⟩ | ⟨st, _, h⟩ <;> rw [h]
    · exact ⟨[], by simp, by simp⟩
    · exact ⟨[.flashLock], by rw [State.payLock_of_open hf]; simp, by simp⟩

theorem State.raise_commandCalls (s : State) (e : Err) :
    ∃ es, (s.raise e).env.trace = s.env.trace ++ es ∧ ∀ x ∈ es, x.ofCommand = true := by
  obtain ⟨es, htrace, hes⟩ := s.raise_calls e
  exact ⟨es, htrace, fun x hx => by rw [(hes x hx).2]; rfl⟩

/-- A command makes its own calls only, to its end (R180). -/
theorem Ran.Ends.finish_calls {n : Nat} {A : Nat → Prop} {P : Event → Prop} {p : Bracket} {s t : State} {r : Ran}
    (hr : r.Ends n A P p s) (ht : r.finish = .next t) :
    ∃ es, t.env.trace = s.env.trace ++ es ∧ ∀ e ∈ es, e.ofCommand = true := by
  match r, hr with
  | .done data u, ⟨_, _, es, _, he⟩ =>
    cases ht
    exact ⟨es, he.trace, fun e hm => (he.calls e hm).2⟩
  | .raised e u, ⟨_, _, es, _, he, _⟩ =>
    cases ht
    obtain ⟨es', htrace, hes'⟩ := u.raise_commandCalls e
    exact ⟨es ++ es', by rw [htrace, he.trace, List.append_assoc],
      List.forall_mem_append.mpr ⟨fun x hm => (he.calls x hm).2, hes'⟩⟩
  | .stopped f, _ => cases ht

theorem State.receive_calls {s t : State} (h : s.receive = .next t) :
    ∃ es, t.env.trace = s.env.trace ++ es ∧ PState.Calls s.regs.flashOpen .awaitingFrame es := by
  obtain ⟨u, hu, hend⟩ := State.receive_next h
  obtain ⟨q, es, henv, hes⟩ := hu.env
  have htrace : u.env.trace = s.env.trace ++ es := by rw [henv]
  have hopen : u.regs.flashOpen = s.regs.flashOpen := by rw [hu.regs]
  have hraise : ∀ e, t = u.raise e →
      ∃ es, t.env.trace = s.env.trace ++ es ∧ PState.Calls s.regs.flashOpen .awaitingFrame es := by
    rintro e rfl
    obtain ⟨es', htrace', hes'⟩ := u.raise_calls e
    refine ⟨es ++ es', by rw [htrace', htrace, List.append_assoc], ?_⟩
    exact List.forall_mem_append.mpr ⟨fun x hx => .inl (hes x hx), fun x hx => .inr (hopen ▸ hes' x hx)⟩
  rcases hend with ⟨_, rfl⟩ | ⟨_, ht⟩ | ⟨_, ht⟩ | ⟨_, ht⟩
  · exact ⟨es, htrace, fun x hx => .inl (hes x hx)⟩
  all_goals exact hraise _ ht

theorem State.answer_calls {s t : State} (h : exec s.response s = .next t) :
    ∃ es, t.env.trace = s.env.trace ++ es ∧ PState.Calls s.regs.flashOpen .responding es := by
  obtain ⟨code, status, data, rfl | rfl⟩ := State.answer_next h
  · exact ⟨_, by simp, frame s.cfg code (status :: data), [.cpuDisableInterrupts,
      .cpuRelocateVectorTable s.regs.argAddr, .cpuSetStackPointer s.regs.hoSp, .cpuJump s.regs.hoEntry],
      rfl, by simp [Event.isCpu]⟩
  · exact ⟨_, by simp, frame s.cfg code (status :: data), [], rfl, by simp⟩

/-- Every port call of a step belongs to the protocol state it starts in (R180, R184). -/
theorem step_calls {s t : State} (ht : step s = .next t) (hr : s.env.resetPending = false) :
    ∃ es, t.env.trace = s.env.trace ++ es ∧ s.regs.pstate.Calls s.regs.flashOpen es := by
  rcases step_next ht with ⟨hr', _⟩ | ⟨_, ⟨hp, hx⟩ | ⟨hp, ⟨i, _, hi, hx⟩ | ⟨e, _, rfl⟩⟩ |
    ⟨hp, ⟨i, _, hx⟩ | ⟨e, _, rfl⟩⟩ | ⟨hp, hx⟩⟩
  · rw [hr] at hr'; cases hr'
  all_goals rw [hp]
  · exact State.receive_calls hx
  · obtain ⟨r, hends, hfin⟩ := exec_command_ends hi hx
    exact hends.finish_calls hfin
  · exact s.setCmd.raise_commandCalls e
  · exact (takenUp_ends i hp).finish_calls hx
  · exact s.raise_commandCalls e
  · exact State.answer_calls hx

/-! No call is of two phases. -/

theorem Event.isRx_not {e : Event} (h : e.isRx = true) :
    e.isExecution = false ∧ e.isTx = false ∧ e.isCpu = false := by
  cases e <;> simp [Event.isRx, Event.isExecution, Event.isTx, Event.isCpu] at h ⊢

theorem Event.isCpu_not {e : Event} (h : e.isCpu = true) :
    e.isRx = false ∧ e.isExecution = false ∧ e.isTx = false := by
  cases e <;> simp [Event.isRx, Event.isExecution, Event.isTx, Event.isCpu] at h ⊢

/-- Settles O52: with no lock owed, the calls of each protocol state are of its phase. -/
theorem portCallsKeepTheirPhase : Obligations.PortCallsKeepTheirPhase := by
  intro s t hr hf ht
  obtain ⟨es, htrace, hcalls⟩ := step_calls ht hr
  refine ⟨es, htrace, fun e he => ?_⟩
  rw [hf] at hcalls
  cases hp : s.regs.pstate <;> rw [hp] at hcalls
  case awaitingFrame =>
    obtain ⟨hexec, htx, hcpu⟩ := Event.isRx_not ((hcalls e he).resolve_right (by simp))
    simp [hexec, htx, hcpu]
  case validating | executing =>
    obtain ⟨hrx, htx, hcpu⟩ := Event.ofCommand_not (hcalls e he)
    simp [hrx, htx, hcpu]
  case responding =>
    obtain ⟨bytes, cpu, rfl, hcpu⟩ := hcalls
    rcases List.mem_cons.mp he with rfl | he
    · simp [Event.isRx, Event.isExecution]
    · obtain ⟨hrx, hexec, _⟩ := Event.isCpu_not (hcpu e he)
      simp [hrx, hexec]
  case handedOff =>
    cases hcalls
    cases he

/-- The calls of `Responding` hold one `Tx`, those of every other protocol state none (R179). -/
theorem PState.Calls.countTx {owed : Bool} {p : PState} {es : List Event} (h : p.Calls owed es) :
    (es.filter Event.isTx).length = if p = .responding then 1 else 0 := by
  have hnone : ∀ {l : List Event}, (∀ e ∈ l, e.isTx = false) → l.filter Event.isTx = [] := fun hl =>
    List.filter_eq_nil_iff.mpr fun e he => by simp [hl e he]
  cases p with
  | awaitingFrame =>
    have hl : ∀ e ∈ es, e.isTx = false := fun e he => by
      rcases h e he with hrx | ⟨_, rfl⟩
      · exact (Event.isRx_not hrx).2.1
      · rfl
    simp [hnone hl]
  | validating | executing => simp [hnone fun e he => (Event.ofCommand_not (h e he)).2.1]
  | responding =>
    obtain ⟨bytes, cpu, rfl, hcpu⟩ := h
    rw [List.filter_cons_of_pos rfl, hnone fun e he => (Event.isCpu_not (hcpu e he)).2.2, if_pos rfl]
    rfl
  | handedOff => cases h; rfl

/-- Settles O53. -/
theorem oneTxPerResponse : Obligations.OneTxPerResponse := by
  intro s t hr ht
  obtain ⟨es, htrace, hcalls⟩ := step_calls ht hr
  exact ⟨es, htrace, hcalls.countTx⟩

end Sys2Proof.Machine
end

section
/-! PROOFS. The introspection commands (`43_introspection_commands.md` R200 to R205). None has a precondition, and what
each executes leaves the registers alone, so the answer is its data with `ST_OK` (`runCommand_noCheck_of_done`); its
frame is its code alone (`CfgFacts.decodeBody_codeAlone`). -/

namespace Sys2Proof.Machine

/-- A command without a precondition, whose execution changes at most the environment, answers its data with `ST_OK`
(R177, R178). -/
theorem runCommand_noCheck_of_done {n : CmdName} {run : State → Ran} {s : State} {data : List Byte} {env : Env}
    (h : run (s.accept n id).enterExecuting = .done data { (s.accept n id).enterExecuting with env := env }) :
    runCommand n id noCheck run s = .next { s with
      regs := { s.regs with cmd := some n }.withResponse s.cfg.rcAck s.cfg.stOk data
      env := env } := by
  rw [runCommand_of_done (noCheck_eq _), h, Ran.finish_done, State.succeed, State.respond, responseCode_ok]
  rfl

/-- A command without arguments is sent as its code with `length = 1` (R97). -/
theorem CfgFacts.decodeBody_codeAlone {c : Cfg} (hc : CfgFacts c) {i : Instr} (hi : i.isCommand = true)
    (h : i.WellFormed c) (hp : payloadOf c i = []) : decodeBody c 1 [codeOf c i] = .ok i := by
  have hbody := hc.decodeBody_payloadOf hi h
  rwa [hp] at hbody

/-- The u16 of a response, byte by byte (R98, R101). -/
theorem fieldBytes16_eq_ite (o : FieldOrder) (v : Half) :
    fieldBytes16 o v = if o = .little then [v.extractLsb' 0 8, v.extractLsb' 8 8]
      else [v.extractLsb' 8 8, v.extractLsb' 0 8] := by
  cases o <;> rfl

/-- Settles O27: the executions hold no port call, so the environment stays. -/
theorem versionAndHelpAnswer : Obligations.VersionAndHelpAnswer := by
  intro s
  have hversion : exec .getVersion s = _ := runCommand_noCheck_of_done (run := runGetVersion) rfl
  have hhelp : exec .getHelp s = _ := runCommand_noCheck_of_done (run := runGetHelp) rfl
  refine ⟨⟨_, hversion, rfl, rfl, rfl, fun _ => rfl⟩, fun hc => ?_, ⟨_, hhelp, rfl, rfl, rfl, fun _ => rfl⟩,
    fun hc => ?_⟩
  · exact (cfgFacts hc).decodeBody_codeAlone (i := .getVersion) rfl rfl rfl
  · exact (cfgFacts hc).decodeBody_codeAlone (i := .getHelp) rfl rfl rfl

/-- Settles O28: each execution is its one port call, which the trace records. -/
theorem statusCommandsAnswerThePort : Obligations.StatusCommandsAnswerThePort := by
  intro s bytes16 hbytes
  have hfield : fieldBytes16 s.cfg.fieldOrder = bytes16 := by
    rw [hbytes]
    exact funext (fieldBytes16_eq_ite _)
  have hchip : exec .getChipId s = _ := runCommand_noCheck_of_done (run := runGetChipId) rfl
  have hrdp : exec .getReadProtectionStatus s = _ := runCommand_noCheck_of_done (run := runGetReadProtectionStatus) rfl
  have hsector : exec .readSectorProtectionStatus s = _ :=
    runCommand_noCheck_of_done (run := runReadSectorProtectionStatus) rfl
  rw [← hfield]
  refine ⟨⟨_, hchip, rfl, rfl, rfl, fun _ => rfl⟩, ⟨_, hrdp, rfl, rfl, rfl, fun _ => rfl⟩,
    ⟨_, hsector, rfl, rfl, rfl, fun _ => rfl⟩, fun hc => ⟨?_, ?_, ?_⟩⟩
  · exact (cfgFacts hc).decodeBody_codeAlone (i := .getChipId) rfl rfl rfl
  · exact (cfgFacts hc).decodeBody_codeAlone (i := .getReadProtectionStatus) rfl rfl rfl
  · exact (cfgFacts hc).decodeBody_codeAlone (i := .readSectorProtectionStatus) rfl rfl rfl

end Sys2Proof.Machine
end

section
/-! PROOFS. How a command ends, said once for the flash commands: the response after a success, after an error with no
lock owed, after a refusal by a check, and after a port call whose answer is mapped (`42_dispatch.md` R176 to R178,
`44_flash_commands.md` R229, R235, R239). The protection commands and the refused request need no more. -/

namespace Sys2Proof.Machine

/-! The response that ends a command. -/

/-- The successful end of a command (R178). -/
theorem State.succeed_eq (s : State) (data : List Byte) :
    s.succeed data = { s with regs := s.regs.withResponse s.cfg.rcAck s.cfg.stOk data } := by
  rw [State.succeed, State.respond, responseCode_ok]
  rfl

/-- An error with no lock owed leaves the failure frame and nothing else (R304). -/
theorem State.raise_eq_of_closed {s : State} {e : Err} {st : Byte} (hc : s.cfg.WellFormed)
    (hst : s.cfg.status e = some st) (hf : s.regs.flashOpen = false) :
    s.raise e = { s with regs := s.regs.withResponse s.cfg.rcNack st [] } := by
  rw [State.raise_of_closed hst hf, State.respond, (cfgFacts hc).responseCode_error hst]
  rfl

/-- A command refused by its check, whose check made at most some calls, answers the bare NACK (R176). -/
theorem runCommand_of_refused {n : CmdName} {args : Regs → Regs} {check run : State → Ran} {s : State} {e : Err}
    {st : Byte} {env : Env} (hc : s.cfg.WellFormed) (hf : (args s.regs).flashOpen = false)
    (h : check (s.accept n args) = .raised e { s.accept n args with env := env }) (hst : s.cfg.status e = some st) :
    runCommand n args check run s = .next { s with
      regs := { args s.regs with cmd := some n }.withResponse s.cfg.rcNack st []
      env := env } := by
  rw [runCommand_of_raised h, State.raise_eq_of_closed (s := { s.accept n args with env := env }) hc hst hf]
  rfl

/-! A port call whose answer is mapped (R235, R236). -/

/-- The status an answer is reported as (R229, R235). -/
def PortAnswer.status (c : Cfg) : PortAnswer → Byte
  | .ok => c.stOk
  | .hardwareFault => c.stHardwareFault
  | .timeout => c.stFlashTimeout

theorem ofAnswer_finish {s : State} (ans : PortAnswer) (hc : s.cfg.WellFormed) (hf : s.regs.flashOpen = false) :
    (ofAnswer (ans, s)).finish = .next { s with
      regs := s.regs.withResponse (if ans = .ok then s.cfg.rcAck else s.cfg.rcNack) (ans.status s.cfg) [] } := by
  cases ans with
  | ok => rw [ofAnswer_ok, Ran.finish_done, State.succeed_eq]; rfl
  | hardwareFault => rw [ofAnswer_hardwareFault, Ran.finish_raised, State.raise_eq_of_closed hc rfl hf]; rfl
  | timeout => rw [ofAnswer_timeout, Ran.finish_raised, State.raise_eq_of_closed hc rfl hf]; rfl

/-- The answer of a protection-write call is `Ok` unless the plan has it fail (R68; log 13). -/
theorem protectionResult_answer (s : State) (new : DriverStatus) :
    (protectionResult s new (s.env.protPlan.headD .asReference)).1 =
      match s.env.protPlan with
      | .fails e :: _ => e.answer
      | _ => .ok := by
  rcases s.env.protPlan with _ | ⟨_ | _ | _, _⟩ <;> rfl

/-- A protection-write call, recorded as `call`, whose answer ends the command (R235, R236): only the driver, its plan
and the draws differ, and the trace by the one call. -/
theorem protectionCall_finish {s : State} (new : DriverStatus) (call : PortAnswer → Event) (hc : s.cfg.WellFormed)
    (hf : s.regs.flashOpen = false) :
    ∃ d k, ∃ ans : PortAnswer,
      (ofAnswer ((s.protectionCall new).1, (s.protectionCall new).2.log (call (s.protectionCall new).1))).finish
        = .next { s with
          regs := s.regs.withResponse (if ans = .ok then s.cfg.rcAck else s.cfg.rcNack) (ans.status s.cfg) []
          env := { s.env with
            driver := d, protPlan := s.env.protPlan.tail, draws := k, trace := s.env.trace ++ [call ans] } } ∧
      ans = match s.env.protPlan with
        | .fails e :: _ => e.answer
        | _ => .ok := by
  rw [State.protectionCall_eq]
  exact ⟨_, _, _, ofAnswer_finish _ hc hf, protectionResult_answer s new⟩

/-! The protection commands. -/

/-- A mask with a bit that no sector has is out of range (R235). -/
theorem mask_not_lt_of_getLsbD {mask : Half} {n k : Nat} (hk : n ≤ k) (h : mask.getLsbD k = true) :
    ¬ mask.toNat < 2 ^ n := fun hlt => by
  have hpow : mask.toNat < 2 ^ k := Nat.lt_of_lt_of_le hlt (Nat.pow_le_pow_right (by decide) hk)
  have hbit : mask.toNat.testBit k = false := Nat.testBit_lt_two_pow hpow
  rw [BitVec.testBit_toNat, h] at hbit
  cases hbit

/-- Settles O43: the three refusals are those of the check. -/
theorem protectChecksRefuse : Obligations.ProtectChecksRefuse := by
  intro s mask mode hc hf hbad
  rcases checkEnableRwProtect_cases mask mode (s.accept .enableRwProtect fun r =>
    { r with argMask := mask, argMode := mode }) with ⟨hcheck, _⟩ | ⟨_, hmask, hrange, hmode⟩
  · have hexec : exec (.enableRwProtect mask mode) s = _ :=
      runCommand_of_refused (run := runEnableRwProtect mask mode) (env := s.env) hc hf hcheck rfl
    exact ⟨_, hexec, rfl, rfl, rfl, fun _ => rfl⟩
  · rcases hbad with hzero | ⟨k, hk, hbit⟩ | hother
    · exact absurd hzero hmask
    · exact absurd hrange (mask_not_lt_of_getLsbD hk hbit)
    · exact absurd hmode hother

/-- Settles O44: after the check the command is its one port call. -/
theorem enableProtectMapsTheAnswer : Obligations.EnableProtectMapsTheAnswer := by
  intro s mask mode hc hf hmask hhigh hmode
  let u : State := (s.accept .enableRwProtect fun r => { r with argMask := mask, argMode := mode }).enterExecuting
  have hexec : exec (.enableRwProtect mask mode) s = (runEnableRwProtect mask mode u).finish :=
    runCommand_of_done (run := runEnableRwProtect mask mode)
      (checkEnableRwProtect_of_allowed hmask (mask_lt_of_getLsbD hhigh) hmode)
  obtain ⟨_, _, ans, hfinish, hans⟩ :=
    protectionCall_finish (s := u) (u.env.driver.enable u.cfg mask mode) (.flashEnableProtection mask mode) hc hf
  exact ⟨_, ans, hexec.trans hfinish, rfl, rfl, hans, by cases ans <;> rfl, fun _ => rfl⟩

/-- Settles O45. -/
theorem disableProtectMapsTheAnswer : Obligations.DisableProtectMapsTheAnswer := by
  intro s hc hf
  let u : State := (s.accept .disableRwProtect id).enterExecuting
  have hexec : exec .disableRwProtect s = (runDisableRwProtect u).finish := runCommand_of_done (noCheck_eq _)
  obtain ⟨_, _, ans, hfinish, hans⟩ :=
    protectionCall_finish (s := u) u.env.driver.disable .flashDisableProtection hc hf
  exact ⟨_, ans, hexec.trans hfinish, rfl, rfl, hans, by cases ans <;> rfl, fun _ => rfl⟩

/-! The refused request (R239). -/

/-- What a refused request leaves alone: no flash call was made, the content and the driver are as before. -/
structure Untouched (s t : State) : Prop where
  cfg : t.cfg = s.cfg
  calls : ∃ es, t.env.trace = s.env.trace ++ es ∧ ∀ e ∈ es, e.isFlash = false
  mem : t.env.mem = s.env.mem
  driver : t.env.driver = s.env.driver

/-- Taking an error with no lock owed adds nothing. -/
theorem Untouched.raise {s u : State} (h : Untouched s u) (e : Err) (hf : u.regs.flashOpen = false) :
    Untouched s (u.raise e) := by
  have henv := State.raise_env_of_closed e hf
  exact ⟨(u.raise_cfg e).trans h.cfg, by rw [henv]; exact h.calls, by rw [henv]; exact h.mem,
    by rw [henv]; exact h.driver⟩

/-- The reading of a frame calls `Rx` only (R140). -/
theorem ReadsFrame.untouched {W : Prop} {s u : State} (h : ReadsFrame W s u) : Untouched s u := by
  obtain ⟨q, es, henv, hes⟩ := h.env
  refine ⟨h.cfg, ⟨es, by rw [henv], fun e he => ?_⟩, by rw [henv], by rw [henv]⟩
  have hrx := hes e he
  cases e <;> first | rfl | cases hrx

/-- `AwaitingFrame` makes no flash call (R140, R172). -/
theorem State.receive_untouched {s t : State} (h : s.receive = .next t) (hf : s.regs.flashOpen = false) :
    Untouched s t := by
  obtain ⟨u, hu, hend⟩ := State.receive_next h
  have hfu : u.regs.flashOpen = false := by rw [hu.regs]; exact hf
  rcases hend with ⟨_, rfl⟩ | ⟨_, rfl⟩ | ⟨_, rfl⟩ | ⟨_, rfl⟩
  · exact ⟨hu.cfg, hu.untouched.calls, hu.untouched.mem, hu.untouched.driver⟩
  all_goals exact hu.untouched.raise _ hfu

/-- An error raised after a precondition passed has one of three statuses (R300 to R303). -/
theorem executionError_status {c : Cfg} {e : Err} (h : executionError e = true) :
    ∃ st, c.status e = some st ∧ st ∈ [c.stHardwareFault, c.stVerifyFailed, c.stFlashTimeout] := by
  cases e with
  | hardwareFault | verifyFailed | flashTimeout => exact ⟨_, rfl, by simp⟩
  | _ => cases h

/-- A command that ends in neither success nor an error of its execution was refused (R239). -/
theorem Ran.Ends.untouched {n : Nat} {A : Nat → Prop} {P : Event → Prop} {s t : State} {r : Ran}
    (hr : r.Ends n A P .before s) (hf : s.regs.flashOpen = false) (ht : r.finish = .next t)
    (hst : t.regs.status ∉ [s.cfg.stOk, s.cfg.stHardwareFault, s.cfg.stVerifyFailed, s.cfg.stFlashTimeout]) :
    Untouched s t := by
  match r, hr with
  | .done data u, ⟨_, _, _, _, he⟩ =>
    cases ht
    exact absurd (by simp [he.cfg]) hst
  | .raised e u, ⟨_, q, es, hq, he, hquiet⟩ =>
    cases ht
    cases hx : executionError e with
    | true =>
      obtain ⟨st, hstatus, hmem⟩ := executionError_status (c := u.cfg) hx
      rw [he.cfg] at hmem
      exact absurd (by rw [State.raise_status hstatus]; exact List.mem_cons_of_mem _ hmem) hst
    | false =>
      have hes := hquiet hx
      exact Untouched.raise ⟨he.cfg, ⟨es, he.trace, fun x hm => (hes x hm).1⟩, he.quiet fun x hm => (hes x hm).1,
        he.driver fun x hm => (hes x hm).2⟩ e (he.closed hq (.inr hf))
  | .stopped f, _ => cases ht

/-- Settles O55: the reading of a frame makes no flash call; in `Validating` the frame is no command, or it is one
that ends as `Ran.Ends.untouched` says. -/
theorem refusedRequestChangesNothing : Obligations.RefusedRequestChangesNothing := by
  intro s t _ hr hf hp ht hst
  suffices h : Untouched s t from
    ⟨h.calls, h.mem, h.driver, fun a => by rw [State.readByte_eq, State.readByte_eq, h.cfg, h.mem]⟩
  rcases step_next ht with ⟨hr', _⟩ | ⟨_, ⟨_, hx⟩ | ⟨_, ⟨i, _, hi, hx⟩ | ⟨e, _, rfl⟩⟩ | ⟨hp', _⟩ | ⟨hp', _⟩⟩
  · rw [hr] at hr'; cases hr'
  · exact State.receive_untouched hx hf
  · obtain ⟨r, hends, hfin⟩ := exec_command_ends hi hx
    exact hends.untouched hf hfin hst
  · exact Untouched.raise (s := s) (u := s.setCmd) ⟨rfl, ⟨[], by simp, by simp⟩, rfl, rfl⟩ e hf
  · simp [hp'] at hp
  · simp [hp'] at hp

end Sys2Proof.Machine
end

section
/-! PROOFS. The read commands (`44_flash_commands.md` R228, R233, R234). MEM_READ and OTP_READ are one command over two
spaces (`ReadsFrom`): the same check over a range that must lie in the space, the same execution. -/

namespace Sys2Proof.Machine

/-- The command `i`, of the name `n`, reads `count` bytes at `address` out of the space from `base` to `limit`. -/
abbrev ReadsFrom (c : Cfg) (address : Word) (count : Byte) (i : Instr) (n : CmdName) (base limit : Nat) : Prop :=
  (i = .memRead address count ∧ n = .memRead ∧ base = c.flashBase ∧ limit = c.flashEnd) ∨
    (i = .otpRead address count ∧ n = .otpRead ∧ base = c.otpBase ∧ limit = c.otpEnd)

/-- `CMD`, `ARG_ADDR` and `ARG_COUNT` of a read (R228). -/
def State.acceptRead (s : State) (n : CmdName) (address : Word) (count : Byte) : State :=
  s.accept n fun r => { r with argAddr := address, argCount := count }

/-- Both read commands, by whether their range is in the space they read (R228, R234). -/
theorem exec_read_eq {s : State} {address : Word} {count : Byte} {i : Instr} {n : CmdName} {base limit : Nat}
    (h : ReadsFrom s.cfg address count i n base limit) :
    ∃ inSpace : Bool,
      (inSpace = true ↔ 1 ≤ count.toNat ∧ base ≤ address.toNat ∧ address.toNat + count.toNat ≤ limit) ∧
      (inSpace = true → mapped s.cfg address.toNat count.toNat = true) ∧
      exec i s = runCommand n (fun r => { r with argAddr := address, argCount := count })
        (checkRead inSpace address.toNat count.toNat) (runRead address count) s := by
  rcases h with ⟨rfl, rfl, rfl, rfl⟩ | ⟨rfl, rfl, rfl, rfl⟩
  · exact ⟨_, inFlash_iff _ _ _, fun h => (mapped_iff _ _ _).mpr (.inl h), rfl⟩
  · exact ⟨_, inOtp_iff _ _ _, fun h => (mapped_iff _ _ _).mpr (.inr h), rfl⟩

/-- Settles O41: each refusal of the check, with the query of the read protection as the only call. -/
theorem readChecksRefuse : Obligations.ReadChecksRefuse := by
  intro s address count hc hf i n base limit hread status es hwhy
  obtain ⟨inSpace, hin, _, hexec⟩ := exec_read_eq hread
  have hrefused : ∀ {e : Err},
      checkRead inSpace address.toNat count.toNat (s.acceptRead n address count)
        = .raised e { s.acceptRead n address count with env := { s.env with trace := s.env.trace ++ es } } →
      s.cfg.status e = some status →
      ∃ t, exec i s = .next t ∧ t.cfg = s.cfg ∧ t.env = { s.env with trace := s.env.trace ++ es } ∧
        t.regs = { s.regs with cmd := some n, argAddr := address, argCount := count }.withResponse
          s.cfg.rcNack status [] ∧
        ∀ a, t.readByte a = s.readByte a := fun hcheck hst =>
    ⟨_, hexec.trans (runCommand_of_refused hc hf hcheck hst), rfl, rfl, rfl, fun _ => rfl⟩
  rcases checkRead_cases inSpace address.toNat count.toNat (s.acceptRead n address count) with
    ⟨hcheck, hbad⟩ | ⟨hcheck, hzero, hmax, hspace, hprot⟩ | ⟨_, hzero, hmax, hspace, hfree⟩
  · rw [if_pos (by rw [← Bool.not_eq_true, hin] at hbad; omega)] at hwhy
    obtain ⟨rfl, rfl⟩ := hwhy
    simp only [List.append_nil] at hrefused ⊢
    exact hrefused hcheck rfl
  all_goals
    have hok := hin.mp hspace
    rw [if_neg (by omega)] at hwhy
  · obtain ⟨_, rfl, rfl⟩ := hwhy
    exact hrefused hcheck rfl
  · obtain ⟨⟨j, hj, hprot⟩, _⟩ := hwhy
    have hfree' : s.readProtected (address.toNat + j) = false := hfree j hj
    rw [hprot] at hfree'; cases hfree'

/-- The execution of a read in a mapped space answers its bytes (R228). -/
theorem runRead_of_mapped {s : State} {address : Word} {count : Byte}
    (h : mapped s.cfg address.toNat count.toNat = true) :
    runRead address count s =
      .done (Memory.readBytes s.cfg.erasedByte s.env.mem address.toNat count.toNat)
        (s.log (.memRead address.toNat count.toNat
          (Memory.readBytes s.cfg.erasedByte s.env.mem address.toNat count.toNat))) := by
  rw [runRead, State.portMemRead_eq s _ _ h]

/-- Settles O42: the check passes, and the one read that follows answers the bytes. -/
theorem readAnswersTheBytes : Obligations.ReadAnswersTheBytes := by
  intro s address count i n base limit hread hone hmax hlow hhigh hfree
  obtain ⟨inSpace, hin, hmapped, hexec⟩ := exec_read_eq hread
  have hspace := hin.mpr ⟨hone, hlow, hhigh⟩
  rcases checkRead_cases inSpace address.toNat count.toNat (s.acceptRead n address count) with
    ⟨_, hbad⟩ | ⟨_, _, _, _, j, hj, hprot⟩ | ⟨hcheck, _⟩
  · simp only [hspace, Bool.true_eq_false, or_false] at hbad
    omega
  · have hfree' : (s.acceptRead n address count).readProtected (address.toNat + j) = false := hfree j hj
    rw [hprot] at hfree'; cases hfree'
  · have hrun := runRead_of_mapped (s := ((s.acceptRead n address count).log
      (.isReadProtected address.toNat count.toNat false)).enterExecuting) (hmapped hspace)
    rw [runCommand_of_done hcheck, hrun, Ran.finish_done, State.succeed_eq] at hexec
    refine ⟨_, _, hexec, rfl, Memory.readBytes_length _ _ _ _, fun j hj => Memory.readBytes_getD _ _ _ _ _ hj 0, ?_, rfl,
      fun _ => rfl⟩
    simp [State.acceptRead]

end Sys2Proof.Machine
end

section
/-! PROOFS. FLASH_ERASE (`44_flash_commands.md` R222 to R224, R229, R231, R237, R238). An erase that passes its checks is
the erase sequence from one state (`State.acceptErase`). Whatever the driver answers, `exec_flashErase_touches` says what
it touches and how it ends; where every unit answers `Ok`, `exec_flashErase_of_units` gives the state it ends in
(`State.afterErase`), and where one fails, `eraseUnits_of_fault` does. -/

namespace Sys2Proof.Machine

/-! How a flash sequence ends. -/

/-- A sequence has ended in success or in an error of its units or of its verification, the flash closed: the response
has one of four statuses (R178, R229). -/
theorem sequence_finish {r : Ran} {u : State} (hf : u.regs.flashOpen = false)
    (h : r = .done [] u ∨ ∃ e, r = .raised e u ∧ (e = .hardwareFault ∨ e = .flashTimeout ∨ e = .verifyFailed)) :
    ∃ code st, r.finish = .next { u with regs := u.regs.withResponse code st [] } ∧
      st ∈ [u.cfg.stOk, u.cfg.stHardwareFault, u.cfg.stFlashTimeout, u.cfg.stVerifyFailed] := by
  have hraised : ∀ {e st}, u.cfg.status e = some st →
      (Ran.raised e u).finish = .next { u with regs := u.regs.withResponse (responseCode u.cfg st) st [] } :=
    fun hst => by rw [Ran.finish_raised, State.raise_of_closed hst hf]; rfl
  rcases h with rfl | ⟨e, rfl, rfl | rfl | rfl⟩
  · exact ⟨_, _, by rw [Ran.finish_done, State.succeed_eq], by simp⟩
  all_goals exact ⟨_, _, hraised rfl, by simp⟩

/-- What a command leaves of the environment, seen from the relation `Touches`. -/
theorem Touches.env_eq {A : Nat → Prop} {es : List Event} {s t : State} (h : Touches A es s t) :
    t.env = { s.env with
      mem := t.env.mem, locked := t.env.locked, unitPlan := t.env.unitPlan, draws := t.env.draws
      trace := t.env.trace } := by
  dsimp only
  rw [← h.rx, ← h.driver, ← h.protPlan, ← h.resetPending]

/-- An error raised by a check, whatever `FLASH_OPEN` was, leaves the failure frame, and of the environment changes the
lock only (R304). -/
theorem State.raise_frame {s : State} {e : Err} (he : e ≠ .timeout) :
    ∃ code st es, (s.raise e).regs = { s.regs with flashOpen := false }.withResponse code st [] ∧
      Touches (fun _ => False) es s (s.raise e) := by
  obtain ⟨st, hst⟩ := status_of_ne_timeout s.cfg he
  rw [State.raise_of_status hst]
  have hregs : (s.payLock.respond st []).regs
      = { s.regs with flashOpen := false }.withResponse (responseCode s.payLock.cfg st) st [] := by
    rw [State.respond_regs, State.payLock_regs]; rfl
  cases hf : s.regs.flashOpen with
  | false => exact ⟨_, st, [], hregs, .of_env (by simp) (by simp [State.payLock_of_closed hf])⟩
  | true => exact ⟨_, st, [.flashLock], hregs, .of_log true (by simp) (by simp [State.payLock_of_open hf])⟩

/-- A command that its check refused ends in the error of the check (R176). -/
theorem runCommand_raised_next {n : CmdName} {args : Regs → Regs} {check run : State → Ran} {s u t : State} {e : Err}
    (h : check (s.accept n args) = .raised e u) (he : e ≠ .timeout) (ht : runCommand n args check run s = .next t) :
    ∃ e, e ≠ .timeout ∧ t = u.raise e := by
  rw [runCommand_of_raised h] at ht
  cases ht
  exact ⟨e, he, rfl⟩

theorem DriverFault.answer_err (e : DriverFault) : e.answer.err = some e.err := by cases e <;> rfl

/-- The status of a failing answer (R301, R303). -/
def DriverFault.status (c : Cfg) : DriverFault → Byte
  | .hardwareFault => c.stHardwareFault
  | .timeout => c.stFlashTimeout

theorem DriverFault.status_err (c : Cfg) (e : DriverFault) : c.status e.err = some (e.status c) := by cases e <;> rfl

/-- A sequence that stopped at a fault has paid the lock and ends in the error of the answer (R229). -/
theorem fault_finish {u : State} (e : DriverFault) (hc : u.cfg.WellFormed) :
    (Ran.raised e.err u.endUnits).finish = .next { u.endUnits with
      regs := u.endUnits.regs.withResponse u.cfg.rcNack (e.status u.cfg) [] } := by
  rw [Ran.finish_raised, State.raise_eq_of_closed (s := u.endUnits) hc (e.status_err _) rfl]
  rfl

/-! The checks. -/

/-- A request that breaks a rule of R222 is refused by that rule's error, without a call. -/
theorem checkFlashErase_of_refused {s : State} {sector count status : Byte} (hm : s.cfg.massErase ≠ some sector)
    (hwhy : ((∃ k ∈ s.cfg.reserved, sector.toNat ≤ k ∧ k < sector.toNat + count.toNat) ∧
          status = s.cfg.stAddressProtected) ∨
        ((¬ ∃ k ∈ s.cfg.reserved, sector.toNat ≤ k ∧ k < sector.toNat + count.toNat) ∧
          (count = 0 ∨ s.cfg.nsectors < sector.toNat + count.toNat) ∧ status = s.cfg.stOutOfRange)) :
    ∃ e, checkFlashErase sector count s = .raised e s ∧ s.cfg.status e = some status := by
  rcases checkFlashErase_cases sector count s with
    ⟨hcheck, _, hres⟩ | ⟨hcheck, _, hfree, _⟩ | ⟨hallowed, _⟩
  · rcases hwhy with ⟨_, rfl⟩ | ⟨hfree, _⟩
    · exact ⟨_, hcheck, rfl⟩
    · exact absurd hres hfree
  · rcases hwhy with ⟨hres, _⟩ | ⟨_, _, rfl⟩
    · exact absurd hres hfree
    · exact ⟨_, hcheck, rfl⟩
  · obtain ⟨hfree, hcount, hrange⟩ := hallowed.resolve_left hm
    rcases hwhy with ⟨⟨k, hk, hin⟩, _⟩ | ⟨_, hzero | hlate, _⟩
    · exact absurd hin (hfree k hk)
    · exact absurd hzero hcount
    · omega

/-- The state in which an allowed erase begins its sequence (R222, R231, T10 of R184). -/
def State.acceptErase (s : State) (sector count : Byte) : State :=
  { s with regs := { s.regs with
      pstate := .executing, cmd := some .flashErase, argSector := sector, argNsec := count
      seqList := eraseRequest s.cfg sector count } }

theorem exec_flashErase_eq {s : State} {sector count : Byte} (ha : EraseAllowed s.cfg sector count) :
    exec (.flashErase sector count) s = (s.acceptErase sector count).eraseSequence.finish := by
  have hexec : exec (.flashErase sector count) s = (runFlashErase _).finish :=
    runCommand_of_done (checkFlashErase_of_allowed ha)
  exact hexec

/-! Whatever the driver answers. -/

/-- An allowed erase touches the requested sectors only, writes the sequence registers, and ends in one of four statuses
(R223, R229, R231). -/
theorem exec_flashErase_touches {s : State} {sector count : Byte} (ha : EraseAllowed s.cfg sector count) :
    ∃ t es q n code st, exec (.flashErase sector count) s = .next t ∧
      Touches (fun a => ∃ k ∈ eraseRequest s.cfg sector count, inSector s.cfg k a = true) es s t ∧
      t.regs = ((s.acceptErase sector count).regs.seqAt q n false).withResponse code st [] ∧
      st ∈ [s.cfg.stOk, s.cfg.stHardwareFault, s.cfg.stFlashTimeout, s.cfg.stVerifyFailed] := by
  obtain ⟨u, _, _, htouch, _, _, _, ⟨q, n, hregs⟩, hend⟩ := (s.acceptErase sector count).eraseSequence_spec
  obtain ⟨code, st, hfinish, hst⟩ := sequence_finish (by rw [hregs, Regs.seqAt_flashOpen]) hend
  rw [htouch.cfg] at hst
  exact ⟨_, _, q, n, code, st, (exec_flashErase_eq ha).trans hfinish,
    { htouch with }, by rw [hregs], hst⟩

/-- Settles O29: the refusals are those of the check; a request that passes it ends as its sequence does. -/
theorem eraseChecksDecide : Obligations.EraseChecksDecide := by
  intro s sector count hc hf
  refine ⟨fun status hm hwhy => ?_, fun ha => ?_⟩
  · obtain ⟨e, hcheck, hst⟩ := checkFlashErase_of_refused (s := s.accept .flashErase fun r =>
      { r with argSector := sector, argNsec := count }) hm hwhy
    have hexec : exec (.flashErase sector count) s = _ :=
      runCommand_of_refused (run := runFlashErase) (env := s.env) hc hf hcheck hst
    exact ⟨_, hexec, rfl, rfl, rfl, fun _ => rfl⟩
  · obtain ⟨t, _, _, _, _, st, hexec, _, hregs, hst⟩ := exec_flashErase_touches ha
    refine ⟨t, hexec, fun k => ?_, by rw [hregs]; exact hst⟩
    rw [hregs]
    exact mem_eraseRequest s.cfg sector count k

/-- Settles O33: a mass erase is allowed, and no sector it asks for has a reserved byte. -/
theorem massEraseSparesTheBootloader : Obligations.MassEraseSparesTheBootloader := by
  intro s sector count hc hm
  have ha : EraseAllowed s.cfg sector count := .inl hm
  obtain ⟨t, _, _, _, _, st, hexec, htouch, hregs, hst⟩ := exec_flashErase_touches ha
  refine ⟨t, hexec, by rw [hregs]; exact hst, fun a hres => htouch.outside a ?_⟩
  rintro ⟨k, hk, hin⟩
  obtain ⟨hlt, hfree⟩ := ha.sector hk
  rw [(cfgFacts hc).reserved_outside hlt hfree hres] at hin
  cases hin

/-- Settles O35: a refused erase takes an error and nothing else; an allowed one touches what it asks for. -/
theorem eraseFrame : Obligations.EraseFrame := by
  intro s t sector count hexec
  rcases checkFlashErase_cases sector count (s.accept .flashErase fun r =>
    { r with argSector := sector, argNsec := count }) with ⟨hcheck, _⟩ | ⟨hcheck, _⟩ | ⟨ha, _⟩
  case inr.inr =>
    obtain ⟨_, _, q, n, code, st, hexec', htouch, hregs, _⟩ := exec_flashErase_touches (s := s) ha
    cases hexec.symm.trans hexec'
    refine ⟨htouch.cfg, by rw [hregs]; rfl, htouch.env_eq, fun a ha => htouch.outside a ?_⟩
    rintro ⟨k, hk, hin⟩
    rw [ha k hk] at hin; cases hin
  all_goals
    obtain ⟨e, he, rfl⟩ := runCommand_raised_next hcheck (by decide) hexec
    obtain ⟨code, st, es, hregs, htouch⟩ := State.raise_frame he
    exact ⟨htouch.cfg, by rw [hregs]; rfl, htouch.env_eq, fun a _ => htouch.outside a id⟩

/-! Where every unit answers `Ok`. -/

/-- From `s`, `n` units were asked for by the calls `es` and answered `Ok`; they left the content `m`, after `d` draws
(R223, R226). -/
def State.unitsDone (s : State) (n : Nat) (m : Memory) (d : Nat) (es : List Event) : State :=
  { s with
    regs := { s.regs with seqIdx := s.regs.seqIdx + n }
    env := { s.env with mem := m, draws := d, unitPlan := s.env.unitPlan.drop n, trace := s.env.trace ++ es } }

/-- The calls that erase the sectors of a list, each answered `Ok`. -/
def eraseCalls (ks : List Nat) : List Event := ks.map fun k => .flashEraseSector k .ok

/-- The verification calls over the sectors of a list, for the content `m` (R224). -/
def verifyCalls (c : Cfg) (m : Memory) (ks : List Nat) : List Event :=
  ks.map fun k => .verifyErased (sectorBase c k) (sectorSize c k)
    (Memory.erasedOn c.erasedByte m (sectorBase c k) (sectorSize c k))

/-- The content `m` verifies over the sectors of a list (R224). -/
def verifies (c : Cfg) (m : Memory) (ks : List Nat) : Bool :=
  ks.all fun k => Memory.erasedOn c.erasedByte m (sectorBase c k) (sectorSize c k)

/-- The state after an erase whose unit calls all answered `Ok` and left the content `m`, its verification done
(R223, R224). -/
def State.afterErase (s : State) (m : Memory) : State where
  cfg := s.cfg
  regs := { s.regs with seqState := .verify, seqIdx := s.regs.seqList.length, flashOpen := false }
  env := { s.env with
    mem := m, locked := true
    unitPlan := s.env.unitPlan.drop s.regs.seqList.length
    trace := s.env.trace ++ [.flashUnlock] ++ eraseCalls s.regs.seqList ++ [.flashLock]
      ++ verifyCalls s.cfg m s.regs.seqList }

/-- The verification of the content decides (R224). -/
theorem State.eraseSequence_of_ok {s : State} {m : Memory}
    (h : eraseUnits s.regs.seqList s.beginUnits =
      (none, s.beginUnits.unitsDone s.regs.seqList.length m s.env.draws (eraseCalls s.regs.seqList))) :
    s.eraseSequence = if verifies s.cfg m s.regs.seqList then .done [] (s.afterErase m)
      else .raised .verifyFailed (s.afterErase m) := by
  have hverify : ∀ u : State, u.regs.seqList.map (verifyEvent u) = verifyCalls u.cfg u.env.mem u.regs.seqList :=
    fun _ => rfl
  rw [State.eraseSequence_of_units h, State.eraseVerify_eq, hverify]
  simp [State.afterErase, State.unitsDone, State.logAll, verifies]

/-- An allowed erase whose unit calls all answered `Ok`, by the content `m` they left. -/
theorem exec_flashErase_of_units {s : State} {sector count : Byte} {m : Memory} (ha : EraseAllowed s.cfg sector count)
    (h : eraseUnits (eraseRequest s.cfg sector count) (s.acceptErase sector count).beginUnits =
      (none, (s.acceptErase sector count).beginUnits.unitsDone (eraseRequest s.cfg sector count).length m s.env.draws
        (eraseCalls (eraseRequest s.cfg sector count)))) :
    exec (.flashErase sector count) s =
      (if verifies s.cfg m (eraseRequest s.cfg sector count) then Ran.done [] ((s.acceptErase sector count).afterErase m)
      else .raised .verifyFailed ((s.acceptErase sector count).afterErase m)).finish := by
  rw [exec_flashErase_eq ha, State.eraseSequence_of_ok (s := s.acceptErase sector count) h]
  rfl

/-! The reference environment. -/

/-- Erased sectors verify (R224). -/
theorem erasedOn_eraseSectors (c : Cfg) {ks : List Nat} (m : Memory) {k : Nat} (hk : k ∈ ks) :
    Memory.erasedOn c.erasedByte (eraseSectors c ks m) (sectorBase c k) (sectorSize c k) = true :=
  (Memory.erasedOn_iff _ _ _ _).mpr fun x hx => by
    rw [read_eraseSectors, if_pos (List.any_eq_true.mpr ⟨k, hk, (inSector_iff c k x).mpr hx⟩)]

/-- The verification of erased sectors answers so for each of them. -/
theorem verifyCalls_eraseSectors (c : Cfg) (ks : List Nat) (m : Memory) :
    verifyCalls c (eraseSectors c ks m) ks =
      ks.map fun k => .verifyErased (sectorBase c k) (sectorSize c k) true :=
  List.map_congr_left fun k hk => by rw [erasedOn_eraseSectors c m hk]

theorem eraseSectors_eq_filter (c : Cfg) (ks : List Nat) (m : Memory) :
    eraseSectors c ks m = m.filter fun x => ks.all fun k =>
      decide (x.1 < sectorBase c k) || decide (sectorBase c k + sectorSize c k ≤ x.1) := by
  induction ks generalizing m with
  | nil => simp [eraseSectors]
  | cons k ks ih =>
    rw [eraseSectors, List.foldl_cons, ← eraseSectors, ih, Memory.erase, List.filter_filter]
    exact List.filter_congr fun x _ => by rw [List.all_cons, Bool.and_comm]

/-- Erasing the same sectors again changes nothing (R238). -/
theorem eraseSectors_eraseSectors (c : Cfg) (ks : List Nat) (m : Memory) :
    eraseSectors c ks (eraseSectors c ks m) = eraseSectors c ks m := by
  simp only [eraseSectors_eq_filter, List.filter_filter, Bool.and_self]

/-- In the reference environment, with no requested sector write-protected, an allowed erase erases what it asks for and
answers `ST_OK` (R223, R224, R231). -/
theorem exec_flashErase_of_reference {s : State} {sector count : Byte} (ha : EraseAllowed s.cfg sector count)
    (hp : s.env.unitPlan = []) (hw : ∀ k, Requested s.cfg sector count k → k ∉ s.env.driver.wprot) :
    ∃ t, exec (.flashErase sector count) s = .next t ∧ t.cfg = s.cfg ∧
      t.regs = { s.regs with
        cmd := some .flashErase, argSector := sector, argNsec := count
        seqList := eraseRequest s.cfg sector count, seqState := .verify
        seqIdx := (eraseRequest s.cfg sector count).length, flashOpen := false }.withResponse
          s.cfg.rcAck s.cfg.stOk [] ∧
      t.env = { s.env with
        mem := eraseSectors s.cfg (eraseRequest s.cfg sector count) s.env.mem, locked := true
        trace := s.env.trace ++ ([.flashUnlock] ++ eraseCalls (eraseRequest s.cfg sector count) ++ [.flashLock]
          ++ (eraseRequest s.cfg sector count).map fun k => Event.verifyErased (sectorBase s.cfg k)
            (sectorSize s.cfg k) true) } := by
  have hunits := eraseUnits_ok (eraseRequest s.cfg sector count) (s.acceptErase sector count).beginUnits rfl
    (fun k hk => hw k ((mem_eraseRequest _ _ _ _).mp hk)) (by simp [State.acceptErase, hp])
  have hexec := exec_flashErase_of_units (m := eraseSectors s.cfg (eraseRequest s.cfg sector count) s.env.mem) ha hunits
  have hverifies := List.all_eq_true.mpr fun k hk =>
    erasedOn_eraseSectors s.cfg (ks := eraseRequest s.cfg sector count) s.env.mem hk
  rw [verifies, if_pos hverifies, Ran.finish_done, State.succeed_eq] at hexec
  refine ⟨_, hexec, rfl, rfl, ?_⟩
  simp [State.afterErase, State.acceptErase, hp, verifyCalls_eraseSectors]

/-- Settles O30. -/
theorem eraseSucceeds : Obligations.EraseSucceeds := by
  intro s sector count ha hp hw
  obtain ⟨t, hexec, hcfg, hregs, henv⟩ := exec_flashErase_of_reference ha hp hw
  refine ⟨t, _, hexec, hcfg, eraseRequest_pairwise s.cfg sector count, mem_eraseRequest s.cfg sector count, hregs, ?_,
    fun a => ?_⟩
  · rw [henv]
    simp [eraseCalls]
  · rw [State.readByte_eq, State.readByte_eq, hcfg, henv]
    exact read_eraseSectors s.cfg s.cfg.erasedByte _ _ a

/-- Settles O34: the calls are those of the request, and erasing erased sectors changes nothing. -/
theorem eraseIsIdempotent : Obligations.EraseIsIdempotent := by
  intro s sector count ha hp hw
  obtain ⟨t, hexec, hcfg, hregs, henv⟩ := exec_flashErase_of_reference ha hp hw
  refine ⟨t, _, hexec, by rw [hregs]; rfl, by rw [henv], fun k a hk hin => ?_, fun u hucfg humem hudriver huplan => ?_⟩
  · rw [State.readByte_eq, hcfg, henv]
    refine (read_eraseSectors s.cfg s.cfg.erasedByte _ _ a).trans (if_pos ?_)
    exact List.any_eq_true.mpr ⟨k, (mem_eraseRequest _ _ _ _).mpr hk, hin⟩
  · rw [henv] at humem hudriver huplan
    rw [← hucfg] at ha
    obtain ⟨v, hvexec, _, hvregs, hvenv⟩ := exec_flashErase_of_reference ha (huplan.trans hp)
      (by rw [hucfg, hudriver]; exact hw)
    refine ⟨v, hvexec, by rw [hvregs, hucfg]; rfl, by rw [hvenv, hucfg], ?_⟩
    rw [hvenv, henv, hucfg, humem]
    exact eraseSectors_eraseSectors _ _ _

/-! Other content, and faults. -/

/-- The sectors of an allowed request have no byte in common (R71). -/
theorem EraseAllowed.apart {c : Cfg} {sector count : Byte} (ha : EraseAllowed c sector count) (hc : c.WellFormed) :
    (eraseRequest c sector count).Pairwise fun i j => ∀ x, inSector c i x = true → inSector c j x = false := by
  refine (eraseRequest_pairwise c sector count).imp_of_mem fun {i j} hi hj hij x hix => ?_
  by_contra hjx
  have heq := (cfgFacts hc).inSector_unique (ha.sector hi).1 (ha.sector hj).1 hix (by simpa using hjx)
  omega

/-- Settles O32: the calls leave what the plan says, so the verification of the sector named fails. -/
theorem eraseVerifyFails : Obligations.EraseVerifyFails := by
  intro s sector count hc ha hplan hw j k x hjk hin hleft
  obtain ⟨m, hunits, hinside, houtside⟩ := eraseUnits_noFailure (eraseRequest s.cfg sector count)
    (s.acceptErase sector count).beginUnits (by simp) (fun k hk => hw k ((mem_eraseRequest _ _ _ _).mp hk)) hplan
    (ha.apart hc)
  have hexec := exec_flashErase_of_units ha hunits
  have hnot : ¬ verifies s.cfg m (eraseRequest s.cfg sector count) = true := fun hall => by
    have hverified := List.all_eq_true.mp hall k (List.mem_of_getElem? hjk)
    have hread := (Memory.erasedOn_iff _ _ _ _).mp hverified x ((inSector_iff s.cfg k x).mp hin)
    exact hleft ((hinside j k x hjk hin).symm.trans hread)
  rw [if_neg hnot, Ran.finish_raised,
    State.raise_eq_of_closed (s := (s.acceptErase sector count).afterErase m) hc rfl rfl] at hexec
  refine ⟨_, _, hexec, rfl, rfl, rfl, fun i => ?_, hinside, houtside⟩
  exact (Memory.erasedOn_iff _ _ _ _).trans
    (forall_congr' fun a => imp_congr_left (inSector_iff s.cfg i a).symm)

/-- The unit calls of an erase up to the one that fails (R223, R229): the sectors before it are erased, of its own
content nothing is said (U1). -/
theorem eraseUnits_of_fault {s : State} {ks ls : List Nat} {k : Nat} {e : DriverFault} {plans : List UnitPlan}
    (hl : s.env.locked = false) (hw : ∀ i ∈ ks, i ∉ s.env.driver.wprot)
    (hp : s.env.unitPlan = List.replicate ks.length .asReference ++ .fails e :: plans) :
    ∃ m d, eraseUnits (ks ++ k :: ls) s =
        (some e.err, { s with
          regs := { s.regs with seqIdx := s.regs.seqIdx + ks.length }
          env := { s.env with
            mem := m, unitPlan := plans, draws := d
            trace := s.env.trace ++ eraseCalls ks ++ [.flashEraseSector k e.answer] } }) ∧
      ∀ x, inSector s.cfg k x = false →
        Memory.read s.cfg.erasedByte m x = Memory.read s.cfg.erasedByte (eraseSectors s.cfg ks s.env.mem) x := by
  have hdone := eraseUnits_ok ks s hl hw (by simp [hp])
  rw [eraseUnits_append, hdone]
  dsimp only
  have hplan : s.env.unitPlan.drop ks.length = .fails e :: plans := by simp [hp]
  rw [eraseUnits_cons, State.portFlashEraseSector_eq, hplan]
  simp only [List.headD_cons, List.tail_cons, eraseResult, DriverFault.answer_err]
  refine ⟨_, _, rfl, fun x hx => ?_⟩
  rw [Memory.read_write, drawnBytes_length, if_neg]
  intro hcov
  rw [(inSector_iff _ _ _).mpr hcov] at hx
  cases hx

theorem getElem?_split {α : Type} {l : List α} {j : Nat} {x : α} (h : l[j]? = some x) :
    l = l.take j ++ x :: l.drop (j + 1) ∧ (l.take j).length = j := by
  obtain ⟨hlt, rfl⟩ := List.getElem?_eq_some_iff.mp h
  rw [← List.drop_eq_getElem_cons hlt, List.take_append_drop, List.length_take]
  exact ⟨rfl, by omega⟩

/-- Settles O31. -/
theorem eraseStopsAtTheFault : Obligations.EraseStopsAtTheFault := by
  intro s sector count j k e plans hc ha hp hw hjk
  obtain ⟨hsplit, hlen⟩ := getElem?_split hjk
  obtain ⟨m, d, hunits, hread⟩ := eraseUnits_of_fault (s := (s.acceptErase sector count).beginUnits) (e := e)
    (plans := plans) (k := k) (ks := (eraseRequest s.cfg sector count).take j)
    (ls := (eraseRequest s.cfg sector count).drop (j + 1)) (by simp)
    (fun i hi => hw i ((mem_eraseRequest _ _ _ _).mp (List.mem_of_mem_take hi))) (by rw [hlen]; exact hp)
  have hidx : (s.acceptErase sector count).beginUnits.regs.seqIdx + j = j := Nat.zero_add j
  rw [← hsplit, hlen, hidx] at hunits
  have hexec := exec_flashErase_eq ha
  rw [State.eraseSequence_of_fault hunits] at hexec
  refine ⟨_, hexec.trans (fault_finish e hc), rfl, by cases e <;> rfl, ?_, fun a ha => ?_⟩
  · simp [State.acceptErase, eraseCalls]
  · exact (hread a ha).trans (read_eraseSectors _ _ _ _ a)

end Sys2Proof.Machine
end

section
/-! PROOFS. MEM_WRITE (`44_flash_commands.md` R225 to R227, R229, R230, R232). A program request that passes its checks is
the program sequence from one state (`State.acceptProgram`). Its words follow each other without a gap, so what the first
of them leave is the data up to there (`read_storeWords_take`). Whatever the driver answers, `exec_memWrite_touches` says
what the request touches; where every word answers `Ok`, `exec_memWrite_of_units` gives the state it ends in
(`State.afterProgram`), and where one fails, `programWords_of_fault` does. -/

namespace Sys2Proof.Machine

/-! The words of a request. -/

theorem programUnits_take {w a j : Nat} {data : List Byte} (hj : j ≤ data.length / w) :
    (programUnits w a data).take j = (List.range j).map fun i => (a + i * w, (data.drop (i * w)).take w) := by
  rw [programUnits, ← List.map_take, List.take_range, Nat.min_eq_left hj]

/-- The calls of the first `j` words of a request, each answered `Ok` (R226). -/
def programCalls (w a : Nat) (data : List Byte) (j : Nat) : List Event :=
  (List.range j).map fun i => .flashProgramWord (a + i * w) (leValue ((data.drop (i * w)).take w)) .ok

theorem programUnits_take_calls {w a j : Nat} {data : List Byte} (hj : j ≤ data.length / w) :
    ((programUnits w a data).take j).map (fun u => Event.flashProgramWord u.1 (leValue u.2) .ok) =
      programCalls w a data j := by
  rw [programUnits_take hj, List.map_map]
  rfl

theorem programUnits_calls (w a : Nat) (data : List Byte) :
    (programUnits w a data).map (fun u => Event.flashProgramWord u.1 (leValue u.2) .ok) =
      programCalls w a data (data.length / w) := by
  rw [← programUnits_take_calls (Nat.le_refl _), ← programUnits_length w a data, List.take_length]

/-- The words of a request are apart from each other, in ascending order (R226). -/
theorem programUnits_pairwise (w a : Nat) (data : List Byte) :
    (programUnits w a data).Pairwise fun u v => u.1 + w ≤ v.1 := by
  refine List.pairwise_map.mpr (List.pairwise_lt_range.imp fun {i j} hij => ?_)
  have hle : (i + 1) * w ≤ j * w := Nat.mul_le_mul_right w hij
  rw [Nat.add_mul, Nat.one_mul] at hle
  dsimp only
  omega

/-- A word of a request holds its data bytes (R226). -/
theorem word_length {w i : Nat} {data : List Byte} (hi : i < data.length / w) :
    ((data.drop (i * w)).take w).length = w := by
  have hin := word_inside hi
  rw [List.length_take, List.length_drop]
  omega

theorem word_getD {w i l : Nat} {data : List Byte} (d : Byte) (hi : i < data.length / w) (hl : l < w) :
    ((data.drop (i * w)).take w).getD l d = data.getD (i * w + l) 0 := by
  have hin := word_inside hi
  have hlt : i * w + l < data.length := by omega
  simp [List.getD_eq_getElem?_getD, hl, hlt]

/-- A word over the address of its bytes, as the driver stores it (R75 (b)). -/
theorem wordBytesOf_word {w i : Nat} {data : List Byte} (hi : i < data.length / w) :
    wordBytesOf w (leValue ((data.drop (i * w)).take w)) = (data.drop (i * w)).take w := by
  have hword := wordBytesOf_leValue ((data.drop (i * w)).take w)
  rwa [word_length hi] at hword

theorem storeWords_append (c : Cfg) (us vs : List (Nat × List Byte)) (m : Memory) :
    storeWords c (us ++ vs) m = storeWords c vs (storeWords c us m) := List.foldl_append

/-- The first `j` words of a request leave the data up to there (R75 (b), R226). -/
theorem read_storeWords_take (c : Cfg) {a j : Nat} {data : List Byte} (hj : j ≤ data.length / c.wordBytes) (m : Memory)
    (x : Nat) :
    Memory.read c.erasedByte (storeWords c ((programUnits c.wordBytes a data).take j) m) x =
      if a ≤ x ∧ x < a + j * c.wordBytes then data.getD (x - a) 0 else Memory.read c.erasedByte m x := by
  induction j with
  | zero => rw [List.take_zero, if_neg (by omega)]; rfl
  | succ j ih =>
    have hlen := word_length (data := data) hj
    rw [programUnits_take hj, List.range_succ, List.map_append, ← programUnits_take (by omega), storeWords_append,
      storeWords, List.map_singleton, List.foldl_cons, List.foldl_nil, wordBytesOf_word hj, Memory.read_write, hlen,
      ih (by omega), Nat.add_mul, Nat.one_mul]
    by_cases hx : Memory.Covers (a + j * c.wordBytes) c.wordBytes x
    · have hx' := hx
      obtain ⟨hlow, hhigh⟩ := hx'
      rw [if_pos hx, if_pos (by omega), word_getD _ hj (by omega)]
      congr 1
      omega
    · rw [if_neg hx]
      by_cases hbefore : a ≤ x ∧ x < a + j * c.wordBytes
      · rw [if_pos hbefore, if_pos (by omega)]
      · rw [if_neg hbefore, if_neg]
        rintro ⟨hlow, hhigh⟩
        exact hx ⟨by omega, by omega⟩

/-- All the words of a request leave the data at its addresses. -/
theorem read_storeWords (c : Cfg) {a : Nat} {data : List Byte} (hn : data.length % c.wordBytes = 0) (m : Memory)
    (x : Nat) :
    Memory.read c.erasedByte (storeWords c (programUnits c.wordBytes a data) m) x =
      if a ≤ x ∧ x < a + data.length then data.getD (x - a) 0 else Memory.read c.erasedByte m x := by
  have htake := read_storeWords_take c (a := a) (data := data) (Nat.le_refl _) m x
  rwa [← programUnits_length c.wordBytes a data, List.take_length, programUnits_length,
    Nat.div_mul_cancel (Nat.dvd_of_mod_eq_zero hn)] at htake

/-- The read-back is the data when each of its bytes is (R227). -/
theorem readBytes_eq_iff (d : Byte) (m : Memory) (a : Nat) (data : List Byte) :
    Memory.readBytes d m a data.length = data ↔
      ∀ i < data.length, Memory.read d m (a + i) = data.getD i 0 := by
  constructor
  · intro h i hi
    rw [← Memory.readBytes_getD d m a data.length i hi 0, h]
  · intro h
    refine List.ext_getElem (Memory.readBytes_length _ _ _ _) fun i hi hi' => ?_
    have hread := h i hi'
    rw [← Memory.readBytes_getD d m a data.length i hi' 0] at hread
    rwa [List.getD_eq_getElem _ _ hi, List.getD_eq_getElem _ _ hi'] at hread

/-! The checks. -/

/-- A request that breaks a rule of R225 is refused by that rule's error, without a call. -/
theorem checkMemWrite_of_refused {s : State} {a n : Nat} {status : Byte}
    (hwhy : if a % s.cfg.wordBytes ≠ 0 ∨ n % s.cfg.wordBytes ≠ 0 then status = s.cfg.stAlignmentError
      else if ∃ i < n, reservedAddr s.cfg (a + i) = true then status = s.cfg.stAddressProtected
      else ¬ (1 ≤ n ∧ s.cfg.flashBase ≤ a ∧ a + n ≤ s.cfg.flashEnd) ∧ status = s.cfg.stOutOfRange) :
    ∃ e, checkMemWrite a n s = .raised e s ∧ s.cfg.status e = some status := by
  rcases checkMemWrite_cases a n s with
    ⟨hcheck, hal⟩ | ⟨hcheck, ha, hn, hres⟩ | ⟨hcheck, ha, hn, hfree, _⟩ | ⟨_, ha, hn, hfree, hrange⟩
  · rw [if_pos hal] at hwhy
    exact ⟨_, hcheck, by rw [hwhy]; rfl⟩
  all_goals rw [if_neg (by omega)] at hwhy
  · rw [if_pos hres] at hwhy
    exact ⟨_, hcheck, by rw [hwhy]; rfl⟩
  all_goals
    rw [if_neg (by rintro ⟨i, hi, hres⟩; rw [hfree i hi] at hres; cases hres)] at hwhy
  · exact ⟨_, hcheck, by rw [hwhy.2]; rfl⟩
  · exact absurd hrange hwhy.1

/-- The state in which an allowed program request begins its sequence (R225, R232, T10 of R184). -/
def State.acceptProgram (s : State) (address : Word) (data : List Byte) : State :=
  { s with regs := { s.regs with
      pstate := .executing, cmd := some .memWrite, argAddr := address, argCount := BitVec.ofNat 8 data.length } }

theorem exec_memWrite_eq {s : State} {address : Word} {data : List Byte}
    (ha : ProgramAllowed s.cfg address.toNat data.length) :
    exec (.memWrite address data) s = ((s.acceptProgram address data).programSequence address.toNat data).finish := by
  have hexec : exec (.memWrite address data) s = (runMemWrite address data _).finish :=
    runCommand_of_done (checkMemWrite_of_allowed ha)
  exact hexec

/-- An allowed request can be read back (R67, R69). -/
theorem ProgramAllowed.mapped {c : Cfg} {a n : Nat} (ha : ProgramAllowed c a n) : mapped c a n = true := by
  obtain ⟨_, _, _, hrange⟩ := ha
  exact (mapped_iff _ _ _).mpr (.inl ((inFlash_iff _ _ _).mpr hrange))

/-! Whatever the driver answers. -/

/-- A sequence over addresses that can be read back does not stop (R67, R227). -/
theorem State.programSequence_ne_stopped {s : State} {a : Nat} {data : List Byte} {f : Fault}
    (hm : mapped s.cfg a data.length = true) : s.programSequence a data ≠ .stopped f := by
  obtain ⟨_, htouch, _⟩ := programWords_touches (programUnits s.cfg.wordBytes a data) s.beginUnits
  rcases hu : programWords (programUnits s.cfg.wordBytes a data) s.beginUnits with ⟨_ | e, t⟩
  · have hc : t.cfg = s.cfg := by rw [hu] at htouch; simpa using htouch.cfg
    rw [State.programSequence_of_units hu, State.programVerify_eq (by simpa [hc] using hm)]
    split <;> simp
  · rw [State.programSequence_of_fault hu]
    simp

/-- An allowed program request touches its own bytes only, writes the sequence registers, and ends in one of four statuses
(R226, R229, R232). -/
theorem exec_memWrite_touches {s : State} {address : Word} {data : List Byte}
    (ha : ProgramAllowed s.cfg address.toNat data.length) :
    ∃ t es q n code st, exec (.memWrite address data) s = .next t ∧
      Touches (Memory.Covers address.toNat data.length) es s t ∧
      t.regs = ((s.acceptProgram address data).regs.seqAt q n false).withResponse code st [] ∧
      st ∈ [s.cfg.stOk, s.cfg.stHardwareFault, s.cfg.stFlashTimeout, s.cfg.stVerifyFailed] := by
  rcases (s.acceptProgram address data).programSequence_spec address.toNat data with
    hstop | ⟨u, _, _, htouch, _, _, _, ⟨q, n, hregs⟩, hend⟩
  · exact absurd hstop (State.programSequence_ne_stopped ha.mapped)
  · obtain ⟨code, st, hfinish, hst⟩ := sequence_finish (by rw [hregs, Regs.seqAt_flashOpen]) hend
    rw [htouch.cfg] at hst
    have hinside : Touches (Memory.Covers address.toNat data.length) _ (s.acceptProgram address data) u :=
      htouch.mono fun x ⟨v, hv, hx⟩ => by
        obtain ⟨i, hi, rfl⟩ := mem_programUnits hv
        have hin := word_inside hi
        obtain ⟨hlow, hhigh⟩ := hx
        dsimp only at hlow hhigh
        exact ⟨by omega, by omega⟩
    exact ⟨_, _, q, n, code, st, (exec_memWrite_eq ha).trans hfinish, { hinside with }, by rw [hregs], hst⟩

/-- Settles O36: the refusals are those of the check; a request that passes it ends as its sequence does. -/
theorem programChecksDecide : Obligations.ProgramChecksDecide := by
  intro s address data hc hf
  refine ⟨fun status hwhy => ?_, fun ha => ?_⟩
  · obtain ⟨e, hcheck, hst⟩ := checkMemWrite_of_refused (s := s.accept .memWrite fun r =>
      { r with argAddr := address, argCount := BitVec.ofNat 8 data.length }) hwhy
    have hexec : exec (.memWrite address data) s = _ :=
      runCommand_of_refused (run := runMemWrite address data) (env := s.env) hc hf hcheck hst
    exact ⟨_, hexec, rfl, rfl, rfl, fun _ => rfl⟩
  · obtain ⟨t, _, _, _, _, st, hexec, _, hregs, hst⟩ := exec_memWrite_touches ha
    exact ⟨t, hexec, by rw [hregs]; exact hst⟩

/-- Settles O40: a refused request takes an error and nothing else; an allowed one touches what it asks for. -/
theorem programFrame : Obligations.ProgramFrame := by
  intro s t address data _ hexec
  rcases checkMemWrite_cases address.toNat data.length (s.accept .memWrite fun r =>
    { r with argAddr := address, argCount := BitVec.ofNat 8 data.length }) with
    ⟨hcheck, _⟩ | ⟨hcheck, _⟩ | ⟨hcheck, _⟩ | ⟨_, ha⟩
  case inr.inr.inr =>
    obtain ⟨_, _, q, n, code, st, hexec', htouch, hregs, _⟩ := exec_memWrite_touches (s := s) ha
    cases hexec.symm.trans hexec'
    exact ⟨htouch.cfg, by rw [hregs]; rfl, htouch.env_eq, htouch.outside⟩
  all_goals
    obtain ⟨e, he, rfl⟩ := runCommand_raised_next hcheck (by decide) hexec
    obtain ⟨code, st, es, hregs, htouch⟩ := State.raise_frame he
    exact ⟨htouch.cfg, by rw [hregs]; rfl, htouch.env_eq, fun a _ => htouch.outside a id⟩

/-! Where every word answers `Ok`. -/

/-- The state after a program request whose words all answered `Ok` and left the content `m` after `d` draws, its
read-back done (R226, R227). -/
def State.afterProgram (s : State) (a : Nat) (data : List Byte) (m : Memory) (d : Nat) : State where
  cfg := s.cfg
  regs := { s.regs with seqState := .verify, seqIdx := data.length / s.cfg.wordBytes, flashOpen := false }
  env := { s.env with
    mem := m, locked := true, draws := d
    unitPlan := s.env.unitPlan.drop (data.length / s.cfg.wordBytes)
    trace := s.env.trace ++ [.flashUnlock] ++ programCalls s.cfg.wordBytes a data (data.length / s.cfg.wordBytes)
      ++ [.flashLock, .memRead a data.length (Memory.readBytes s.cfg.erasedByte m a data.length)] }

/-- The read-back of the content decides (R227). -/
theorem State.programSequence_of_ok {s : State} {a d : Nat} {data : List Byte} {m : Memory}
    (hm : mapped s.cfg a data.length = true)
    (h : programWords (programUnits s.cfg.wordBytes a data) s.beginUnits =
      (none, s.beginUnits.unitsDone (data.length / s.cfg.wordBytes) m d
        (programCalls s.cfg.wordBytes a data (data.length / s.cfg.wordBytes)))) :
    s.programSequence a data =
      if Memory.readBytes s.cfg.erasedByte m a data.length = data then .done [] (s.afterProgram a data m d)
      else .raised .verifyFailed (s.afterProgram a data m d) := by
  rw [State.programSequence_of_units h, State.programVerify_eq (by simpa [State.unitsDone] using hm)]
  by_cases hback : Memory.readBytes s.cfg.erasedByte m a data.length = data <;>
    simp [State.afterProgram, State.unitsDone, State.log, hback]

/-- An allowed program request whose words all answered `Ok`, by the content `m` they left. -/
theorem exec_memWrite_of_units {s : State} {address : Word} {data : List Byte} {m : Memory} {d : Nat}
    (ha : ProgramAllowed s.cfg address.toNat data.length)
    (h : programWords (programUnits s.cfg.wordBytes address.toNat data) (s.acceptProgram address data).beginUnits =
      (none, (s.acceptProgram address data).beginUnits.unitsDone (data.length / s.cfg.wordBytes) m d
        (programCalls s.cfg.wordBytes address.toNat data (data.length / s.cfg.wordBytes)))) :
    exec (.memWrite address data) s =
      (if Memory.readBytes s.cfg.erasedByte m address.toNat data.length = data
      then Ran.done [] ((s.acceptProgram address data).afterProgram address.toNat data m d)
      else .raised .verifyFailed ((s.acceptProgram address data).afterProgram address.toNat data m d)).finish := by
  rw [exec_memWrite_eq ha, State.programSequence_of_ok (s := s.acceptProgram address data) ha.mapped h]
  rfl

/-- What holds at every address of a request holds at every address of its words. -/
theorem forall_word_of_forall {w a : Nat} {data : List Byte} {P : Nat → Prop} (h : ∀ i < data.length, P (a + i)) :
    ∀ u ∈ programUnits w a data, ∀ x, Memory.Covers u.1 w x → P x := by
  intro u hu x ⟨hlow, hhigh⟩
  obtain ⟨i, hi, rfl⟩ := mem_programUnits hu
  have hin := word_inside hi
  dsimp only at hlow hhigh
  have hx := h (x - a) (by omega)
  rwa [Nat.add_sub_cancel' (by omega)] at hx

/-- No word of a request without write-protected bytes is write-protected. -/
theorem words_unprotected {s : State} {a : Nat} {data : List Byte} (hw : 0 < s.cfg.wordBytes)
    (h : ∀ i < data.length, s.writeProtected (a + i) = false) :
    ∀ u ∈ programUnits s.cfg.wordBytes a data, s.writeProtected u.1 = false := fun u hu =>
  forall_word_of_forall (P := fun x => s.writeProtected x = false) h u hu u.1 ⟨Nat.le_refl _, by omega⟩

/-- Every word of a request over erased bytes is erased. -/
theorem words_erased {s : State} {a : Nat} {data : List Byte}
    (h : ∀ i < data.length, s.readByte (a + i) = s.cfg.erasedByte) :
    ∀ u ∈ programUnits s.cfg.wordBytes a data,
      Memory.erasedOn s.cfg.erasedByte s.env.mem u.1 s.cfg.wordBytes = true := fun u hu =>
  (Memory.erasedOn_iff _ _ _ _).mpr
    (forall_word_of_forall (P := fun x => s.readByte x = s.cfg.erasedByte) h u hu)

/-- Settles O37: over erased bytes each word is stored, so the read-back is the data. -/
theorem programSucceeds : Obligations.ProgramSucceeds := by
  intro s address data hc ha hp herased hfree
  have hread := read_storeWords s.cfg (a := address.toNat) ha.2.1 s.env.mem
  have hback : Memory.readBytes s.cfg.erasedByte (storeWords s.cfg (programUnits s.cfg.wordBytes address.toNat data)
      s.env.mem) address.toNat data.length = data := (readBytes_eq_iff _ _ _ _).mpr fun i hi => by
    rw [hread, if_pos (by omega), Nat.add_sub_cancel_left]
  have hunits := programWords_ok (programUnits s.cfg.wordBytes address.toNat data)
    (s.acceptProgram address data).beginUnits rfl (words_unprotected (cfgFacts hc).wordBytes_pos hfree)
    (words_erased herased) (programUnits_pairwise _ _ _) (by simp [State.acceptProgram, hp])
  rw [programUnits_length, programUnits_calls] at hunits
  have hexec := exec_memWrite_of_units (d := s.env.draws)
    (m := storeWords s.cfg (programUnits s.cfg.wordBytes address.toNat data) s.env.mem) ha hunits
  rw [if_pos hback, Ran.finish_done, State.succeed_eq] at hexec
  refine ⟨_, hexec, rfl, rfl, ?_, hread⟩
  simp [State.afterProgram, State.acceptProgram, programCalls, hp, hback]

/-! Other content, and faults. -/

/-- The words of a request whose calls all answer `Ok`, byte by byte (R226, R70, U18): a word over erased bytes, or
answered with other content, holds what its call leaves; nothing outside the request changes. -/
theorem programUnits_noFailure {s : State} {a : Nat} {data : List Byte} (hw : 0 < s.cfg.wordBytes)
    (hl : s.env.locked = false) (hfree : ∀ i < data.length, s.writeProtected (a + i) = false)
    (hplan : s.NoFailure (data.length / s.cfg.wordBytes)) :
    ∃ m d, programWords (programUnits s.cfg.wordBytes a data) s =
        (none, s.unitsDone (data.length / s.cfg.wordBytes) m d
          (programCalls s.cfg.wordBytes a data (data.length / s.cfg.wordBytes))) ∧
      (∀ j i, j < data.length / s.cfg.wordBytes → i < s.cfg.wordBytes →
        ((∃ cells, s.env.unitPlan[j]? = some (.okLeaving cells)) ∨
          ∀ l < s.cfg.wordBytes, s.readByte (a + j * s.cfg.wordBytes + l) = s.cfg.erasedByte) →
        Memory.read s.cfg.erasedByte m (a + j * s.cfg.wordBytes + i)
          = s.unitLeaves j (a + j * s.cfg.wordBytes + i) (data.getD (j * s.cfg.wordBytes + i) 0)) ∧
      ∀ x, ¬ (a ≤ x ∧ x < a + data.length) → Memory.read s.cfg.erasedByte m x = s.readByte x := by
  obtain ⟨m, d, hunits, hinside, houtside⟩ := programWords_noFailure (programUnits s.cfg.wordBytes a data) s hl
    (words_unprotected hw hfree) (by rw [programUnits_length]; exact hplan) (programUnits_pairwise _ _ _)
  rw [programUnits_length, programUnits_calls] at hunits
  refine ⟨m, d, hunits, fun j i hj hi hknown => ?_, fun x hx => houtside x fun u hu hcov => hx ?_⟩
  · have hunit : (programUnits s.cfg.wordBytes a data)[j]?
        = some (a + j * s.cfg.wordBytes, (data.drop (j * s.cfg.wordBytes)).take s.cfg.wordBytes) := by
      simp [programUnits, hj]
    have herased : (∀ l < s.cfg.wordBytes, s.readByte (a + j * s.cfg.wordBytes + l) = s.cfg.erasedByte) →
        Memory.erasedOn s.cfg.erasedByte s.env.mem (a + j * s.cfg.wordBytes) s.cfg.wordBytes = true := fun h =>
      (Memory.erasedOn_iff _ _ _ _).mpr fun x ⟨hlow, hhigh⟩ => by
        have hread := h (x - (a + j * s.cfg.wordBytes)) (by omega)
        rwa [Nat.add_sub_cancel' hlow] at hread
    have hleft := hinside j _ (a + j * s.cfg.wordBytes + i) hunit (hknown.imp_right herased)
      ⟨Nat.le_add_right _ _, Nat.add_lt_add_left hi _⟩
    rwa [wordBytesOf_word hj, Nat.add_sub_cancel_left, word_getD _ hj hi] at hleft
  · exact forall_word_of_forall (P := fun x => a ≤ x ∧ x < a + data.length) (fun i hi => ⟨by omega, by omega⟩) u hu x hcov

/-- Settles O39: the calls leave what the plan says or a draw, and the read-back decides. -/
theorem programOverUnerasedIsJudgedByReadBack : Obligations.ProgramOverUnerasedIsJudgedByReadBack := by
  intro s address data hc ha hplan hfree
  obtain ⟨m, d, hunits, hword, houtside⟩ := programUnits_noFailure (s := (s.acceptProgram address data).beginUnits)
    (cfgFacts hc).wordBytes_pos rfl hfree hplan
  have hexec := exec_memWrite_of_units ha hunits
  have hback := readBytes_eq_iff s.cfg.erasedByte m address.toNat data
  by_cases hsame : Memory.readBytes s.cfg.erasedByte m address.toNat data.length = data
  · rw [if_pos hsame, Ran.finish_done, State.succeed_eq] at hexec
    refine ⟨_, _, hexec, rfl, rfl, rfl, Memory.readBytes_length _ _ _ _,
      fun i hi => Memory.readBytes_getD _ _ _ _ _ hi 0, fun _ => ⟨rfl, rfl⟩, fun h => absurd (hback.mp hsame) h, hword,
      houtside⟩
  · rw [if_neg hsame, Ran.finish_raised,
      State.raise_eq_of_closed (s := (s.acceptProgram address data).afterProgram address.toNat data m d) hc rfl rfl]
      at hexec
    refine ⟨_, _, hexec, rfl, rfl, rfl, Memory.readBytes_length _ _ _ _,
      fun i hi => Memory.readBytes_getD _ _ _ _ _ hi 0, fun h => absurd (hback.mpr h) hsame, fun _ => ⟨rfl, rfl⟩, hword,
      houtside⟩

/-- The words of a program request up to the one that fails (R226, R229): the words before it are stored, of its own
content nothing is said (U1). -/
theorem programWords_of_fault {s : State} {us vs : List (Nat × List Byte)} {u : Nat × List Byte} {e : DriverFault}
    {plans : List UnitPlan} (hl : s.env.locked = false) (hw : ∀ v ∈ us, s.writeProtected v.1 = false)
    (he : ∀ v ∈ us, Memory.erasedOn s.cfg.erasedByte s.env.mem v.1 s.cfg.wordBytes = true)
    (hd : us.Pairwise fun v w => v.1 + s.cfg.wordBytes ≤ w.1)
    (hp : s.env.unitPlan = List.replicate us.length .asReference ++ .fails e :: plans) :
    ∃ m d, programWords (us ++ u :: vs) s =
        (some e.err, { s with
          regs := { s.regs with seqIdx := s.regs.seqIdx + us.length }
          env := { s.env with
            mem := m, unitPlan := plans, draws := d
            trace := s.env.trace ++ us.map (fun v => Event.flashProgramWord v.1 (leValue v.2) .ok)
              ++ [.flashProgramWord u.1 (leValue u.2) e.answer] } }) ∧
      ∀ x, ¬ Memory.Covers u.1 s.cfg.wordBytes x →
        Memory.read s.cfg.erasedByte m x = Memory.read s.cfg.erasedByte (storeWords s.cfg us s.env.mem) x := by
  rw [programWords_append, programWords_ok us s hl hw he hd (by simp [hp])]
  dsimp only
  have hplan : s.env.unitPlan.drop us.length = .fails e :: plans := by simp [hp]
  rw [programWords_cons, State.portFlashProgramWord_eq, hplan]
  simp only [List.headD_cons, List.tail_cons, programResult, DriverFault.answer_err]
  refine ⟨_, _, rfl, fun x hx => ?_⟩
  rw [Memory.read_write, drawnBytes_length, if_neg hx]

/-- Settles O38. -/
theorem programStopsAtTheFault : Obligations.ProgramStopsAtTheFault := by
  intro s address data j e plans hc ha hp herased hfree hj
  have hsplit : (programUnits s.cfg.wordBytes address.toNat data).take j ++
      (address.toNat + j * s.cfg.wordBytes, (data.drop (j * s.cfg.wordBytes)).take s.cfg.wordBytes) ::
        (programUnits s.cfg.wordBytes address.toNat data).drop (j + 1)
      = programUnits s.cfg.wordBytes address.toNat data := by
    rw [← programUnits_drop hj, List.take_append_drop]
  have hlen : ((programUnits s.cfg.wordBytes address.toNat data).take j).length = j := by
    rw [List.length_take, programUnits_length, Nat.min_eq_left hj.le]
  have hidx : (s.acceptProgram address data).beginUnits.regs.seqIdx + j = j := Nat.zero_add j
  obtain ⟨m, d, hunits, hread⟩ := programWords_of_fault (s := (s.acceptProgram address data).beginUnits) (e := e)
    (plans := plans) (us := (programUnits s.cfg.wordBytes address.toNat data).take j)
    (u := (address.toNat + j * s.cfg.wordBytes, (data.drop (j * s.cfg.wordBytes)).take s.cfg.wordBytes))
    (vs := (programUnits s.cfg.wordBytes address.toNat data).drop (j + 1)) rfl
    (fun v hv => words_unprotected (cfgFacts hc).wordBytes_pos hfree v (List.mem_of_mem_take hv))
    (fun v hv => words_erased herased v (List.mem_of_mem_take hv))
    ((programUnits_pairwise _ _ _).take) (by rw [hlen]; exact hp)
  rw [hsplit, hlen, hidx, programUnits_take_calls hj.le] at hunits
  have hexec := exec_memWrite_eq ha
  rw [State.programSequence_of_fault hunits] at hexec
  refine ⟨_, hexec.trans (fault_finish e hc), rfl, by cases e <;> rfl, ?_, fun a ha => ?_⟩
  · simp [State.acceptProgram, programCalls]
  · rw [Nat.succ_mul, ← Nat.add_assoc] at ha
    exact (hread a ha).trans (read_storeWords_take s.cfg hj.le s.env.mem a)

end Sys2Proof.Machine
end

section
/-! PROOFS. GO_TO_ADDRESS and the hand-off (`45_handoff.md` R271, R272, R274). The target validation has one equation
for a target outside the application region and one for a target inside it, where the two words are read
(`State.readTarget`) and the stack pointer decides. A refusal leaves a failure frame, whose step is the NACK
(`step_of_failure_frame`); the hand-off is the ACK's alone. -/

namespace Sys2Proof.Machine

/-! The initial stack pointer (R272 (3)). -/

theorem plausibleSp_iff (c : Cfg) (sp : Word) :
    plausibleSp c sp = true ↔ sp ≠ 0 ∧ c.ramBase ≤ sp.toNat ∧ sp.toNat ≤ c.ramEnd := by
  simp [plausibleSp, and_assoc]

theorem plausibleSp_false_iff (c : Cfg) (sp : Word) :
    plausibleSp c sp = false ↔ sp = 0 ∨ sp.toNat < c.ramBase ∨ c.ramEnd < sp.toNat := by
  simp only [← Bool.not_eq_true, plausibleSp_iff, ne_eq, not_and_or, not_not, not_le]

/-- The first word of a zeroed or of an erased target is no stack pointer: the RAM ends below `0xFFFFFFFF` (R12). -/
theorem plausibleSp_of_blank {c : Cfg} {sp : Word} (hc : c.WellFormed) (h : sp ∈ [(0x00000000 : Word), 0xFFFFFFFF]) :
    plausibleSp c sp = false := by
  rw [plausibleSp_false_iff]
  simp only [List.mem_cons, List.not_mem_nil, or_false] at h
  rcases h with rfl | rfl
  · exact .inl rfl
  · exact .inr (.inr (cfgFacts hc).ramEnd)

/-! The words of the target (R272 (2)). -/

/-- The word at an address (R16, R75 (c)). -/
def State.wordAt (s : State) (a : Nat) : Word :=
  le32 (s.readByte a) (s.readByte (a + 1)) (s.readByte (a + 2)) (s.readByte (a + 3))

theorem wordOfBytes_readBytes (s : State) (a : Nat) :
    wordOfBytes (Memory.readBytes s.cfg.erasedByte s.env.mem a 4) = s.wordAt a := rfl

/-- The two reads of the target. -/
def State.targetReads (s : State) (a : Nat) : List Event :=
  [.memRead a 4 (Memory.readBytes s.cfg.erasedByte s.env.mem a 4),
    .memRead (a + 4) 4 (Memory.readBytes s.cfg.erasedByte s.env.mem (a + 4) 4)]

theorem State.targetReads_isCpu (s : State) (a : Nat) : ∀ e ∈ s.targetReads a, e.isCpu = false := by
  simp [State.targetReads, Event.isCpu]

/-- The state after the two reads: `HO_SP` and `HO_ENTRY` hold the words. -/
def State.readTarget (s : State) (a : Nat) : State where
  cfg := s.cfg
  regs := { s.regs with hoSp := s.wordAt a, hoEntry := s.wordAt (a + 4) }
  env := { s.env with trace := s.env.trace ++ s.targetReads a }

/-! The target validation (R272). -/

theorem checkGoToAddress_of_outside {s : State} {address : Word}
    (h : ¬ (s.cfg.appBase ≤ address.toNat ∧ address.toNat + 8 ≤ s.cfg.appEnd)) :
    checkGoToAddress address s = .raised .invalidTarget s := by
  have happ : inApp s.cfg address.toNat 8 = false := by
    rw [← Bool.not_eq_true, inApp_iff]
    exact fun hin => h hin.2
  simp [checkGoToAddress, happ]

/-- The application region lies in the flash, where `MemRead` answers (R12, R67). -/
theorem CfgFacts.mapped_of_app {c : Cfg} (hc : CfgFacts c) {a n : Nat} (hn : 1 ≤ n) (hlow : c.appBase ≤ a)
    (hhigh : a + n ≤ c.appEnd) : mapped c a n = true :=
  (mapped_iff c a n).mpr (.inl ((inFlash_iff c a n).mpr ⟨hn, hc.appBase.trans hlow, hhigh.trans hc.appEnd⟩))

theorem checkGoToAddress_of_inside {s : State} {address : Word} (hc : s.cfg.WellFormed)
    (hlow : s.cfg.appBase ≤ address.toNat) (hhigh : address.toNat + 8 ≤ s.cfg.appEnd) :
    checkGoToAddress address s =
      if plausibleSp s.cfg (s.wordAt address.toNat) then .done [] (s.readTarget address.toNat)
      else .raised .invalidTarget (s.readTarget address.toNat) := by
  have happ : inApp s.cfg address.toNat 8 = true := (inApp_iff _ _ _).mpr ⟨by decide, hlow, hhigh⟩
  have hsp : mapped s.cfg address.toNat 4 = true := (cfgFacts hc).mapped_of_app (by decide) hlow (by omega)
  have hentry : mapped s.cfg (address.toNat + 4) 4 = true :=
    (cfgFacts hc).mapped_of_app (by decide) (by omega) (by omega)
  simp only [checkGoToAddress, happ, Bool.not_true, Bool.false_eq_true, if_false, State.portMemRead_eq _ _ _ hsp,
    State.portMemRead_eq (s.log _) _ _ hentry, State.log_cfg, State.log_regs, State.log_env, wordOfBytes_readBytes,
    State.readTarget, State.targetReads, List.append_assoc, List.singleton_append]

/-- An implausible stack pointer is refused wherever the target lies, with the two reads at most. -/
theorem checkGoToAddress_of_implausible {s : State} {address : Word} (hc : s.cfg.WellFormed)
    (h : plausibleSp s.cfg (s.wordAt address.toNat) = false) :
    ∃ u, checkGoToAddress address s = .raised .invalidTarget u ∧ (u = s ∨ u = s.readTarget address.toNat) := by
  by_cases hin : s.cfg.appBase ≤ address.toNat ∧ address.toNat + 8 ≤ s.cfg.appEnd
  · exact ⟨_, by rw [checkGoToAddress_of_inside hc hin.1 hin.2, h, if_neg Bool.false_ne_true], .inr rfl⟩
  · exact ⟨_, checkGoToAddress_of_outside hin, .inl rfl⟩

/-! The command (R271). -/

/-- `CMD` and `ARG_ADDR` of a GO_TO_ADDRESS (R271). -/
def State.acceptJump (s : State) (address : Word) : State :=
  s.accept .goToAddress fun r => { r with argAddr := address }

/-- A refused target is answered with the bare NACK of InvalidTarget; no lock is owed. -/
theorem exec_goToAddress_of_raised {s u : State} {address : Word}
    (h : checkGoToAddress address (s.acceptJump address) = .raised .invalidTarget u) (hc : u.cfg.WellFormed)
    (hf : u.regs.flashOpen = false) :
    exec (.goToAddress address) s =
      .next { u with regs := u.regs.withResponse u.cfg.rcNack u.cfg.stInvalidTarget [] } := by
  have hexec : exec (.goToAddress address) s = .next (u.raise .invalidTarget) := runCommand_of_raised h
  rw [hexec, State.raise_eq_of_closed hc rfl hf]

/-- An accepted target is answered `ST_OK`; nothing else is executed. -/
theorem exec_goToAddress_of_done {s u : State} {address : Word}
    (h : checkGoToAddress address (s.acceptJump address) = .done [] u) :
    exec (.goToAddress address) s = .next { u with regs := u.regs.withResponse u.cfg.rcAck u.cfg.stOk [] } := by
  have hexec : exec (.goToAddress address) s = .next (u.enterExecuting.succeed []) :=
    runCommand_of_done (run := runGoToAddress) h
  rw [hexec, State.succeed_eq]
  rfl

/-- Settles O47: outside the region the check refuses at once, inside it after the two reads. -/
theorem jumpTargetIsRefused : Obligations.JumpTargetIsRefused := by
  rintro s address _ _ hc hf rfl rfl
  refine ⟨fun hout => ?_, fun ⟨hlow, hhigh⟩ hsp => ?_⟩
  · have hcheck := checkGoToAddress_of_outside (s := s.acceptJump address) hout
    exact ⟨_, exec_goToAddress_of_raised hcheck hc hf, rfl, rfl, rfl, fun _ => rfl⟩
  · have hbad : plausibleSp s.cfg (s.wordAt address.toNat) = false := (plausibleSp_false_iff _ _).mpr hsp
    have hcheck := (checkGoToAddress_of_inside (s := s.acceptJump address) hc hlow hhigh).trans
      (if_neg (ne_true_of_eq_false hbad))
    exact ⟨_, _, _, exec_goToAddress_of_raised hcheck hc hf, rfl, rfl, rfl, fun _ => rfl⟩

/-- Settles O48. -/
theorem jumpTargetIsAccepted : Obligations.JumpTargetIsAccepted := by
  rintro s address _ _ hc hlow hhigh rfl rfl hzero hbase hend
  have hgood : plausibleSp s.cfg (s.wordAt address.toNat) = true := (plausibleSp_iff _ _).mpr ⟨hzero, hbase, hend⟩
  have hcheck := (checkGoToAddress_of_inside (s := s.acceptJump address) hc hlow hhigh).trans (if_pos hgood)
  exact ⟨_, _, _, exec_goToAddress_of_done hcheck, rfl, rfl, rfl, fun _ => rfl⟩

/-! The response. -/

/-- The step with a failure frame in the `TX_` registers sends it and starts the next cycle (T12 of R184). -/
theorem step_of_failure_frame {s : State} {r : Regs} {st : Byte} (hc : s.cfg.WellFormed)
    (hr : s.env.resetPending = false) (h : s.regs = r.withResponse s.cfg.rcNack st []) :
    step s = .next (s.sendResponse s.cfg.rcNack st []).newCycle := by
  have hp : s.regs.pstate = .responding := by rw [h]; rfl
  have hresp : s.fetchResponse = .ok (.nack st) := by
    rw [State.fetchResponse, h]
    exact (cfgFacts hc).decodeResponseBody_payloadOf (i := .nack st) rfl
  rw [step_of_responding hr hp, State.response_of_ok hresp]
  rfl

/-- Settles O49: the calls are the two reads at most, then the one `Tx` of the NACK. -/
theorem handOffSafety : Obligations.HandOffSafety := by
  intro s address hc hf hr hblank
  obtain ⟨u, hcheck, hu⟩ := checkGoToAddress_of_implausible (s := s.acceptJump address) (address := address) hc
    (plausibleSp_of_blank hc hblank)
  obtain ⟨hcfg, hopen, hreset, reads, htrace, hreads⟩ : u.cfg = s.cfg ∧ u.regs.flashOpen = false ∧
      u.env.resetPending = false ∧
      ∃ reads, u.env.trace = s.env.trace ++ reads ∧ ∀ e ∈ reads, e.isCpu = false := by
    rcases hu with rfl | rfl
    · exact ⟨rfl, hf, hr, [], (List.append_nil _).symm, by simp⟩
    · exact ⟨rfl, hf, hr, _, rfl, State.targetReads_isCpu _ _⟩
  have hwf : u.cfg.WellFormed := hcfg ▸ hc
  have hexec := exec_goToAddress_of_raised hcheck hwf hopen
  have hnack := step_of_failure_frame (s := { u with
    regs := u.regs.withResponse u.cfg.rcNack u.cfg.stInvalidTarget [] }) (r := u.regs) hwf hreset rfl
  refine ⟨_, _, reads ++ [.tx (frame u.cfg u.cfg.rcNack [u.cfg.stInvalidTarget])], hexec, by rw [← hcfg]; rfl,
    hnack, rfl, ?_, ?_⟩
  · simp [htrace]
  · simpa [or_imp, forall_and, Event.isCpu] using hreads

theorem exec_ack_of_handOff {s : State} {status : Byte} {data : List Byte}
    (h : s.regs.cmd = some .goToAddress ∧ status = s.cfg.stOk) :
    exec (.ack status data) s = .next (s.sendResponse s.cfg.rcAck status data).handOff := if_pos h

/-- Settles O26: the `Tx` of the response stands before the four calls of `State.cpuCalls`. -/
theorem ackOfGoToAddressHandsOver : Obligations.AckOfGoToAddressHandsOver := by
  intro s data _ hcmd
  refine ⟨_, exec_ack_of_handOff ⟨hcmd, rfl⟩, rfl, rfl, ?_, fun a => ?_⟩
  · simp [encode, codeOf, payloadOf]
  · simp

end Sys2Proof.Machine
end

section
/-! PROOFS. Taking an error and the NACK that ends it (`60_exceptions.md` R304, R307): the failure frame is left in the
`TX_` registers with the lock paid, and the response with it starts the next cycle. -/

namespace Sys2Proof.Machine

/-- The owed lock in the environment: one `FlashLock` exactly when `FLASH_OPEN = 1` (R304 (1)). -/
theorem State.payLock_env (s : State) :
    s.payLock.env
      = if s.regs.flashOpen then { s.env with locked := true, trace := s.env.trace ++ [.flashLock] } else s.env := by
  cases hf : s.regs.flashOpen with
  | false => rw [State.payLock_of_closed hf]; rfl
  | true => rw [State.payLock_of_open hf]; rfl

/-- Every error but Timeout leaves the failure frame with the lock paid (R304 (1) to (3)). -/
theorem State.raise_regs_of_status {s : State} {e : Err} {st : Byte} (hc : s.cfg.WellFormed)
    (hst : s.cfg.status e = some st) :
    (s.raise e).regs = { s.regs with flashOpen := false }.withResponse s.cfg.rcNack st [] := by
  rw [State.raise_of_status hst, State.respond_regs, State.payLock_regs, State.payLock_cfg,
    (cfgFacts hc).responseCode_error hst]
  rfl

theorem State.raise_env_of_status {s : State} {e : Err} {st : Byte} (hst : s.cfg.status e = some st) :
    (s.raise e).env
      = if s.regs.flashOpen then { s.env with locked := true, trace := s.env.trace ++ [.flashLock] } else s.env := by
  rw [State.raise_of_status hst, State.respond_env, State.payLock_env]

/-- Settles O23, by the two ways an error is taken (`State.raise_cases`). -/
theorem raiseTakesTheError : Obligations.RaiseTakesTheError := by
  intro s e hc
  refine ⟨?_, s.raise_cfg e, s.raise_readByte e⟩
  rcases s.raise_cases e with ⟨rfl, hraise⟩ | ⟨st, hst, _⟩
  · left
    rw [hraise]
    exact ⟨rfl, rfl, rfl⟩
  · exact .inr ⟨st, hst, State.raise_regs_of_status hc hst, State.raise_env_of_status hst⟩

theorem exec_nack (s : State) (status : Byte) :
    exec (.nack status) s = .next (s.sendResponse s.cfg.rcNack status []).newCycle := rfl

/-- The frame of a NACK: the length byte 2, the code and the status, then their crc (R100). -/
theorem frame_nack (c : Cfg) (status : Byte) :
    frame c c.rcNack [status]
      = [2, c.rcNack, status] ++ crcBytes c.crcWireOrder (crc c [2, c.rcNack, status]) := rfl

/-- Settles O24: the response of `State.sendResponse`, then the registers of a new cycle. -/
theorem nackIsSentAndTheCycleEnds : Obligations.NackIsSentAndTheCycleEnds := by
  intro s status _
  refine ⟨_, exec_nack s status, rfl, rfl, ?_, fun _ => rfl⟩
  rw [State.newCycle_env, State.sendResponse_env, frame_nack]

end Sys2Proof.Machine
end

section
/-! PROOFS. Reset (`70_reset_and_hazards.md` R330 to R332). An asked reset goes before the dispatch over `PSTATE`, so one
equation of `step` speaks of every state, `HandedOff` among them; what it leaves is `State.deviceReset`. -/

namespace Sys2Proof.Machine

theorem step_of_resetPending {s : State} (hr : s.env.resetPending = true) : step s = .next s.deviceReset :=
  if_pos hr

/-- The flash content survives a reset (R332). -/
theorem State.deviceReset_readByte (s : State) (a : Nat) : s.deviceReset.readByte a = s.readByte a := rfl

/-- Settles O21: the step is the reset (`step_of_resetPending`), the registers after it are `Regs.reset`, which holds each
value of R42 by definition, and `State.deviceReset_env` says what becomes of the environment. -/
theorem resetRestoresTheTable : Obligations.ResetRestoresTheTable := by
  intro s hr
  refine ⟨s.deviceReset, step_of_resetPending hr, s.deviceReset_cfg, ?_⟩
  rw [s.deviceReset_regs]
  exact ⟨rfl, rfl, rfl, rfl, rfl, rfl, rfl, rfl, rfl, rfl, rfl, rfl, s.deviceReset_env, s.deviceReset_readByte⟩

end Sys2Proof.Machine
end
